-- ==== Sys2Proof/Word.lean ====
section
/-! DEFINITION. The units of the DCC: bytes, 32-bit words, byte strings and the fixed-length byte arrays
(00_scope.md rules R6, R10, R11). Only the types; every operation on them stands in `Sys2Proof/Machine/Bytes.lean`. -/

namespace Sys2Proof

/-- A byte, 0 to 255 (R10). -/
abbrev Byte := BitVec 8

/-- A word: 32 unsigned bits (R11); command words, length registers and the words of MD5. -/
abbrev Word := BitVec 32

/-- A byte string in index order, index 0 first (R10). -/
abbrev Bytes := List Byte

/-- A 16-byte string: a key, an IV, an AES block, an MD5 digest (R6). -/
abbrev Block := Vector Byte 16

/-- An 8-byte salt (R6: "exactly 8 bytes"). -/
abbrev Salt := Vector Byte 8

end Sys2Proof
end

