-- ==== Sys2Proof/Machine/Bytes.lean ====
section
/-! DEFINITION. Byte strings and words: the notation of 00_scope.md rules R10 and R11 (repetition, exclusive or,
little-endian reading and writing, rotation) and the passage between byte strings and fixed-length arrays (R12). -/

namespace Sys2Proof.Machine

/-- `rep(v, n)`: the string of `n` bytes each equal to `v` (R10). -/
def rep (v : Byte) (n : Nat) : Bytes := List.replicate n v

/-- The unsigned value of a byte string read least significant byte first: `b[0] + 256*b[1] + …` (R11, R54). -/
def leValue : Bytes → Nat
  | [] => 0
  | b :: bs => b.toNat + 256 * leValue bs

/-- The `n` bytes `(v >> (8*j)) mod 256`, `j = 0 .. n-1`, least significant first (R11 `le64inv`, R54). -/
def leBytes : Nat → Nat → Bytes
  | 0, _ => []
  | n + 1, v => BitVec.ofNat 8 v :: leBytes n (v / 256)

/-- `le32(b)`: the word whose least significant byte is `b[0]` (R11). -/
def le32 (b : Bytes) : Word := BitVec.ofNat 32 (leValue (b.take 4))

/-- `le32inv(w)`: the four bytes of `w`, least significant first (R11). -/
def le32inv (w : Word) : Bytes := leBytes 4 w.toNat

/-- `le64inv(n)`: the eight bytes of a 64-bit `n`, least significant first (R11). -/
def le64inv (n : Nat) : Bytes := leBytes 8 (n % 2 ^ 64)

/-- `rotl32(x, s) = ((x << s) or (x >> (32 - s))) mod 2^32` (R11). -/
def rotl32 (x : Word) (s : Nat) : Word := (x <<< s) ||| (x >>> (32 - s))

/-- The fixed-length array holding a byte string: `x <- s` of R12 for a string of the array's own length. A missing
byte would read as `00`; no rule passes a shorter string. -/
def arrayOf (n : Nat) (s : Bytes) : Vector Byte n := Vector.ofFn fun i => s.getD i.val 0

/-- The 16-byte block holding a 16-byte string. -/
def blockOf (s : Bytes) : Block := arrayOf 16 s

/-- `a xor b`, bytewise, on two strings of equal length (R10). -/
def xorArray {n : Nat} (a b : Vector Byte n) : Vector Byte n := Vector.ofFn fun i => a[i] ^^^ b[i]

/-- The first `nb` pieces of `size` bytes of a byte string, in order (the blocks of R107, R168, R169). -/
def pieces (size : Nat) : Nat → Bytes → List Bytes
  | 0, _ => []
  | nb + 1, p => p.take size :: pieces size nb (p.drop size)

end Sys2Proof.Machine
end

