-- ==== Sys2Proof/Syntax.lean ====
section
/-! DEFINITION. The commands of the DCC, one constructor per row of spec/opcode_table.json (30_encoding.md rule R82);
the host operations (R85, 00_scope.md rule R13); the named registers and arrays of the address map (20_memory.md rule
R51); and the moves of the environment that a step can make (00_scope.md rule R3, 70_reset_and_hazards.md rule R260). -/

namespace Sys2Proof

/-- The six commands (R82). A command has no operand field: each takes its operands from fixed registers and buffers
(R80). The suffix keeps clear of Lean's own words `open` and `seal`. -/
inductive Instr where
  | deriveCmd   -- DERIVE,  word 0x00000001
  | encryptCmd  -- ENCRYPT, word 0x00000002
  | decryptCmd  -- DECRYPT, word 0x00000003
  | sealCmd     -- SEAL,    word 0x00000004
  | openCmd     -- OPEN,    word 0x00000005
  | clearCmd    -- CLEAR,   word 0x00000006
deriving DecidableEq, Repr

/-- The six control words of the address map (R51). -/
inductive CtlReg where
  | cmd | status | ctrl | pwLen | inLen | outLen
deriving DecidableEq, Repr

/-- The six byte arrays of the address map (R51). -/
inductive ByteArr where
  | key | iv | salt | pw | inp | out
deriving DecidableEq, Repr

/-- What a row of the address map names (R51, column "kind"). -/
inductive Target where
  | ctl (r : CtlReg)
  | arr (a : ByteArr)
deriving DecidableEq, Repr

/-- A host operation record (R85): `MemRead(addr, n)` or `MemWrite(addr, n, v)` on the 18-bit, 32-bit-wide port (R9,
R13). For `n < 4` only the low `8n` bits of `v` are on the port: DEDUCED, safe, log entry 6. -/
inductive HostOp where
  | read (addr : BitVec 18) (n : Nat)
  | write (addr : BitVec 18) (n : Nat) (v : Word)
deriving DecidableEq, Repr

/-- What the port answers: `ok`, `ok(v)` with `v` zero-extended to the port's width, or `err` (R13, R85). -/
inductive Answer where
  | ok
  | data (v : Word)
  | err
deriving DecidableEq, Repr

/-- One move of the environment: a host access, the reset event, or none, which leaves the turn to the core sequencer
(R3, R260). -/
inductive Input where
  | access (op : HostOp)
  | reset
  | core
deriving DecidableEq, Repr

/-- One line of a host script: an operation record (R85), or `POLL`, the one pseudo-operation that is no fixed list of
records (R86). -/
inductive ScriptLine where
  | record (op : HostOp)
  | poll
deriving DecidableEq, Repr

/-- The address of a host operation. -/
def HostOp.addr : HostOp → BitVec 18
  | .read a _ => a
  | .write a _ _ => a

/-- The byte count of a host operation. -/
def HostOp.size : HostOp → Nat
  | .read _ n => n
  | .write _ n _ => n

/-- Whether a host operation is a write. -/
def HostOp.isWrite : HostOp → Bool
  | .read _ _ => false
  | .write _ _ _ => true

end Sys2Proof
end

