-- ==== Sys2Proof/Decode.lean ====
section
/-! DEFINITION. The command decoder, total on words and on byte strings, and the encoder (30_encoding.md rules R80, R82
to R84). A command word travels the host port as four bytes, least significant first (20_memory.md rule R59). -/

namespace Sys2Proof

/-- Why bytes are no command: the illegal words of R83, by name. -/
inductive Reject where
  | reservedBits  -- `w[31:8] != 0`, whatever the `OP` (R83)
  | unassignedOp  -- `OP = 0x00`, or `OP` from `0x07` to `0xFF` (R83)
  | tooShort      -- fewer than the four bytes of the one command length (R80)
deriving DecidableEq, Repr

/-- The field `OP`, bits 7:0 (R80). -/
def opField (w : Word) : Byte := w.extractLsb' 0 8

/-- The field `RSV`, bits 31:8 (R80). -/
def rsvField (w : Word) : BitVec 24 := w.extractLsb' 8 24

/-- `Decode(w)` (R84), with the illegal words named. -/
def decode (w : Word) : Except Reject Instr :=
  if rsvField w ≠ 0 then .error .reservedBits
  else match (opField w).toNat with
    | 0x01 => .ok .deriveCmd
    | 0x02 => .ok .encryptCmd
    | 0x03 => .ok .decryptCmd
    | 0x04 => .ok .sealCmd
    | 0x05 => .ok .openCmd
    | 0x06 => .ok .clearCmd
    | _ => .error .unassignedOp

/-- The command at the head of a byte string, and the bytes after it. -/
def decodeBytes : Bytes → Except Reject (Instr × Bytes)
  | b0 :: b1 :: b2 :: b3 :: rest =>
    match decode (Machine.le32 [b0, b1, b2, b3]) with
    | .ok i => .ok (i, rest)
    | .error e => .error e
  | _ => .error .tooShort

/-- The `OP` value of a command (R82). -/
def opcode : Instr → Byte
  | .deriveCmd => 0x01
  | .encryptCmd => 0x02
  | .decryptCmd => 0x03
  | .sealCmd => 0x04
  | .openCmd => 0x05
  | .clearCmd => 0x06

/-- The command word: `RSV` zero, then `OP` (R80, R82). -/
def encode (i : Instr) : Word := (0 : BitVec 24) ++ opcode i

/-- The four bytes of the command word as the port carries them. -/
def encodeBytes (i : Instr) : Bytes := Machine.le32inv (encode i)

/-- The bytes of an instruction given as `nbits` bits of a number (bit 0 the least significant of the first byte), every
higher bit zero. -/
def wordBytes (nbits w : Nat) : Bytes := Machine.leBytes 4 (w % 2 ^ nbits)

/-- The instruction the decoder reads from the `nbits` bits of `w`, numbered as spec/opcode_table.json numbers them. -/
def decodeTableWord (nbits w : Nat) : Option Instr :=
  match decodeBytes (wordBytes nbits w) with
  | .ok (i, _) => some i
  | .error _ => none

end Sys2Proof
end

