-- ==== Sys2Proof/Machine/Aes.lean ====
section
/-! DEFINITION. The AES-128 block primitive (42_aes128.md rules R135 to R148): the field, the tables, the four
transformations and their inverses, key expansion, and the block function in both directions. No opcode runs a bare
block operation. -/

namespace Sys2Proof.Machine

/-! ## Field arithmetic (R136) -/

/-- Multiplication by `02` in GF(2^8) modulo `0x11B` (R136). -/
def xtime (a : Byte) : Byte := if a.getLsbD 7 then (a <<< 1) ^^^ 0x1B else a <<< 1

/-- The multiplication loop of R136 from bit `j` on, `left` bits to go: `r` is the sum so far, `a` the shifted factor. -/
def gmulLoop (b : Byte) : Nat → Nat → Byte → Byte → Byte
  | 0, _, _, r => r
  | left + 1, j, a, r => gmulLoop b left (j + 1) (xtime a) (if b.getLsbD j then r ^^^ a else r)

/-- General multiplication `a • b` (R136). -/
def gmul (a b : Byte) : Byte := gmulLoop b 8 0 a 0

/-! ## Substitution tables (R138, R139; both normative) -/

/-- The rows of `SBOX`, by high digit (R138). -/
def sboxRows : List (List Byte) :=
  [[0x63, 0x7C, 0x77, 0x7B, 0xF2, 0x6B, 0x6F, 0xC5, 0x30, 0x01, 0x67, 0x2B, 0xFE, 0xD7, 0xAB, 0x76],
   [0xCA, 0x82, 0xC9, 0x7D, 0xFA, 0x59, 0x47, 0xF0, 0xAD, 0xD4, 0xA2, 0xAF, 0x9C, 0xA4, 0x72, 0xC0],
   [0xB7, 0xFD, 0x93, 0x26, 0x36, 0x3F, 0xF7, 0xCC, 0x34, 0xA5, 0xE5, 0xF1, 0x71, 0xD8, 0x31, 0x15],
   [0x04, 0xC7, 0x23, 0xC3, 0x18, 0x96, 0x05, 0x9A, 0x07, 0x12, 0x80, 0xE2, 0xEB, 0x27, 0xB2, 0x75]] ++
  [[0x09, 0x83, 0x2C, 0x1A, 0x1B, 0x6E, 0x5A, 0xA0, 0x52, 0x3B, 0xD6, 0xB3, 0x29, 0xE3, 0x2F, 0x84],
   [0x53, 0xD1, 0x00, 0xED, 0x20, 0xFC, 0xB1, 0x5B, 0x6A, 0xCB, 0xBE, 0x39, 0x4A, 0x4C, 0x58, 0xCF],
   [0xD0, 0xEF, 0xAA, 0xFB, 0x43, 0x4D, 0x33, 0x85, 0x45, 0xF9, 0x02, 0x7F, 0x50, 0x3C, 0x9F, 0xA8],
   [0x51, 0xA3, 0x40, 0x8F, 0x92, 0x9D, 0x38, 0xF5, 0xBC, 0xB6, 0xDA, 0x21, 0x10, 0xFF, 0xF3, 0xD2]] ++
  [[0xCD, 0x0C, 0x13, 0xEC, 0x5F, 0x97, 0x44, 0x17, 0xC4, 0xA7, 0x7E, 0x3D, 0x64, 0x5D, 0x19, 0x73],
   [0x60, 0x81, 0x4F, 0xDC, 0x22, 0x2A, 0x90, 0x88, 0x46, 0xEE, 0xB8, 0x14, 0xDE, 0x5E, 0x0B, 0xDB],
   [0xE0, 0x32, 0x3A, 0x0A, 0x49, 0x06, 0x24, 0x5C, 0xC2, 0xD3, 0xAC, 0x62, 0x91, 0x95, 0xE4, 0x79],
   [0xE7, 0xC8, 0x37, 0x6D, 0x8D, 0xD5, 0x4E, 0xA9, 0x6C, 0x56, 0xF4, 0xEA, 0x65, 0x7A, 0xAE, 0x08]] ++
  [[0xBA, 0x78, 0x25, 0x2E, 0x1C, 0xA6, 0xB4, 0xC6, 0xE8, 0xDD, 0x74, 0x1F, 0x4B, 0xBD, 0x8B, 0x8A],
   [0x70, 0x3E, 0xB5, 0x66, 0x48, 0x03, 0xF6, 0x0E, 0x61, 0x35, 0x57, 0xB9, 0x86, 0xC1, 0x1D, 0x9E],
   [0xE1, 0xF8, 0x98, 0x11, 0x69, 0xD9, 0x8E, 0x94, 0x9B, 0x1E, 0x87, 0xE9, 0xCE, 0x55, 0x28, 0xDF],
   [0x8C, 0xA1, 0x89, 0x0D, 0xBF, 0xE6, 0x42, 0x68, 0x41, 0x99, 0x2D, 0x0F, 0xB0, 0x54, 0xBB, 0x16]]

/-- The rows of `INVSBOX`, by high digit (R139). -/
def invSboxRows : List (List Byte) :=
  [[0x52, 0x09, 0x6A, 0xD5, 0x30, 0x36, 0xA5, 0x38, 0xBF, 0x40, 0xA3, 0x9E, 0x81, 0xF3, 0xD7, 0xFB],
   [0x7C, 0xE3, 0x39, 0x82, 0x9B, 0x2F, 0xFF, 0x87, 0x34, 0x8E, 0x43, 0x44, 0xC4, 0xDE, 0xE9, 0xCB],
   [0x54, 0x7B, 0x94, 0x32, 0xA6, 0xC2, 0x23, 0x3D, 0xEE, 0x4C, 0x95, 0x0B, 0x42, 0xFA, 0xC3, 0x4E],
   [0x08, 0x2E, 0xA1, 0x66, 0x28, 0xD9, 0x24, 0xB2, 0x76, 0x5B, 0xA2, 0x49, 0x6D, 0x8B, 0xD1, 0x25]] ++
  [[0x72, 0xF8, 0xF6, 0x64, 0x86, 0x68, 0x98, 0x16, 0xD4, 0xA4, 0x5C, 0xCC, 0x5D, 0x65, 0xB6, 0x92],
   [0x6C, 0x70, 0x48, 0x50, 0xFD, 0xED, 0xB9, 0xDA, 0x5E, 0x15, 0x46, 0x57, 0xA7, 0x8D, 0x9D, 0x84],
   [0x90, 0xD8, 0xAB, 0x00, 0x8C, 0xBC, 0xD3, 0x0A, 0xF7, 0xE4, 0x58, 0x05, 0xB8, 0xB3, 0x45, 0x06],
   [0xD0, 0x2C, 0x1E, 0x8F, 0xCA, 0x3F, 0x0F, 0x02, 0xC1, 0xAF, 0xBD, 0x03, 0x01, 0x13, 0x8A, 0x6B]] ++
  [[0x3A, 0x91, 0x11, 0x41, 0x4F, 0x67, 0xDC, 0xEA, 0x97, 0xF2, 0xCF, 0xCE, 0xF0, 0xB4, 0xE6, 0x73],
   [0x96, 0xAC, 0x74, 0x22, 0xE7, 0xAD, 0x35, 0x85, 0xE2, 0xF9, 0x37, 0xE8, 0x1C, 0x75, 0xDF, 0x6E],
   [0x47, 0xF1, 0x1A, 0x71, 0x1D, 0x29, 0xC5, 0x89, 0x6F, 0xB7, 0x62, 0x0E, 0xAA, 0x18, 0xBE, 0x1B],
   [0xFC, 0x56, 0x3E, 0x4B, 0xC6, 0xD2, 0x79, 0x20, 0x9A, 0xDB, 0xC0, 0xFE, 0x78, 0xCD, 0x5A, 0xF4]] ++
  [[0x1F, 0xDD, 0xA8, 0x33, 0x88, 0x07, 0xC7, 0x31, 0xB1, 0x12, 0x10, 0x59, 0x27, 0x80, 0xEC, 0x5F],
   [0x60, 0x51, 0x7F, 0xA9, 0x19, 0xB5, 0x4A, 0x0D, 0x2D, 0xE5, 0x7A, 0x9F, 0x93, 0xC9, 0x9C, 0xEF],
   [0xA0, 0xE0, 0x3B, 0x4D, 0xAE, 0x2A, 0xF5, 0xB0, 0xC8, 0xEB, 0xBB, 0x3C, 0x83, 0x53, 0x99, 0x61],
   [0x17, 0x2B, 0x04, 0x7E, 0xBA, 0x77, 0xD6, 0x26, 0xE1, 0x69, 0x14, 0x63, 0x55, 0x21, 0x0C, 0x7D]]

/-- A table entry: row of the high hexadecimal digit, column of the low one (R138). -/
def tableAt (rows : List (List Byte)) (b : Byte) : Byte := (rows.getD (b.toNat / 16) []).getD (b.toNat % 16) 0

/-- `SBOX[b]` (R138). -/
def sbox (b : Byte) : Byte := tableAt sboxRows b

/-- `INVSBOX[b]` (R139). -/
def invSbox (b : Byte) : Byte := tableAt invSboxRows b

/-! ## The transformations (R137, R140 to R144)

The state is the flat 16-byte string `s`; the byte at row `r`, column `c` is `s[r + 4*c]` (R137). -/

/-- `SubBytes(s)[i] = SBOX[s[i]]` (R140). -/
def subBytes (s : Block) : Block := Vector.ofFn fun i => sbox s[i]

/-- `InvSubBytes(s)[i] = INVSBOX[s[i]]` (R140). -/
def invSubBytes (s : Block) : Block := Vector.ofFn fun i => invSbox s[i]

/-- `ShiftRows(s)[r + 4*c] = s[r + 4*((c + r) mod 4)]` (R141), at index `i = r + 4*c`. -/
def shiftRows (s : Block) : Block :=
  Vector.ofFn fun i => s[i.val % 4 + 4 * ((i.val / 4 + i.val % 4) % 4)]'(by omega)

/-- `InvShiftRows(s)[r + 4*c] = s[r + 4*((c - r) mod 4)]` (R141), at index `i = r + 4*c`. -/
def invShiftRows (s : Block) : Block :=
  Vector.ofFn fun i => s[i.val % 4 + 4 * ((i.val / 4 + 4 - i.val % 4) % 4)]'(by omega)

/-- Row `r` of a column product: coefficient `m[k]` times the byte at row `r + k` (mod 4) of column `c`, summed. Both
matrices of R142 and R143 are such circulants: each row is the one above turned right by one. -/
def mixEntry (m : Vector Byte 4) (s : Block) (i : Fin 16) : Byte :=
  gmul (s[i.val % 4 + 4 * (i.val / 4)]'(by omega)) m[0] ^^^
  gmul (s[(i.val % 4 + 1) % 4 + 4 * (i.val / 4)]'(by omega)) m[1] ^^^
  gmul (s[(i.val % 4 + 2) % 4 + 4 * (i.val / 4)]'(by omega)) m[2] ^^^
  gmul (s[(i.val % 4 + 3) % 4 + 4 * (i.val / 4)]'(by omega)) m[3]

/-- `MixColumns` (R142): `b0 = 02•a0 xor 03•a1 xor a2 xor a3`, and the rows below it in turn. -/
def mixColumns (s : Block) : Block := Vector.ofFn fun i => mixEntry #v[0x02, 0x03, 0x01, 0x01] s i

/-- `InvMixColumns` (R143): `b0 = 0E•a0 xor 0B•a1 xor 0D•a2 xor 09•a3`, and the rows below it in turn. -/
def invMixColumns (s : Block) : Block := Vector.ofFn fun i => mixEntry #v[0x0E, 0x0B, 0x0D, 0x09] s i

/-- `AddRoundKey(s, rk) = s xor rk` (R144). -/
def addRoundKey (s rk : Block) : Block := xorArray s rk

/-! ## Key expansion (R145, R146) -/

/-- `RCON[j]`, `j = 1 .. 10` (R145). -/
def rcon (j : Nat) : Byte := [0x01, 0x02, 0x04, 0x08, 0x10, 0x20, 0x40, 0x80, 0x1B, 0x36].getD (j - 1) 0

/-- The word that `w[i]` is built from: `w[i-1]` itself, or RotWord, SubWord and the round constant when
`i mod 4 = 0` (R146). -/
def keyMix (i : Nat) (t : Vector Byte 4) : Vector Byte 4 :=
  if i % 4 = 0 then #v[sbox t[1] ^^^ rcon (i / 4), sbox t[2], sbox t[3], sbox t[0]] else t

/-- The recurrence of R146 from index `i` on, `left` words to go, over the words so far, newest first. -/
def keyWordsLoop : Nat → Nat → List (Vector Byte 4) → List (Vector Byte 4)
  | 0, _, ws => ws
  | left + 1, i, ws =>
    keyWordsLoop left (i + 1) (xorArray (ws.getD 3 (arrayOf 4 [])) (keyMix i (ws.getD 0 (arrayOf 4 []))) :: ws)

/-- The 44 words `w[0] .. w[43]` of R146. -/
def keyWords (key : Block) : List (Vector Byte 4) :=
  (keyWordsLoop 40 4 ((pieces 4 4 key.toList).map (arrayOf 4)).reverse).reverse

/-- Round key `rk[r] = w[4r] ‖ w[4r+1] ‖ w[4r+2] ‖ w[4r+3]` from the expanded words (R146). -/
def roundKey (ws : List (Vector Byte 4)) (r : Nat) : Block :=
  blockOf (((ws.drop (4 * r)).take 4).flatMap Vector.toList)

/-- `KeyExpansion(key)`: the round keys `rk[0] .. rk[10]` (R146). -/
def keyExpansion (key : Block) : List Block := (List.range 11).map (roundKey (keyWords key))

/-! ## The cipher and its inverse (R147, R148) -/

/-- One of the rounds 1 to 9 of R147. -/
def encryptRound (s rk : Block) : Block := addRoundKey (mixColumns (shiftRows (subBytes s))) rk

/-- One of the rounds 9 down to 1 of R148. -/
def decryptRound (s rk : Block) : Block := invMixColumns (addRoundKey (invSubBytes (invShiftRows s)) rk)

/-- Encryption under given round keys, first key first: whitening, nine full rounds, the last without `MixColumns`
(R147). -/
def encryptWith (rk : List Block) (blk : Block) : Block :=
  let s := ((rk.drop 1).take 9).foldl encryptRound (addRoundKey blk (rk.getD 0 (blockOf [])))
  addRoundKey (shiftRows (subBytes s)) (rk.getD 10 (blockOf []))

/-- Decryption under given round keys, used in reverse order (R148). -/
def decryptWith (rk : List Block) (blk : Block) : Block :=
  let s := ((rk.drop 1).take 9).reverse.foldl decryptRound (addRoundKey blk (rk.getD 10 (blockOf [])))
  addRoundKey (invSubBytes (invShiftRows s)) (rk.getD 0 (blockOf []))

/-- `AesEncryptBlock(key, blk)` (R135, R147). -/
def aesEncryptBlock (key blk : Block) : Block := encryptWith (keyExpansion key) blk

/-- `AesDecryptBlock(key, blk)` (R135, R148). -/
def aesDecryptBlock (key blk : Block) : Block := decryptWith (keyExpansion key) blk

end Sys2Proof.Machine
end

