-- ==== Sys2Proof/Config.lean ====
section
/-! DEFINITION. What an implementation of the DCC fixes (00_scope.md rules R7, R8): the two capacities and the two
behaviour parameters; and the one free value, the bytes of the entropy source (60_exceptions.md rule R247). -/

namespace Sys2Proof

/-- `EMPTY_CT` (R8): what decryption of a zero-length ciphertext does. -/
inductive EmptyCt where
  | fault  -- it fails with `PaddingError` (the default)
  | empty  -- it succeeds with the empty plaintext
deriving DecidableEq, Repr

/-- The parameters of one DCC instance, fixed for its life (R33). The two capacities are held so that exactly the legal
values of R7 can be written: see `Params.pwMax` and `Params.bufMax`. -/
structure Params where
  /-- `PW_MAX` itself, an integer 0 to 4096 -/
  pwCap : Fin 4097
  /-- `BUF_MAX` in blocks above the least: `BUF_MAX = 16 * (bufBlocks + 2)`, a multiple of 16 from 32 to 65536 -/
  bufBlocks : Fin 4095
  /-- `STRICT_HEADER` (R8) -/
  strictHeader : Bool
  /-- `EMPTY_CT` (R8) -/
  emptyCt : EmptyCt
deriving DecidableEq, Repr

/-- `PW_MAX`: the capacity of the password buffer in bytes (R7). -/
def Params.pwMax (p : Params) : Nat := p.pwCap.val

/-- `BUF_MAX`: the capacity of each of `IN` and `OUT` in bytes (R7). -/
def Params.bufMax (p : Params) : Nat := 16 * (p.bufBlocks.val + 2)

/-- The default parameters: `PW_MAX = 256`, `BUF_MAX = 4096`, `STRICT_HEADER = false`, `EMPTY_CT = fault` (R7, R8). -/
def Params.default : Params :=
  { pwCap := 256, bufBlocks := 254, strictHeader := false, emptyCt := .fault }

/-- Free value: the 8 bytes, as 64 bits, that the entropy source delivers at its `n`-th draw when the state lists no draw
of its own (R247: any of the 2^64 values, under no law). No body: nothing can be proved of it. Safe: log entry 3. -/
opaque Config.draw8 : Nat → BitVec 64

end Sys2Proof
end

