-- ==== Sys2Proof/Machine/State.lean ====
section
/-! DEFINITION. The state of one DCC instance (10_state.md rule R20), the state after reset (R35), and the reasons a
step can stop (none: 93_implementation_defined.md, part 1). -/

namespace Sys2Proof.Machine

/-- A byte buffer: (index, byte) pairs with rising indexes, none of them the byte an unlisted index reads as
(`Memory.wf`). An unlisted index reads as `00`, the reset contents of every buffer (R35). DESIGN CHOICE for the form,
safe: log entry 8. -/
structure Memory where
  cells : List Host.Cell
deriving DecidableEq, Repr

/-- `PHASE` (R30): idle, or the command word accepted and not yet completed. -/
inductive Phase where
  | idle
  | busy (w : Word)
deriving DecidableEq, Repr

/-- The kinds of typed failure (60_exceptions.md rule R230). `invalidKeyMaterial` cannot arise (R232): it is kept so
that the kinds map one to one onto the codes, and no rule raises it. DESIGN CHOICE, safe: log entry 15. -/
inductive ErrKind where
  | paddingError
  | malformedContainer
  | invalidKeyMaterial
  | illegalCommand
  | lengthError
deriving DecidableEq, Repr

/-- The reasons a step stops with a fault: none. A typed failure is an ordinary completion (R230 to R236) and a refused
host access is answered by the port (R58); the spec leaves no behaviour undefined (93_implementation_defined.md). Safe:
there is nothing a run could stop at. -/
inductive Fault where
deriving DecidableEq, Repr

/-- The reasons a step is refused. -/
inductive Refusal where
  /-- Raised by an arm of `exec` whose command has no meaning yet; no arm is left. Safe: the run ends where the hardware
  would go on. -/
  | notModelled (mnemonic : String)
deriving DecidableEq, Repr

/-- The state. The first fourteen fields are the components of R20, the last five the MODEL's own: the parameters of the
instance and the environment's side of the port (see notes/assumptions). -/
structure State where
  /-- `KEY`, 16 bytes (R21) -/
  key : Block
  /-- `IV`, 16 bytes (R22) -/
  iv : Block
  /-- `SALT`, 8 bytes (R23) -/
  salt : Salt
  /-- `PW`, `PW_MAX` bytes (R25) -/
  pw : Memory
  /-- `PWLEN` (R25) -/
  pwLen : Word
  /-- `IN`, `BUF_MAX` bytes (R26) -/
  inp : Memory
  /-- `INLEN` (R26) -/
  inLen : Word
  /-- `OUT`, `BUF_MAX` bytes, read-only to the host (R27) -/
  out : Memory
  /-- `OUTLEN`, read-only to the host (R27) -/
  outLen : Word
  /-- `CTRL.IE`, the one field of `CTRL` (R29) -/
  ie : Bool
  /-- `STATUS.DONE` (R28) -/
  done : Bool
  /-- `STATUS.ERR`, 4 bits (R28, R230) -/
  err : BitVec 4
  /-- `STATUS.ACCERR` (R28) -/
  accErr : Bool
  /-- `PHASE` (R30) -/
  phase : Phase
  /-- The model's own: the parameters of this instance (R7, R8); no step changes them. DESIGN CHOICE, safe: log
  entry 1. -/
  params : Params
  /-- The model's own: what the environment is yet to do, first move first (R3, R260). DESIGN CHOICE: log
  entry 2. -/
  inputs : List Input
  /-- The model's own: what the port has answered, latest first (R13). DESIGN CHOICE, safe: log entry 4. -/
  answers : List Answer
  /-- The model's own: the draws the entropy source is known to deliver next, next first (R247). DESIGN
  CHOICE, safe: log entry 3. -/
  entropy : List Salt
  /-- The model's own: how many draws have been taken; the next one, when `entropy` lists none, is
  `Config.draw8 draws` (R247). DESIGN CHOICE, safe: log entry 3. -/
  draws : Nat
deriving DecidableEq, Repr

/-- The state after reset (R35), every component at the value the rule gives; default parameters (R7, R8); no move of
the environment pending, no answer given, no draw known or taken. -/
def State.reset : State where
  key := Vector.ofFn fun _ => 0
  iv := Vector.ofFn fun _ => 0
  salt := Vector.ofFn fun _ => 0
  pw := ⟨[]⟩
  pwLen := 0
  inp := ⟨[]⟩
  inLen := 0
  out := ⟨[]⟩
  outLen := 0
  ie := false
  done := false
  err := 0
  accErr := false
  phase := .idle
  params := Params.default
  inputs := []
  answers := []
  entropy := []
  draws := 0

end Sys2Proof.Machine
end

