-- ==== Sys2Proof/Machine/Flags.lean ====
section
/-! DEFINITION. The control and status bits: the error codes (60_exceptions.md rule R230), the words `STATUS` and `CTRL`
read as, every way a flag changes (10_state.md rules R28, R29), and the interrupt output (R31, R242). -/

namespace Sys2Proof.Machine

/-- The code of a failure kind in `STATUS.ERR` (R230). Codes 6 to 15 stand for nothing. -/
def ErrKind.code : ErrKind → BitVec 4
  | .paddingError => 1
  | .malformedContainer => 2
  | .invalidKeyMaterial => 3
  | .illegalCommand => 4
  | .lengthError => 5

/-- `STATUS.BUSY`: 1 exactly when `PHASE != IDLE`; not stored (R20, R28). -/
def State.isBusy (s : State) : Bool :=
  match s.phase with
  | .idle => false
  | .busy _ => true

/-- The word `STATUS` reads as: `BUSY`, `DONE`, `ACCERR`, a reserved 0, `ERR`, reserved zeros, from bit 0 up (R28, R55). -/
def State.statusWord (s : State) : Word :=
  (0 : BitVec 24) ++ s.err ++ (0 : BitVec 1) ++ BitVec.ofBool s.accErr ++ BitVec.ofBool s.done ++ BitVec.ofBool s.isBusy

/-- The word `CTRL` reads as: `IE` in bit 0, reserved zeros above (R29, R55). -/
def State.ctrlWord (s : State) : Word := (0 : BitVec 31) ++ BitVec.ofBool s.ie

/-- The interrupt output, a level computed from state: `irq = CTRL.IE and STATUS.DONE` (R31). -/
def State.irq (s : State) : Bool := s.ie && s.done

/-- `DONE <- 1` and `ERR <- e`, as every completion does (R235, R236). -/
def State.setDone (e : BitVec 4) (s : State) : State := { s with done := true, err := e }

/-- `DONE <- 0` and `ERR <- 0` together, as a write of 1 to `DONE` and the acceptance of a command word do (R28). -/
def State.clearDone (s : State) : State := { s with done := false, err := 0 }

/-- `ACCERR <- 1`, as every refused host access does (R58). -/
def State.setAccErr (s : State) : State := { s with accErr := true }

/-- `ACCERR <- 0`, by a host write of 1 to the bit (R28). -/
def State.clearAccErr (s : State) : State := { s with accErr := false }

/-- A host write of `v` to `STATUS`: bit 1 clears `DONE` and `ERR`, bit 2 clears `ACCERR`, every other bit is ignored
(R28). -/
def State.writeStatus (v : Word) (s : State) : State :=
  let s1 := if v.getLsbD 1 then s.clearDone else s
  if v.getLsbD 2 then s1.clearAccErr else s1

/-- A host write of `v` to `CTRL`: `IE <- v[0]`, every other bit is ignored (R29, R56). -/
def State.writeCtrl (v : Word) (s : State) : State := { s with ie := v.getLsbD 0 }

end Sys2Proof.Machine
end

