-- ==== Sys2Proof/Machine/Ops.lean ====
section
/-! DEFINITION. The operations over buffers and registers that the commands and the host port share: reading and writing
a buffer, the completion of a command (success R235, typed failure R236), its acceptance (30_encoding.md rule R81), its
acknowledgement (R240), and the reset event (70_reset_and_hazards.md rule R260). -/

namespace Sys2Proof.Machine

/-! ## Byte buffers (10_state.md rules R25 to R27) -/

/-- What an index that a buffer does not list reads as: `00`, the reset contents (R35). -/
def Memory.unlisted : Byte := 0

/-- The byte at an index of a list of cells. -/
def cellsGet : List Host.Cell → Nat → Byte
  | [], _ => Memory.unlisted
  | c :: cs, i => if c.1 = i then c.2 else cellsGet cs i

/-- A list of cells with the byte at an index replaced; the form stays canonical. -/
def cellsSet : List Host.Cell → Nat → Byte → List Host.Cell
  | [], i, v => if v = Memory.unlisted then [] else [(i, v)]
  | c :: cs, i, v =>
    if c.1 < i then c :: cellsSet cs i v
    else
      let tail := if c.1 = i then cs else c :: cs
      if v = Memory.unlisted then tail else (i, v) :: tail

/-- The cells of a byte string laid down from an index. -/
def cellsOf : Nat → Bytes → List Host.Cell
  | _, [] => []
  | i, b :: bs => if b = Memory.unlisted then cellsOf (i + 1) bs else (i, b) :: cellsOf (i + 1) bs

/-- The canonical form from a least index on: indexes strictly rising, no listed byte equal to the unlisted one. -/
def cellsWf : Nat → List Host.Cell → Bool
  | _, [] => true
  | lo, c :: cs => decide (lo ≤ c.1) && (c.2 != Memory.unlisted) && cellsWf (c.1 + 1) cs

/-- The canonical form of a buffer. -/
def Memory.wf (m : Memory) : Bool := cellsWf 0 m.cells

/-- Every listed index is below a capacity. -/
def Memory.within (cap : Nat) (m : Memory) : Bool := m.cells.all fun c => decide (c.1 < cap)

/-- The buffer of zeros. -/
def Memory.zeros : Memory := ⟨[]⟩

/-- Byte `i` of a buffer: `x[i]` (R12). -/
def Memory.get (m : Memory) (i : Nat) : Byte := cellsGet m.cells i

/-- `x[i] <- v` (R12). -/
def Memory.set (m : Memory) (i : Nat) (v : Byte) : Memory := ⟨cellsSet m.cells i v⟩

/-- `x <- r ‖ 00 …`: a byte string from index 0, zeros above it (R235). -/
def Memory.ofBytes (r : Bytes) : Memory := ⟨cellsOf 0 r⟩

/-- `x[0..n)`, read from index 0 (R68). -/
def Memory.slice (m : Memory) (n : Nat) : Bytes := (List.range n).map m.get

/-- `x[i+j] <- b[j]` for every byte of a string, all at once (R54). -/
def Memory.setBytes : Memory → Nat → Bytes → Memory
  | m, _, [] => m
  | m, i, b :: bs => (m.set i b).setBytes (i + 1) bs

/-- `x[i+j] <- b[j]` in a byte-array register. -/
def arraySetBytes {n : Nat} : Vector Byte n → Nat → Bytes → Vector Byte n
  | x, _, [] => x
  | x, i, b :: bs => arraySetBytes (x.setIfInBounds i b) (i + 1) bs

/-! ## The register writes of a command -/

/-- `KEY <- k ; IV <- v` (R123). -/
def State.setKeyIv (k v : Block) (s : State) : State := { s with key := k, iv := v }

/-- `KEY`, `IV`, `SALT`, `PW`, `PWLEN`, `IN`, `INLEN` all zero (R210). -/
def State.zeroizeInputs (s : State) : State :=
  { s with
    key := blockOf [], iv := blockOf [], salt := arrayOf 8 [], pw := Memory.zeros, pwLen := 0,
    inp := Memory.zeros, inLen := 0 }

/-! ## Completion: the typed failure and its acknowledgement (60_exceptions.md, sections 2 and 4) -/

/-- Successful completion with result `r`: `OUT <- r` zero-filled, `OUTLEN <- len(r)`, `ERR <- 0`, `DONE <- 1`,
`PHASE <- IDLE`, all at once (R235). -/
def State.complete (r : Bytes) (s : State) : State :=
  { s.setDone 0 with out := Memory.ofBytes r, outLen := BitVec.ofNat 32 r.length, phase := .idle }

/-- Failed completion with a kind: `OUT` all zero, `OUTLEN <- 0`, `ERR` the code, `DONE <- 1`, `PHASE <- IDLE`; nothing
else changes (R236). Nothing is saved and no handler is entered (60_exceptions.md, opening). -/
def State.fail (e : ErrKind) (s : State) : State :=
  { s.setDone e.code with out := Memory.zeros, outLen := 0, phase := .idle }

/-- The completion that a pure function's result calls for: a failure kind or a byte string (R239, R245). -/
def State.finish (r : Except ErrKind Bytes) (s : State) : State :=
  match r with
  | .ok b => s.complete b
  | .error e => s.fail e

/-- The host acknowledges a completion: `DONE` and `ERR` are cleared and so `irq` drops; every other register keeps its
value (R240). There is no return from a trap: nothing was saved, nothing is restored. -/
def State.acknowledge (s : State) : State := s.clearDone

/-- Acceptance of a command word: `PHASE <- BUSY(w)`, and the last completion is acknowledged (R81). -/
def State.accept (w : Word) (s : State) : State := { s.acknowledge with phase := .busy w }

/-- The reset event: every component of R20 takes its value of R35; a pending command is abandoned (R260, R261). The
parameters and the environment's side are no state of the DCC and stay (R33). -/
def State.resetEvent (s : State) : State :=
  { State.reset with
    params := s.params, inputs := s.inputs, answers := s.answers, entropy := s.entropy, draws := s.draws }

/-! ## The environment's side of the port -/

/-- The port gives an answer (R13). -/
def State.answer (a : Answer) (s : State) : State := { s with answers := a :: s.answers }

/-- `draw8()`: the 8 bytes the entropy source supplies next, any value (R247). -/
def State.nextDraw (s : State) : Salt :=
  match s.entropy with
  | d :: _ => d
  | [] => arrayOf 8 (le64inv (Config.draw8 s.draws).toNat)

/-- The draw is taken: the next one is a fresh one (R33). -/
def State.takeDraw (s : State) : State := { s with entropy := s.entropy.tail, draws := s.draws + 1 }

end Sys2Proof.Machine
end

