-- ==== Sys2Proof/Machine/Operands.lean ====
section
/-! DEFINITION. How a command takes its operands: buffer from zero (20_memory.md rule R68), and the tests that inputs and
output fit their buffers (60_exceptions.md rule R231). -/

namespace Sys2Proof.Machine

/-- `PadLen(L)`: the least multiple of 16 strictly greater than `L` (43_cbc_pkcs7.md rule R165), on unbounded numbers
(R231). -/
def padLen (len : Nat) : Nat := 16 * (len / 16 + 1)

/-- The password `PW[0..PWLEN)` (R25, R68). -/
def State.password (s : State) : Bytes := s.pw.slice s.pwLen.toNat

/-- The data input `IN[0..INLEN)` (R26, R68). -/
def State.dataIn (s : State) : Bytes := s.inp.slice s.inLen.toNat

/-- `PWLEN <= PW_MAX` (R231). -/
def State.passwordFits (s : State) : Bool := decide (s.pwLen.toNat ≤ s.params.pwMax)

/-- `INLEN <= BUF_MAX` (R231). -/
def State.dataFits (s : State) : Bool := decide (s.inLen.toNat ≤ s.params.bufMax)

/-- A result of `n` bytes would fit `OUT` (R68, R231). -/
def State.resultFits (n : Nat) (s : State) : Bool := decide (n ≤ s.params.bufMax)

end Sys2Proof.Machine
end

