-- ==== Sys2Proof/Machine/Cipher.lean ====
section
/-! DEFINITION. Padding and CBC mode: the pure functions (43_cbc_pkcs7.md rules R165 to R171) and the commands ENCRYPT
(R172) and DECRYPT (R173). -/

namespace Sys2Proof.Machine

/-! ## Padding (R166, R167) -/

/-- `Pad(m)`: `n = 16 - (L mod 16)` bytes of value `n` are appended (R166). -/
def pad (m : Bytes) : Bytes :=
  let n := 16 - m.length % 16
  m ++ rep (BitVec.ofNat 8 n) n

/-- `Unpad(p)`: the last byte is the count `n`, 1 to 16, and every one of the last `n` bytes must equal it; `none` is
the result `invalid` (R167). -/
def unpad (p : Bytes) : Option Bytes :=
  let n := (p.getLastD 0).toNat
  if n < 1 ∨ n > 16 then none
  else if (p.drop (p.length - n)).all fun b => b.toNat == n then some (p.take (p.length - n))
  else none

/-! ## CBC (R168, R169) -/

/-- The 16-byte blocks of a byte string whose length is a multiple of 16. -/
def blocksOf (p : Bytes) : List Block := (pieces 16 (p.length / 16) p).map blockOf

/-- The bytes of a list of blocks, in order. -/
def bytesOf (bs : List Block) : Bytes := bs.flatMap Vector.toList

/-- The loop of R168: each plaintext block is xored with the block before it, then encrypted. -/
def cbcEncryptBlocks (key : Block) : Block → List Block → List Block
  | _, [] => []
  | prev, p :: ps =>
    let c := aesEncryptBlock key (xorArray p prev)
    c :: cbcEncryptBlocks key c ps

/-- `CbcEncrypt(key, iv, p)` (R168). -/
def cbcEncrypt (key iv : Block) (p : Bytes) : Bytes := bytesOf (cbcEncryptBlocks key iv (blocksOf p))

/-- The loop of R169: each block is decrypted, then xored with the ciphertext block before it as received. -/
def cbcDecryptBlocks (key : Block) : Block → List Block → List Block
  | _, [] => []
  | prev, c :: cs => xorArray (aesDecryptBlock key c) prev :: cbcDecryptBlocks key c cs

/-- `CbcDecryptRaw(key, iv, c)` (R169). -/
def cbcDecryptRaw (key iv : Block) (c : Bytes) : Bytes := bytesOf (cbcDecryptBlocks key iv (blocksOf c))

/-! ## The two contracts (R170, R171) -/

/-- `Encrypt(plaintext, key, iv) = CbcEncrypt(key, iv, Pad(plaintext))`; total (R170). -/
def encrypt (m : Bytes) (key iv : Block) : Bytes := cbcEncrypt key iv (pad m)

/-- `Decrypt(ciphertext, key, iv)`: the length test, the empty case, the padding test, in that order (R171). -/
def decrypt (em : EmptyCt) (c : Bytes) (key iv : Block) : Except ErrKind Bytes :=
  if c.length % 16 ≠ 0 then .error .paddingError
  else if c.length = 0 then
    match em with
    | .fault => .error .paddingError
    | .empty => .ok []
  else
    match unpad (cbcDecryptRaw key iv c) with
    | none => .error .paddingError
    | some r => .ok r

/-! ## The commands -/

/-- ENCRYPT (R172): the input or the padded result does not fit, `LengthError`; otherwise the result goes to `OUT`. `KEY`
and `IV` are read and keep their values (R22). -/
def execEncrypt (s : State) : Host.Outcome State Fault Refusal :=
  .next <|
    if s.dataFits && s.resultFits (padLen s.inLen.toNat) then s.complete (encrypt s.dataIn s.key s.iv)
    else s.fail .lengthError

/-- DECRYPT (R173): the input does not fit, `LengthError`; otherwise the outcome of `Decrypt`. -/
def execDecrypt (s : State) : Host.Outcome State Fault Refusal :=
  .next <|
    if s.dataFits then s.finish (decrypt s.params.emptyCt s.dataIn s.key s.iv)
    else s.fail .lengthError

end Sys2Proof.Machine
end

