-- ==== Sys2Proof/Machine/Clear.lean ====
section
/-! DEFINITION. The command CLEAR (45_clear_and_host_framing.md rule R210). -/

namespace Sys2Proof.Machine

/-- CLEAR (R210): every data-bearing register and buffer is zeroized, whatever the lengths hold, and the command
completes with no data output. `CTRL` and `STATUS.ACCERR` keep their values. It cannot fail. -/
def execClear (s : State) : Host.Outcome State Fault Refusal := .next (s.zeroizeInputs.complete [])

end Sys2Proof.Machine
end

