-- ==== Sys2Proof/Machine/Md5.lean ====
section
/-! DEFINITION. The MD5 primitive (40_md5.md rules R100 to R109): a pure function used by key derivation. No opcode
selects it. -/

namespace Sys2Proof.Machine

/-! ## Padding (R101) -/

/-- The number of zero bytes `z = (55 - L) mod 64` (R101), written without a negative intermediate. -/
def md5ZeroCount (len : Nat) : Nat := (119 - len % 64) % 64

/-- `Md5Pad(m) = m ‖ 80 ‖ rep(00, z) ‖ le64inv((8*L) mod 2^64)` (R101). -/
def md5Pad (m : Bytes) : Bytes :=
  m ++ [0x80] ++ rep 0 (md5ZeroCount m.length) ++ le64inv (8 * m.length)

/-! ## Constants (R102, R105, R106) -/

/-- The four chaining words `(A, B, C, D)` of R107. -/
structure Md5Chain where
  a : Word
  b : Word
  c : Word
  d : Word
deriving DecidableEq, Repr

/-- The initial chaining value `(A0, B0, C0, D0)` (R102). -/
def md5Init : Md5Chain := ⟨0x67452301, 0xEFCDAB89, 0x98BADCFE, 0x10325476⟩

/-- The additive constants `T[0] .. T[63]` (R105; the table is normative), one column of the table a piece. -/
def md5T : List Word :=
  [0xD76AA478, 0xE8C7B756, 0x242070DB, 0xC1BDCEEE, 0xF57C0FAF, 0x4787C62A, 0xA8304613, 0xFD469501,
   0x698098D8, 0x8B44F7AF, 0xFFFF5BB1, 0x895CD7BE, 0x6B901122, 0xFD987193, 0xA679438E, 0x49B40821] ++
  [0xF61E2562, 0xC040B340, 0x265E5A51, 0xE9B6C7AA, 0xD62F105D, 0x02441453, 0xD8A1E681, 0xE7D3FBC8,
   0x21E1CDE6, 0xC33707D6, 0xF4D50D87, 0x455A14ED, 0xA9E3E905, 0xFCEFA3F8, 0x676F02D9, 0x8D2A4C8A] ++
  [0xFFFA3942, 0x8771F681, 0x6D9D6122, 0xFDE5380C, 0xA4BEEA44, 0x4BDECFA9, 0xF6BB4B60, 0xBEBFBC70,
   0x289B7EC6, 0xEAA127FA, 0xD4EF3085, 0x04881D05, 0xD9D4D039, 0xE6DB99E5, 0x1FA27CF8, 0xC4AC5665] ++
  [0xF4292244, 0x432AFF97, 0xAB9423A7, 0xFC93A039, 0x655B59C3, 0x8F0CCC92, 0xFFEFF47D, 0x85845DD1,
   0x6FA87E4F, 0xFE2CE6E0, 0xA3014314, 0x4E0811A1, 0xF7537E82, 0xBD3AF235, 0x2AD7D2BB, 0xEB86D391]

/-- The rotation amount `s[i]` of step `i` (R106): four amounts repeating within each quarter. -/
def md5Rot (i : Nat) : Nat :=
  if i < 16 then [7, 12, 17, 22].getD (i % 4) 0
  else if i < 32 then [5, 9, 14, 20].getD (i % 4) 0
  else if i < 48 then [4, 11, 16, 23].getD (i % 4) 0
  else [6, 10, 15, 21].getD (i % 4) 0

/-- The message-word index `g(i)` of step `i` (R106). -/
def md5Index (i : Nat) : Nat :=
  if i < 16 then i
  else if i < 32 then (5 * i + 1) % 16
  else if i < 48 then (3 * i + 5) % 16
  else (7 * i) % 16

/-- The auxiliary function of step `i`: `F`, `G`, `H` or `I` by quarter (R104). -/
def md5Aux (i : Nat) (x y z : Word) : Word :=
  if i < 16 then (x &&& y) ||| (~~~x &&& z)
  else if i < 32 then (x &&& z) ||| (y &&& ~~~z)
  else if i < 48 then x ^^^ y ^^^ z
  else y ^^^ (x ||| ~~~z)

/-! ## The function (R103, R107, R108) -/

/-- The sixteen message words of a 64-byte block (R103). -/
def md5Words (blk : Bytes) : List Word := (pieces 4 16 blk).map le32

/-- Step `i` of R107; the tuple assignment is simultaneous. -/
def md5Step (x : List Word) (ch : Md5Chain) (i : Nat) : Md5Chain :=
  let t := ch.a + md5Aux i ch.b ch.c ch.d + x.getD (md5Index i) 0 + md5T.getD i 0
  { a := ch.d, b := ch.b + rotl32 t (md5Rot i), c := ch.b, d := ch.c }

/-- The effect of one 64-byte block on the chaining words: 64 steps, then the word-wise sum (R107). -/
def md5Block (ch : Md5Chain) (blk : Bytes) : Md5Chain :=
  let r := (List.range 64).foldl (md5Step (md5Words blk)) ch
  { a := ch.a + r.a, b := ch.b + r.b, c := ch.c + r.c, d := ch.d + r.d }

/-- The chaining words after all blocks of the padded message (R107). -/
def md5Final (m : Bytes) : Md5Chain :=
  let p := md5Pad m
  (pieces 64 (p.length / 64) p).foldl md5Block md5Init

/-- `MD5(m)`: the final words `a0, b0, c0, d0`, each least significant byte first (R107, R108). The result is 16 bytes
by its type (R100). -/
def md5 (m : Bytes) : Block :=
  let ch := md5Final m
  blockOf (le32inv ch.a ++ le32inv ch.b ++ le32inv ch.c ++ le32inv ch.d)

end Sys2Proof.Machine
end

