-- ==== Sys2Proof/Machine/Kdf.lean ====
section
/-! DEFINITION. Key derivation: the pure function (41_kdf.md rules R120 to R122) and the command DERIVE (R123). -/

namespace Sys2Proof.Machine

/-- `Derive(password, salt)`: `key = MD5(password ‖ salt)`, `iv = MD5(key ‖ password ‖ salt)` (R120). -/
def deriveKeyIv (password : Bytes) (salt : Salt) : Block × Block :=
  let key := md5 (password ++ salt.toList)
  (key, md5 (key.toList ++ password ++ salt.toList))

/-- DERIVE (R123): a password that does not fit fails with `LengthError`; otherwise `KEY` and `IV` are written and the
command completes with no data output. -/
def execDerive (s : State) : Host.Outcome State Fault Refusal :=
  .next <|
    if s.passwordFits then
      let kv := deriveKeyIv s.password s.salt
      (s.setKeyIv kv.1 kv.2).complete []
    else s.fail .lengthError

end Sys2Proof.Machine
end

