-- ==== Sys2Proof/Machine/Container.lean ====
section
/-! DEFINITION. The container: its layout (44_container.md rule R190), the pure functions (R191, R194) and the commands
SEAL (R193) and OPEN (R195). Salt, key and IV of a command are call-local: neither command reads or writes the registers
`KEY`, `IV`, `SALT` (R192). -/

namespace Sys2Proof.Machine

/-- `HEADER`: ASCII "Salted__" (00_scope.md rule R6). -/
def header : Bytes := [0x53, 0x61, 0x6C, 0x74, 0x65, 0x64, 0x5F, 0x5F]

/-- `Seal(plaintext, password, salt) = HEADER ‖ salt ‖ Encrypt(plaintext, Derive(password, salt))`; total (R191). -/
def sealBytes (m password : Bytes) (salt : Salt) : Bytes :=
  let kv := deriveKeyIv password salt
  header ++ salt.toList ++ encrypt m kv.1 kv.2

/-- `Open(container, password)`: the length test, the header test where `STRICT_HEADER` asks for it, then derivation from
the embedded salt and decryption (R194). -/
def openBytes (params : Params) (c password : Bytes) : Except ErrKind Bytes :=
  if c.length < 16 then .error .malformedContainer
  else if params.strictHeader && c.take 8 != header then .error .malformedContainer
  else
    let kv := deriveKeyIv password (arrayOf 8 ((c.drop 8).take 8))
    decrypt params.emptyCt (c.drop 16) kv.1 kv.2

/-- SEAL (R193): password, input or result does not fit, `LengthError` and no draw; otherwise the salt is drawn and the
container goes to `OUT`. -/
def execSeal (s : State) : Host.Outcome State Fault Refusal :=
  .next <|
    if s.passwordFits && s.dataFits && s.resultFits (16 + padLen s.inLen.toNat) then
      s.takeDraw.complete (sealBytes s.dataIn s.password s.nextDraw)
    else s.fail .lengthError

/-- OPEN (R195): password or input does not fit, `LengthError`; otherwise the outcome of `Open`. -/
def execOpen (s : State) : Host.Outcome State Fault Refusal :=
  .next <|
    if s.passwordFits && s.dataFits then s.finish (openBytes s.params s.dataIn s.password)
    else s.fail .lengthError

end Sys2Proof.Machine
end

