-- ==== Sys2Proof/Machine/Dispatch.lean ====
section
/-! DEFINITION. What each command does when the core sequencer completes it (60_exceptions.md rule R239). -/

namespace Sys2Proof.Machine

def exec (i : Instr) (s : State) : Host.Outcome State Fault Refusal :=
  match i with
  | .deriveCmd => Sys2Proof.Machine.execDerive s
  | .encryptCmd => Sys2Proof.Machine.execEncrypt s
  | .decryptCmd => Sys2Proof.Machine.execDecrypt s
  | .sealCmd => Sys2Proof.Machine.execSeal s
  | .openCmd => Sys2Proof.Machine.execOpen s
  | .clearCmd => Sys2Proof.Machine.execClear s

end Sys2Proof.Machine
end

