-- ==== Sys2Proof/Machine/AddressMap.lean ====
section
/-! DEFINITION. The host address map (20_memory.md rules R50, R51) and the test that a host access is well-formed (R52). -/

namespace Sys2Proof.Machine

/-- One row of the address map (R51). -/
structure Region where
  base : Nat
  size : Nat
  target : Target
  writable : Bool
  sizes : List Nat
deriving DecidableEq, Repr

/-- A control word: 4 bytes, moved whole (R51). -/
def ctlRow (base : Nat) (r : CtlReg) (writable : Bool) : Region :=
  { base := base, size := 4, target := .ctl r, writable := writable, sizes := [4] }

/-- A byte array: moved 1, 2 or 4 bytes at a time (R51). -/
def arrRow (base size : Nat) (a : ByteArr) (writable : Bool) : Region :=
  { base := base, size := size, target := .arr a, writable := writable, sizes := [1, 2, 4] }

/-- The twelve rows of R51. Every address outside them is unmapped. `CMD` counts as readable: a read returns `ok(0)`. -/
def addressMap (p : Params) : List Region :=
  [ctlRow 0x00000 .cmd true, ctlRow 0x00004 .status true, ctlRow 0x00008 .ctrl true,
   ctlRow 0x0000C .pwLen true, ctlRow 0x00010 .inLen true, ctlRow 0x00014 .outLen false,
   arrRow 0x00020 16 .key true, arrRow 0x00030 16 .iv true, arrRow 0x00040 8 .salt true,
   arrRow 0x01000 p.pwMax .pw true, arrRow 0x10000 p.bufMax .inp true, arrRow 0x20000 p.bufMax .out false]

/-- The `n` addresses from `a` all lie in the row (R52 (c)). -/
def Region.covers (r : Region) (a n : Nat) : Bool := decide (r.base ≤ a) && decide (a + n ≤ r.base + r.size)

/-- The row a well-formed access of `n` bytes at `a` falls in, if any. -/
def regionAt (p : Params) (a n : Nat) : Option Region := (addressMap p).find? fun r => r.covers a n

/-- R52: size 1, 2 or 4; natural alignment; one row; a size and a direction that row allows. -/
def accessWellFormed (p : Params) (op : HostOp) : Bool :=
  [1, 2, 4].contains op.size && (op.addr.toNat % op.size == 0) &&
    match regionAt p op.addr.toNat op.size with
    | none => false
    | some r => r.sizes.contains op.size && (r.writable || !op.isWrite)

end Sys2Proof.Machine
end

