-- ==== Sys2Proof/Machine/HostPort.lean ====
section
/-! DEFINITION. The host port (20_memory.md rules R52 to R61): which accesses are admitted, what an admitted access reads
or writes, and what a refused one does. -/

namespace Sys2Proof.Machine

/-- R53: a well-formed access is admitted when the DCC is idle, or when it reads `STATUS`. -/
def State.admits (s : State) (op : HostOp) : Bool := !s.isBusy || (op == .read 0x00004 4)

/-- Byte `i` of a byte array as the port sees it (R54). -/
def State.arrayGet (s : State) (a : ByteArr) (i : Nat) : Byte :=
  match a with
  | .key => s.key.toList.getD i 0
  | .iv => s.iv.toList.getD i 0
  | .salt => s.salt.toList.getD i 0
  | .pw => s.pw.get i
  | .inp => s.inp.get i
  | .out => s.out.get i

/-- `x[i+j] <- b[j]`, all bytes at once (R54). `OUT` is read-only to the host (R27), so no admitted access writes it. -/
def State.arraySet (s : State) (a : ByteArr) (i : Nat) (b : Bytes) : State :=
  match a with
  | .key => { s with key := arraySetBytes s.key i b }
  | .iv => { s with iv := arraySetBytes s.iv i b }
  | .salt => { s with salt := arraySetBytes s.salt i b }
  | .pw => { s with pw := s.pw.setBytes i b }
  | .inp => { s with inp := s.inp.setBytes i b }
  | .out => s

/-- The value a control word reads as (R55). -/
def State.ctlGet (s : State) (r : CtlReg) : Word :=
  match r with
  | .cmd => 0
  | .status => s.statusWord
  | .ctrl => s.ctrlWord
  | .pwLen => s.pwLen
  | .inLen => s.inLen
  | .outLen => s.outLen

/-- The effect of writing a control word (R56). `OUTLEN` is read-only to the host, so no admitted access writes it. -/
def State.ctlSet (s : State) (r : CtlReg) (v : Word) : State :=
  match r with
  | .cmd => s.accept v
  | .status => s.writeStatus v
  | .ctrl => s.writeCtrl v
  | .pwLen => { s with pwLen := v }
  | .inLen => { s with inLen := v }
  | .outLen => s

/-- The value an admitted read of `n` bytes gives in a row of the address map: little-endian in a byte array (R54), the
register itself in a control word (R55). -/
def State.rowGet (s : State) (r : Region) (addr n : Nat) : Word :=
  match r.target with
  | .ctl c => s.ctlGet c
  | .arr a => BitVec.ofNat 32 (leValue ((List.range n).map fun j => s.arrayGet a (addr - r.base + j)))

/-- The effect of an admitted write of `n` bytes in a row of the address map (R54, R56). -/
def State.rowSet (s : State) (r : Region) (addr n : Nat) (v : Word) : State :=
  match r.target with
  | .ctl c => s.ctlSet c v
  | .arr a => s.arraySet a (addr - r.base) (leBytes n v.toNat)

/-- A refused access: the answer `err`, `ACCERR <- 1`, nothing else (R58). -/
def State.refuse (s : State) : State := s.setAccErr.answer .err

/-- `MemRead` and `MemWrite` (R13, R52 to R58): not well-formed or blocked, refused; otherwise performed in one step. -/
def State.hostAccess (op : HostOp) (s : State) : State :=
  if accessWellFormed s.params op && s.admits op then
    match regionAt s.params op.addr.toNat op.size with
    | none => s.refuse
    | some r =>
      match op with
      | .read a n => s.answer (.data (s.rowGet r a.toNat n))
      | .write a n v => (s.rowSet r a.toNat n v).answer .ok
  else s.refuse

end Sys2Proof.Machine
end

