-- ==== Sys2Proof/Machine/Sequencer.lean ====
section
/-! DEFINITION. The core sequencer (60_exceptions.md rule R239) and whose turn it is: the environment's next move where
one is listed, the sequencer's otherwise (00_scope.md rule R3, 20_memory.md rule R63, 70_reset_and_hazards.md rule
R268). -/

namespace Sys2Proof.Machine

/-- The completion step of a command word: the command it selects, or `IllegalCommand` (R237, R239). -/
def completionStep (w : Word) (s : State) : Host.Outcome State Fault Refusal :=
  match decode w with
  | .ok i => exec i s
  | .error _ => .next (s.fail .illegalCommand)

/-- The sequencer's turn: the completion step, enabled exactly when `PHASE = BUSY(w)` (R239); in `IDLE` the DCC waits
for the first command word (R35, R260): DEDUCED, safe, log entry 9. -/
def coreTurn (s : State) : Host.Outcome State Fault Refusal :=
  match s.phase with
  | .busy w => completionStep w s
  | .idle => .next s

/-- The environment's next move is taken off the list. -/
def State.popInput (s : State) : State := { s with inputs := s.inputs.tail }

/-- One step of the whole: a host access, the reset event, or the sequencer's turn; each atomic, in the order listed
(R61, R63, R260). With no move listed the sequencer has the turn, so a pending command always completes (R268).
DESIGN CHOICE: log entries 2 and 13. -/
def nextStep (s : State) : Host.Outcome State Fault Refusal :=
  match s.inputs with
  | .access op :: _ => .next (s.popInput.hostAccess op)
  | .reset :: _ => .next s.popInput.resetEvent
  | .core :: _ => coreTurn s.popInput
  | [] => coreTurn s

/-- The state with a command word pending and the sequencer to move: `PHASE` is where the DCC takes its command from
(R30, R66). -/
def State.withPending (s : State) (w : Word) : State := { s with phase := .busy w, inputs := .core :: s.inputs }

end Sys2Proof.Machine
end

