-- ==== Sys2Proof/Machine/Step.lean ====
section
/-! DEFINITION. The step function and the place a command word is taken from. -/

namespace Sys2Proof.Machine

/-- One step of the machine: host, sequencer or reset (00_scope.md rule R3). -/
def step (s : State) : Host.Outcome State Fault Refusal := nextStep s

/-- `s` with the command word given by the `nbits` bits of `w` pending in `PHASE` and the sequencer to move first
(10_state.md rule R30); nothing else changes. DEDUCED, safe: log entry 5. -/
def State.withFetchWord (s : State) (nbits w : Nat) : State := s.withPending (le32 (wordBytes nbits w))

end Sys2Proof.Machine
end

