-- ==== Sys2Proof/Machine/Framing.lean ====
section
/-! DEFINITION. The codecs of the source's text framings (45_clear_and_host_framing.md rules R212, R213, R217): Base64 and
UTF-8. They are host software, not hardware, and no step uses them. -/

namespace Sys2Proof.Machine

/-! ## Base64 (R212, R213) -/

/-- `ALPHABET[n]` for `n` from 0 to 63 (R212). -/
def base64Char (n : Nat) : Char :=
  if n < 26 then Char.ofNat (65 + n)
  else if n < 52 then Char.ofNat (97 + (n - 26))
  else if n < 62 then Char.ofNat (48 + (n - 52))
  else if n = 62 then '+' else '/'

/-- `Base64Encode(b)`: groups of three bytes, then one or two left over with `=` (R212). -/
def base64Encode : Bytes → List Char
  | [] => []
  | [x] =>
    let n := 65536 * x.toNat
    [base64Char (n / 2 ^ 18 % 64), base64Char (n / 2 ^ 12 % 64), '=', '=']
  | [x, y] =>
    let n := 65536 * x.toNat + 256 * y.toNat
    [base64Char (n / 2 ^ 18 % 64), base64Char (n / 2 ^ 12 % 64), base64Char (n / 2 ^ 6 % 64), '=']
  | x :: y :: z :: rest =>
    let n := 65536 * x.toNat + 256 * y.toNat + z.toNat
    base64Char (n / 2 ^ 18 % 64) :: base64Char (n / 2 ^ 12 % 64) :: base64Char (n / 2 ^ 6 % 64) ::
      base64Char (n % 64) :: base64Encode rest

/-- The index of a character in `ALPHABET`, if it is there (R212). -/
def base64Index (c : Char) : Option Nat := (List.range 64).find? fun n => base64Char n == c

/-- The bytes of one group of four characters; the last group may hold `=`. -/
def base64Group (a b c d : Char) : Option Bytes := do
  let i ← base64Index a
  let j ← base64Index b
  if c == '=' && d == '=' then
    return [BitVec.ofNat 8 ((i * 64 + j) / 16)]
  else
    let k ← base64Index c
    if d == '=' then
      return [BitVec.ofNat 8 ((i * 64 + j) / 16), BitVec.ofNat 8 ((i * 4096 + j * 64 + k) / 4)]
    else
      let l ← base64Index d
      let n := i * 262144 + j * 4096 + k * 64 + l
      return [BitVec.ofNat 8 (n / 65536), BitVec.ofNat 8 (n / 256), BitVec.ofNat 8 n]

/-- The bytes of a text of whole groups. -/
def base64Groups : List Char → Option Bytes
  | [] => some []
  | a :: b :: c :: d :: rest => do
    let x ← base64Group a b c d
    let xs ← base64Groups rest
    return x ++ xs
  | _ => none

/-- `Base64Decode(t)`: the inverse of `Base64Encode` on the texts it can produce; every other text is refused (R213). -/
def base64Decode (t : List Char) : Option Bytes :=
  match base64Groups t with
  | none => none
  | some b => if base64Encode b = t then some b else none

/-! ## UTF-8 (R215, R217) -/

/-- The UTF-8 bytes of one code point. -/
def utf8Char (c : Char) : Bytes :=
  let n := c.toNat
  if n < 0x80 then [BitVec.ofNat 8 n]
  else if n < 0x800 then [BitVec.ofNat 8 (0xC0 + n / 64), BitVec.ofNat 8 (0x80 + n % 64)]
  else if n < 0x10000 then
    [BitVec.ofNat 8 (0xE0 + n / 4096), BitVec.ofNat 8 (0x80 + n / 64 % 64), BitVec.ofNat 8 (0x80 + n % 64)]
  else
    [BitVec.ofNat 8 (0xF0 + n / 262144), BitVec.ofNat 8 (0x80 + n / 4096 % 64),
     BitVec.ofNat 8 (0x80 + n / 64 % 64), BitVec.ofNat 8 (0x80 + n % 64)]

/-- `Utf8(text)`: no terminator, no byte-order mark, no normalisation (R217). PRESUMED, the encoding itself being named
and not spelled out by the spec: log entry 16. -/
def utf8 (text : List Char) : Bytes := text.flatMap utf8Char

/-- The candidate code points of a byte string, by leading byte; whether they are the right ones is checked by encoding
them again. -/
def utf8Points : Nat → Bytes → List Char
  | 0, _ => []
  | _, [] => []
  | k + 1, b :: rest =>
    let x := b.toNat
    let y := (rest.getD 0 0).toNat % 64
    let z := (rest.getD 1 0).toNat % 64
    let w := (rest.getD 2 0).toNat % 64
    if x < 0x80 then Char.ofNat x :: utf8Points k rest
    else if x < 0xE0 then Char.ofNat (x % 32 * 64 + y) :: utf8Points k (rest.drop 1)
    else if x < 0xF0 then Char.ofNat (x % 16 * 4096 + y * 64 + z) :: utf8Points k (rest.drop 2)
    else Char.ofNat (x % 8 * 262144 + y * 4096 + z * 64 + w) :: utf8Points k (rest.drop 3)

/-- `Utf8Inverse(b)`: the text that encodes to `b`; other bytes are refused (R215). -/
def utf8Inverse (b : Bytes) : Option (List Char) :=
  let t := utf8Points b.length b
  if utf8 t = b then some t else none

end Sys2Proof.Machine
end

