-- ==== Sys2Proof/Machine/HostScript.lean ====
section
/-! DEFINITION. Host scripts (30_encoding.md rules R85, R86): the operation records, the pseudo-operations with their
results, and a script's run; and a command run with its inputs loaded and its result taken
(45_clear_and_host_framing.md rule R214). They are the host's side of the port: a step knows nothing of them. -/

namespace Sys2Proof.Machine

/-! ## Operation records (R85) -/

/-- The address a register or array name stands for (R85, 20_memory.md rule R51). -/
def targetAddr : Target → BitVec 18
  | .ctl .cmd => 0x00000
  | .ctl .status => 0x00004
  | .ctl .ctrl => 0x00008
  | .ctl .pwLen => 0x0000C
  | .ctl .inLen => 0x00010
  | .ctl .outLen => 0x00014
  | .arr .key => 0x00020
  | .arr .iv => 0x00030
  | .arr .salt => 0x00040
  | .arr .pw => 0x01000
  | .arr .inp => 0x10000
  | .arr .out => 0x20000

/-- `name+k` (R85). The spec says nothing of a sum past `0x3FFFF`; here it wraps modulo 2^18. DESIGN CHOICE, unsafe: log
entry 19. -/
def targetPlus (t : Target) (k : Nat) : BitVec 18 := targetAddr t + BitVec.ofNat 18 k

/-- `WR8 a, v` (R85). -/
def wr8 (a : BitVec 18) (v : Byte) : HostOp := .write a 1 (v.setWidth 32)

/-- `WR16 a, v` (R85). -/
def wr16 (a : BitVec 18) (v : BitVec 16) : HostOp := .write a 2 (v.setWidth 32)

/-- `WR32 a, v` (R85). -/
def wr32 (a : BitVec 18) (v : Word) : HostOp := .write a 4 v

/-- `RD8 a` (R85). -/
def rd8 (a : BitVec 18) : HostOp := .read a 1

/-- `RD16 a` (R85). -/
def rd16 (a : BitVec 18) : HostOp := .read a 2

/-- `RD32 a` (R85). -/
def rd32 (a : BitVec 18) : HostOp := .read a 4

/-! ## Pseudo-operations that are fixed lists of records (R86) -/

/-- `WRB a, b0 b1 …`: one `WR8` a byte at rising addresses; no operation for no byte (R86). The spec says nothing of
addresses past `0x3FFFF`; here they go on from 0. DESIGN CHOICE, unsafe: log entry 19. -/
def wrb (a : BitVec 18) : Bytes → List HostOp
  | [] => []
  | b :: bs => wr8 a b :: wrb (a + 1) bs

/-- The records of `RDB a, n`: one `RD8` a byte at rising addresses (R86); its result is `rdbRun`'s. Addresses past
`0x3FFFF` go on from 0. DESIGN CHOICE, unsafe: log entry 19. -/
def rdb (a : BitVec 18) : Nat → List HostOp
  | 0 => []
  | n + 1 => rd8 a :: rdb (a + 1) n

/-- The pseudo-operation of a command's own name: `WR32 CMD, word` (R86). -/
def issue (i : Instr) : HostOp := wr32 (targetAddr (.ctl .cmd)) (encode i)

/-- The record that `POLL` repeats: `RD32 STATUS` (R86). -/
def statusRead : HostOp := rd32 (targetAddr (.ctl .status))

/-- `ACK`: clears `DONE` and `ERR` (R86). -/
def ack : HostOp := wr32 (targetAddr (.ctl .status)) 0x00000002

/-- `ACKERR`: clears `ACCERR` (R86). -/
def ackErr : HostOp := wr32 (targetAddr (.ctl .status)) 0x00000004

/-- The moves of a `POLL` of a pending command in the run where `busyReads` of its reads see `BUSY = 1` (any number is
possible, 70_reset_and_hazards.md rule R268), then the completion step falls, then the last read sees `BUSY = 0`. The
pseudo-operation itself, on any state, is `pollRun`. -/
def pollMoves (busyReads : Nat) : List Input :=
  List.replicate busyReads (.access statusRead) ++ [.core, .access statusRead]

/-! ## Running a script

A script runs by steps. The only freedom is where a completion step falls: a schedule says, for each read of a `POLL`,
whether the sequencer has a turn before it. Outside a `POLL` a script gives the sequencer no turn. DESIGN CHOICE: log
entry 20. -/

/-- One move of the environment: it is listed first, and one step is made. `none` would be a step that stops; no step
does. -/
def State.move (m : Input) (s : State) : Option State :=
  match step { s with inputs := m :: s.inputs } with
  | .next t => some t
  | .fault _ => none
  | .refused _ => none

/-- The records in order, whatever each answers (R85). -/
def runRecords : List HostOp → State → Option State
  | [], s => some s
  | op :: ops, s => (s.move (.access op)).bind (runRecords ops)

/-- One read record and the value it yields; `none` where it yields `err`, which is no value (R85; log entry 20). -/
def readValue (op : HostOp) (s : State) : Option (Word × State) :=
  (s.move (.access op)).bind fun t =>
    match t.answers with
    | .data v :: _ => some (v, t)
    | _ => none

/-- `RDB a, n`: the byte string of the `n` values (R86). -/
def rdbRun : BitVec 18 → Nat → State → Option (Bytes × State)
  | _, 0, s => some ([], s)
  | a, n + 1, s =>
    (readValue (rd8 a) s).bind fun r =>
      (rdbRun (a + 1) n r.2).map fun q => (r.1.setWidth 8 :: q.1, q.2)

/-- `POLL`: `RD32 STATUS` until the value read has `BUSY = 0`; the result is that last value (R86). The schedule is its
fuel: one entry a read, `true` where the sequencer has a turn before that read; `none` when it runs out. -/
def pollRun : List Bool → State → Option (Word × State)
  | [], _ => none
  | turn :: turns, s =>
    (if turn then s.move .core else some s).bind fun t =>
      (readValue statusRead t).bind fun r =>
        if r.1.getLsbD 0 then pollRun turns r.2 else some r

/-- A script (R85): its records and `POLL`s in order, with one schedule for each `POLL`; the state when its last operation
has returned. A command may still be pending there: the end of the run is `endOfRun`. -/
def runScript : List ScriptLine → List (List Bool) → State → Option State
  | [], _, s => some s
  | .record op :: ls, ts, s => (s.move (.access op)).bind (runScript ls ts)
  | .poll :: ls, t :: ts, s => (pollRun t s).bind fun r => runScript ls ts r.2
  | .poll :: _, [], _ => none

/-- The end of a script's run: the state after its last operation has returned, with `PHASE = IDLE` (00_scope.md rule R16
(8)). Where the last command is still pending then, the run ends with its completion step, which R268 says comes; where
none is, the sequencer's turn changes nothing. DEDUCED, safe: log entry 20. -/
def endOfRun (ls : List ScriptLine) (ts : List (List Bool)) (s : State) : Option State :=
  (runScript ls ts s).bind fun t => t.move .core

/-! ## Loading a command's inputs and taking its result (R214)

Bytes beyond the largest window that any DCC has (20_memory.md rule R51: `PW` to `0x01FFF`, `IN` to `0x1FFFF`) have no
address in their buffer, and the host issues no record for them; bytes beyond this DCC's own capacity are refused by the
port. The spec does not say how the host loads bytes that do not fit. DESIGN CHOICE: log entry 19. -/

/-- The word that tells the DCC a count of bytes: the count itself, or the greatest word for a count that no word holds, so
that an input that does not fit is never taken for a shorter one and fails with `LengthError` (R216; log entry 19). -/
def lengthWord (n : Nat) : Word := BitVec.ofNat 32 (min n (2 ^ 32 - 1))

/-- The host's loading of a password, `PW` and `PWLEN` (R214, 70_reset_and_hazards.md rule R267). -/
def loadPassword (p : Bytes) : List HostOp :=
  wrb (targetAddr (.arr .pw)) (p.take 4096) ++ [wr32 (targetAddr (.ctl .pwLen)) (lengthWord p.length)]

/-- The host's loading of a data input, `IN` and `INLEN` (R214, 70_reset_and_hazards.md rule R267). -/
def loadData (d : Bytes) : List HostOp :=
  wrb (targetAddr (.arr .inp)) (d.take 65536) ++ [wr32 (targetAddr (.ctl .inLen)) (lengthWord d.length)]

/-- What the host takes from a completed command: on `STATUS.ERR = 0`, as `POLL` read it, the bytes `OUT[0..OUTLEN)`,
otherwise the code (R214, 60_exceptions.md rule R245). -/
def takeResult (status : Word) (s : State) : Option (Except (BitVec 4) Bytes × State) :=
  if status.extractLsb' 4 4 = 0 then
    (readValue (rd32 (targetAddr (.ctl .outLen))) s).bind fun r =>
      (rdbRun (targetAddr (.arr .out)) r.1.toNat r.2).map fun q => (.ok q.1, q.2)
  else some (.error (status.extractLsb' 4 4), s)

/-- Load password bytes and input, issue a command, poll, take the result (R214). It ends there: `PW`, `PWLEN`, `IN` and
`INLEN` stay loaded. A careful host then removes the password, by `CLEAR` or by overwriting `PW` (R214, R267 (b)); whether
and how is left open. DESIGN CHOICE, unsafe: log entry 21. -/
def byteOperation (i : Instr) (input password : Bytes) (turns : List Bool) (s : State) :
    Option (Except (BitVec 4) Bytes × State) :=
  (runRecords (loadPassword password ++ loadData input ++ [issue i]) s).bind fun t =>
    (pollRun turns t).bind fun r => takeResult r.1 r.2

end Sys2Proof.Machine
end

