-- ==== Sys2Proof/Safety.lean ====
section
/-! DEFINITION. What counts as a safe run of the DCC, in the terms the statements use: the invariant of reachable states
(10_state.md rule R34), a host that keeps to the port protocol (20_memory.md rule R58), and whose
turn it is (60_exceptions.md rule R239). -/

namespace Sys2Proof.Machine

/-- It is the sequencer's turn: no move of the environment is listed, or the next one leaves the turn. -/
def State.coreNext (s : State) : Prop := s.inputs = [] ∨ ∃ rest, s.inputs = .core :: rest

/-- The codes a completion can leave in `STATUS.ERR` (60_exceptions.md rule R230): 3 and 6 to 15 are never produced. -/
def producedCode (e : BitVec 4) : Bool := e == 0 || e == 1 || e == 2 || e == 4 || e == 5

/-- The lengths `OUTLEN` takes (R34 (d)): 0, a positive multiple of 16, 16 plus one, or anything below `BUF_MAX`. -/
def outLenShape (bufMax n : Nat) : Prop :=
  n = 0 ∨ (0 < n ∧ n % 16 = 0) ∨ (16 < n ∧ (n - 16) % 16 = 0) ∨ n ≤ bufMax - 1

/-- What every reachable state satisfies: the buffers in canonical form and within their capacities (R25 to R27), R34 (a)
to (d), only produced codes in `ERR` (R230), and no completion reported while a command is pending (R81). -/
structure Inv (s : State) : Prop where
  pw_wf : s.pw.wf = true
  inp_wf : s.inp.wf = true
  out_wf : s.out.wf = true
  pw_within : s.pw.within s.params.pwMax = true
  inp_within : s.inp.within s.params.bufMax = true
  out_zero : ∀ i, s.outLen.toNat ≤ i → s.out.get i = 0
  outLen_le : s.outLen.toNat ≤ s.params.bufMax
  err_done : s.err ≠ 0 → s.done = true ∧ s.outLen = 0
  outLen_shape : outLenShape s.params.bufMax s.outLen.toNat
  err_produced : producedCode s.err = true
  busy_clear : s.isBusy = true → s.done = false ∧ s.err = 0

/-- The host has kept to the port protocol since `ACCERR` was last cleared (R58). -/
def State.portClean (s : State) : Prop := s.accErr = false

/-- No data-bearing register or buffer holds a byte other than `00`, and no length is set: nothing of an earlier user is
readable (R210, R267). -/
def State.noResidue (s : State) : Prop :=
  s.key = blockOf [] ∧ s.iv = blockOf [] ∧ s.salt = arrayOf 8 [] ∧ s.pw = Memory.zeros ∧ s.inp = Memory.zeros ∧
    s.out = Memory.zeros ∧ s.pwLen = 0 ∧ s.inLen = 0 ∧ s.outLen = 0

end Sys2Proof.Machine
end

