-- ==== Sys2Proof/WellFormed.lean ====
section
/-! DEFINITION. What is well-formed: parameters (00_scope.md rules R7, R8), commands (30_encoding.md rule R80), host
operations (20_memory.md rule R52). -/

namespace Sys2Proof

/-- The legal capacities of R7, on plain numbers. -/
def Params.legal (pwMax bufMax : Nat) : Bool :=
  decide (pwMax ≤ 4096) && decide (32 ≤ bufMax) && decide (bufMax ≤ 65536) && bufMax % 16 == 0

/-- The parameters with the given capacities, where R7 allows them. -/
def Params.make? (pwMax bufMax : Nat) (strictHeader : Bool) (emptyCt : EmptyCt) : Option Params :=
  if h : pwMax ≤ 4096 ∧ bufMax / 16 - 2 < 4095 then
    if Params.legal pwMax bufMax then
      some { pwCap := ⟨pwMax, by omega⟩, bufBlocks := ⟨bufMax / 16 - 2, h.2⟩,
             strictHeader := strictHeader, emptyCt := emptyCt }
    else none
  else none

/-- Every command is well-formed: a command word has no register field, no immediate, no mode bit and no operand
specifier that could be out of range (R80). -/
def Instr.wf (_ : Instr) : Bool := true

/-- A host operation is well-formed when the four conditions of R52 hold. -/
def HostOp.wf (p : Params) (op : HostOp) : Bool := Machine.accessWellFormed p op

end Sys2Proof
end

