-- ==== Sys2Proof/Certificates/Slice0/Obligations.lean ====
section
/-! DEFINITION. The statements for the provers. Each says which rule of the spec it formalises; one that rests on a choice
of the model's says so and names the log entry. -/

open Sys2Proof Sys2Proof.Machine

/-! ## Commands as words -/

/-- 30_encoding.md R82: a word selects a command exactly when its reserved bits are zero and its low byte is the command's
`OP`, that is, when it equals the command's word; and the bytes of a command's word decode to the command. -/
def Obligations.DecodeSelectsExactlyTheCommandWord : Prop :=
  (∀ (i : Instr) (w : Word), decode w = .ok i ↔ w = encode i) ∧
  (∀ (i : Instr) (w : Word), decode w = .ok i ↔ w.extractLsb' 8 24 = 0 ∧ w.extractLsb' 0 8 = opcode i) ∧
  (∀ (i : Instr) (rest : Bytes), i.wf = true → decodeBytes (encodeBytes i ++ rest) = .ok (i, rest)) ∧
  encode .deriveCmd = 0x00000001 ∧ encode .encryptCmd = 0x00000002 ∧ encode .decryptCmd = 0x00000003 ∧
  encode .sealCmd = 0x00000004 ∧ encode .openCmd = 0x00000005 ∧ encode .clearCmd = 0x00000006

/-- 30_encoding.md R84: `Decode` is total on 32-bit words; each word below 7 and above 0 is its command, every other word
is illegal, a set reserved bit before an unassigned `OP`. (R84 is marked by the spec as its own inference, "derived: from
rules R80, R82, R83".) -/
def Obligations.DecodeIsTotalOnWords : Prop :=
  ∀ w : Word, decode w =
    if w.toNat = 1 then .ok .deriveCmd else if w.toNat = 2 then .ok .encryptCmd
    else if w.toNat = 3 then .ok .decryptCmd else if w.toNat = 4 then .ok .sealCmd
    else if w.toNat = 5 then .ok .openCmd else if w.toNat = 6 then .ok .clearCmd
    else if 256 ≤ w.toNat then .error .reservedBits else .error .unassignedOp

/-- Sanity: the six words of the opcode table and the three illegal examples of R84, through the decoder of bytes. -/
def Obligations.TableWordsDecode : Prop :=
  decodeTableWord 32 0x00000001 = some .deriveCmd ∧ decodeTableWord 32 0x00000002 = some .encryptCmd ∧
  decodeTableWord 32 0x00000003 = some .decryptCmd ∧ decodeTableWord 32 0x00000004 = some .sealCmd ∧
  decodeTableWord 32 0x00000005 = some .openCmd ∧ decodeTableWord 32 0x00000006 = some .clearCmd ∧
  decodeTableWord 32 0x00000000 = none ∧ decodeTableWord 32 0x00000104 = none ∧ decodeTableWord 32 0x00000007 = none

/-! ## Steps -/

/-- A step runs the decoded command (60_exceptions.md R239): with a word pending and the sequencer to move, the step is
the command's meaning at the state whose own move is taken off the list of inputs (the list is the model's: log entry 2). -/
def Obligations.StepRunsTheDecodedCommand : Prop :=
  ∀ (s : State) (w : Word) (i : Instr), s.phase = .busy w → decode w = .ok i → i.wf = true →
    (s.inputs = [] ∨ ∃ rest, s.inputs = .core :: rest) →
    step s = exec i { s with inputs := s.inputs.tail }

/-- 60_exceptions.md R237: an illegal word reads nothing and completes as R236 says, with code 4. (Whose turn it is stands in
the model's list of moves: log entry 2.) -/
def Obligations.IllegalWordCompletesWithIllegalCommand : Prop :=
  ∀ (s : State) (w : Word), s.phase = .busy w → (∀ i, w ≠ encode i) → s.coreNext →
    step s = .next { s with
      inputs := s.inputs.tail, out := ⟨[]⟩, outLen := 0, err := 4, done := true, phase := .idle }

/-- 60_exceptions.md R239 with R235, R236: a pending word of any value completes in one step, ending idle with `DONE` set;
an idle DCC waits. -/
def Obligations.EveryPendingWordCompletesInOneStep : Prop :=
  (∀ (s : State) (w : Word), s.phase = .busy w → s.coreNext →
    ∃ t, step s = .next t ∧ t.phase = .idle ∧ t.done = true ∧ t.inputs = s.inputs.tail) ∧
  (∀ s : State, s.phase = .idle → s.coreNext → step s = .next { s with inputs := s.inputs.tail })

/-- 93_implementation_defined.md, part 1: no behaviour is undefined; every state has a next state, whoever moves, and a step takes
one move off the environment's list and leaves the parameters of the instance alone (00_scope.md R7, R8). -/
def Obligations.EveryStateHasANextState : Prop :=
  ∀ s : State, ∃ t, step s = .next t ∧ t.inputs = s.inputs.tail ∧ t.params = s.params

/-- 70_reset_and_hazards.md R268: unless the environment resets the DCC (R261), a pending command completes after finitely
many steps, at most one more than the moves listed, and the state is then that of its completion step, from the state in
which only host accesses have left their answers and `ACCERR`. (The finite list of moves and the record of answers are the
model's: log entries 2 and 4.) -/
def Obligations.PendingCommandCompletesWithinTheInputs : Prop :=
  ∀ (s : State) (w : Word), s.phase = .busy w → Input.reset ∉ s.inputs →
    ∃ k ≤ s.inputs.length + 1, ∃ (a : List Answer) (e : Bool) (t : State),
      Sys2Proof.core.run k s = .next t ∧ t.phase = .idle ∧ t.done = true ∧ (s.accErr = true → e = true) ∧
      completionStep w { s with inputs := s.inputs.drop k, answers := a, accErr := e } = .next t

/-- 30_encoding.md R86: `POLL` reads `BUSY = 1` any number of times while the command is pending, and returns the first
value with `BUSY = 0`, which is the status after the completion step; on an idle DCC it reads once. It ends under every
schedule that gives the sequencer a turn, and under no other. (R86 is marked by the spec as its own inference; the list of
moves and the schedule are the model's: log entries 2 and 20.) -/
def Obligations.PollReturnsTheCompletedStatus : Prop :=
  (∀ (s : State) (w : Word) (n : Nat), s.phase = .busy w → s.inputs = pollMoves n →
    ∃ t, Sys2Proof.core.run (n + 2) s = .next t ∧ t.inputs = [] ∧ t.phase = .idle ∧ t.done = true ∧
      t.answers = .data t.statusWord :: (List.replicate n (.data s.statusWord) ++ s.answers) ∧
      t.statusWord.getLsbD 0 = false ∧ s.statusWord.getLsbD 0 = true) ∧
  (∀ (s : State) (w : Word) (turns : List Bool), s.phase = .busy w → true ∈ turns →
    ∃ t, pollRun turns s = some (t.statusWord, t) ∧ t.phase = .idle ∧ t.done = true ∧ t.inputs = s.inputs ∧
      t.statusWord.getLsbD 0 = false) ∧
  (∀ (s : State) (w : Word) (turns : List Bool), s.phase = .busy w → true ∉ turns → pollRun turns s = none) ∧
  (∀ (s : State) (turn : Bool) (turns : List Bool), s.phase = .idle →
    pollRun (turn :: turns) s = some (s.statusWord, { s with answers := .data s.statusWord :: s.answers }))

/-! ## Commands: what each does -/

/-- 41_kdf.md R120, R123: with a password that fits, DERIVE completes; `KEY` is the digest of password then salt, `IV` the
digest of key, password, salt; no data output; everything else is unchanged. With a longer one it fails with `LengthError`,
`KEY` and `IV` unchanged. -/
def Obligations.DeriveWritesKeyAndIv : Prop :=
  (∀ (p : Bytes) (x : Salt),
    deriveKeyIv p x = (md5 (p ++ x.toList), md5 ((md5 (p ++ x.toList)).toList ++ p ++ x.toList))) ∧
  ∀ s : State,
    let p := (List.range s.pwLen.toNat).map s.pw.get
    let k := md5 (p ++ s.salt.toList)
    (s.pwLen.toNat ≤ s.params.pwMax → exec .deriveCmd s = .next { s with
      key := k, iv := md5 (k.toList ++ p ++ s.salt.toList),
      out := ⟨[]⟩, outLen := 0, err := 0, done := true, phase := .idle }) ∧
    (s.params.pwMax < s.pwLen.toNat → exec .deriveCmd s = .next { s with
      out := ⟨[]⟩, outLen := 0, err := 5, done := true, phase := .idle })

/-- 43_cbc_pkcs7.md R172: with an input below `BUF_MAX`, ENCRYPT completes; `OUT` is the CBC encryption of the padded input
under `KEY` and `IV`, `OUTLEN` its padded length; everything else, `IV` too, is unchanged. A longer input fails with
`LengthError`. -/
def Obligations.EncryptWritesCiphertext : Prop :=
  ∀ s : State,
    let m := (List.range s.inLen.toNat).map s.inp.get
    (s.inLen.toNat < s.params.bufMax → exec .encryptCmd s = .next { s with
      out := Memory.ofBytes (cbcEncrypt s.key s.iv (pad m)), outLen := BitVec.ofNat 32 (padLen s.inLen.toNat),
      err := 0, done := true, phase := .idle }) ∧
    (s.params.bufMax ≤ s.inLen.toNat → exec .encryptCmd s = .next { s with
      out := ⟨[]⟩, outLen := 0, err := 5, done := true, phase := .idle })

/-- 43_cbc_pkcs7.md R171, R173: `Decrypt` gives the unpadded CBC decryption of a non-empty whole number of blocks, or, under
`EMPTY_CT = empty`, nothing for nothing; it fails otherwise, with `PaddingError`. With an input that fits and decrypts to
`r`, DECRYPT completes with `r` in `OUT`, 1 to 16 bytes shorter than the input or empty like it; everything else is
unchanged. An input that decrypts to nothing fails with `PaddingError`, one that does not fit with `LengthError`. -/
def Obligations.DecryptWritesPlaintext : Prop :=
  (∀ (em : EmptyCt) (c r : Bytes) (k v : Block), decrypt em c k v = .ok r ↔
    (c ≠ [] ∧ c.length % 16 = 0 ∧ unpad (cbcDecryptRaw k v c) = some r) ∨ (c = [] ∧ em = .empty ∧ r = [])) ∧
  (∀ (em : EmptyCt) (c : Bytes) (k v : Block) (e : ErrKind), decrypt em c k v = .error e → e = .paddingError) ∧
  ∀ s : State,
    let result := decrypt s.params.emptyCt ((List.range s.inLen.toNat).map s.inp.get) s.key s.iv
    (∀ r : Bytes, s.inLen.toNat ≤ s.params.bufMax → result = .ok r →
      exec .decryptCmd s = .next { s with
        out := Memory.ofBytes r, outLen := BitVec.ofNat 32 r.length, err := 0, done := true, phase := .idle } ∧
      ((s.inLen.toNat ≤ r.length + 16 ∧ r.length + 1 ≤ s.inLen.toNat) ∨
        (s.inLen = 0 ∧ r = [] ∧ s.params.emptyCt = .empty))) ∧
    (∀ e : ErrKind, s.inLen.toNat ≤ s.params.bufMax → result = .error e →
      exec .decryptCmd s = .next { s with out := ⟨[]⟩, outLen := 0, err := 1, done := true, phase := .idle }) ∧
    (s.params.bufMax < s.inLen.toNat →
      exec .decryptCmd s = .next { s with out := ⟨[]⟩, outLen := 0, err := 5, done := true, phase := .idle })

/-- 44_container.md R193: with operands that fit, SEAL completes for every draw `d` of the entropy source; `OUT` is header,
salt, ciphertext; the draw is taken; `KEY`, `IV`, `SALT` and everything else are unchanged. With operands that do not fit it
fails with `LengthError` and no draw is taken. The place a draw stands in (`entropy`, `draws`, `Config.draw8`) is the
model's: log entry 3. -/
def Obligations.SealWritesContainer : Prop :=
  ∀ (s : State) (d : Salt), s.nextDraw = d →
    let m := (List.range s.inLen.toNat).map s.inp.get
    let p := (List.range s.pwLen.toNat).map s.pw.get
    let k := md5 (p ++ d.toList)
    let v := md5 (k.toList ++ p ++ d.toList)
    (s.pwLen.toNat ≤ s.params.pwMax → s.inLen.toNat + 16 < s.params.bufMax → exec .sealCmd s = .next { s with
      entropy := s.entropy.tail, draws := s.draws + 1,
      out := Memory.ofBytes ([0x53, 0x61, 0x6C, 0x74, 0x65, 0x64, 0x5F, 0x5F] ++ d.toList ++ cbcEncrypt k v (pad m)),
      outLen := BitVec.ofNat 32 (16 + padLen s.inLen.toNat), err := 0, done := true, phase := .idle }) ∧
    (s.params.pwMax < s.pwLen.toNat ∨ s.params.bufMax ≤ s.inLen.toNat + 16 → exec .sealCmd s = .next { s with
      out := ⟨[]⟩, outLen := 0, err := 5, done := true, phase := .idle })

/-- 44_container.md R194, R195: `Open` fails on fewer than 16 bytes and, under `STRICT_HEADER`, on another header; past the two
checks it is `Decrypt` of the bytes from 16 on under the key and IV derived from the password and bytes 8 to 15, whatever
the first 8 are. With operands that fit and a container that opens to `r`, OPEN completes with `r` in `OUT`, 17 to 32 bytes
shorter than the container or empty with it; `KEY`, `IV`, `SALT` and everything else are unchanged, and no draw is taken. A
container that does not open fails with the code of its kind, operands that do not fit with `LengthError`. -/
def Obligations.OpenWritesPlaintext : Prop :=
  (∀ (params : Params) (c p : Bytes),
    let x : Salt := arrayOf 8 ((c.drop 8).take 8)
    let k := md5 (p ++ x.toList)
    openBytes params c p =
      if c.length < 16 then .error .malformedContainer
      else if params.strictHeader = true ∧ c.take 8 ≠ [0x53, 0x61, 0x6C, 0x74, 0x65, 0x64, 0x5F, 0x5F] then
        .error .malformedContainer
      else decrypt params.emptyCt (c.drop 16) k (md5 (k.toList ++ p ++ x.toList))) ∧
  ∀ s : State,
    let result :=
      openBytes s.params ((List.range s.inLen.toNat).map s.inp.get) ((List.range s.pwLen.toNat).map s.pw.get)
    let fits := s.pwLen.toNat ≤ s.params.pwMax ∧ s.inLen.toNat ≤ s.params.bufMax
    (∀ r : Bytes, fits → result = .ok r →
      exec .openCmd s = .next { s with
        out := Memory.ofBytes r, outLen := BitVec.ofNat 32 r.length, err := 0, done := true, phase := .idle } ∧
      ((s.inLen.toNat ≤ r.length + 32 ∧ r.length + 17 ≤ s.inLen.toNat) ∨
        (s.inLen.toNat = 16 ∧ r = [] ∧ s.params.emptyCt = .empty))) ∧
    (∀ e : ErrKind, fits → result = .error e →
      (e = .malformedContainer ∨ e = .paddingError) ∧
      exec .openCmd s = .next { s with
        out := ⟨[]⟩, outLen := 0, err := if e = .malformedContainer then 2 else 1, done := true, phase := .idle }) ∧
    (¬ fits → exec .openCmd s = .next { s with out := ⟨[]⟩, outLen := 0, err := 5, done := true, phase := .idle })

/-- 45_clear_and_host_framing.md R210: CLEAR always succeeds, and its state is the reset state but for `DONE`, `CTRL.IE`
and `ACCERR` (and the model's own fields). -/
def Obligations.ClearLeavesTheResetData : Prop :=
  encode .clearCmd = 0x00000006 ∧
  ∀ s : State, exec .clearCmd s = .next { State.reset with
    done := true, ie := s.ie, accErr := s.accErr,
    params := s.params, inputs := s.inputs, answers := s.answers, entropy := s.entropy, draws := s.draws }

/-! ## Typed failures -/

/-- 60_exceptions.md R231: `LengthError`, code 5, exactly on the conditions of the table, for each command and for illegal words, with the
effect of a failed completion. -/
def Obligations.LengthErrorExactlyWhenItDoesNotFit : Prop :=
  ∀ s : State,
    let failed : Host.Outcome State Fault Refusal :=
      .next { s with out := ⟨[]⟩, outLen := 0, err := 5, done := true, phase := .idle }
    let reports5 := fun o : Host.Outcome State Fault Refusal => ∃ t, o = .next t ∧ t.err = 5
    (if s.params.pwMax < s.pwLen.toNat then exec .deriveCmd s = failed else ¬ reports5 (exec .deriveCmd s)) ∧
    (if s.params.bufMax ≤ s.inLen.toNat then exec .encryptCmd s = failed else ¬ reports5 (exec .encryptCmd s)) ∧
    (if s.params.bufMax < s.inLen.toNat then exec .decryptCmd s = failed else ¬ reports5 (exec .decryptCmd s)) ∧
    (if s.params.pwMax < s.pwLen.toNat ∨ s.params.bufMax - 16 ≤ s.inLen.toNat then exec .sealCmd s = failed
      else ¬ reports5 (exec .sealCmd s)) ∧
    (if s.params.pwMax < s.pwLen.toNat ∨ s.params.bufMax < s.inLen.toNat then exec .openCmd s = failed
      else ¬ reports5 (exec .openCmd s)) ∧
    ¬ reports5 (exec .clearCmd s) ∧
    ∀ w, (∀ i, w ≠ encode i) → ¬ reports5 (completionStep w s)

/-- 60_exceptions.md R233: `PaddingError`, code 1, is raised by DECRYPT and OPEN only, exactly for the three causes, on a
ciphertext of length `INLEN` for DECRYPT and `INLEN - 16` for OPEN (which gets that far only past the checks before). -/
def Obligations.PaddingErrorExactlyForItsCauses : Prop :=
  let cause := fun (em : EmptyCt) (c : Bytes) (k v : Block) =>
    c.length % 16 ≠ 0 ∨ (c.length % 16 = 0 ∧ c.length ≠ 0 ∧ unpad (cbcDecryptRaw k v c) = none) ∨
      (c.length = 0 ∧ em = .fault)
  (∀ s : State, (∃ t, exec .decryptCmd s = .next t ∧ t.err = 1) ↔
    s.inLen.toNat ≤ s.params.bufMax ∧ cause s.params.emptyCt s.dataIn s.key s.iv) ∧
  (∀ s : State, (∃ t, exec .openCmd s = .next t ∧ t.err = 1) ↔
    s.pwLen.toNat ≤ s.params.pwMax ∧ s.inLen.toNat ≤ s.params.bufMax ∧ 16 ≤ s.inLen.toNat ∧
      (s.params.strictHeader = true → s.dataIn.take 8 = [0x53, 0x61, 0x6C, 0x74, 0x65, 0x64, 0x5F, 0x5F]) ∧
      let kv := deriveKeyIv s.password (arrayOf 8 ((s.dataIn.drop 8).take 8))
      (s.dataIn.drop 16).length = s.inLen.toNat - 16 ∧ cause s.params.emptyCt (s.dataIn.drop 16) kv.1 kv.2) ∧
  (∀ (s t : State) (i : Instr), exec i s = .next t → t.err = 1 → i = .decryptCmd ∨ i = .openCmd)

/-- 60_exceptions.md R234: `MalformedContainerError`, code 2, is raised by OPEN only, exactly for an input shorter than 16 bytes
or, under `STRICT_HEADER`, a header that is not the constant (past the length checks). -/
def Obligations.MalformedContainerExactlyForItsCauses : Prop :=
  (∀ s : State, (∃ t, exec .openCmd s = .next t ∧ t.err = 2) ↔
    s.pwLen.toNat ≤ s.params.pwMax ∧ s.inLen.toNat ≤ s.params.bufMax ∧
      (s.inLen.toNat < 16 ∨ (s.params.strictHeader = true ∧
        (List.range 8).map s.inp.get ≠ [0x53, 0x61, 0x6C, 0x74, 0x65, 0x64, 0x5F, 0x5F]))) ∧
  (∀ (s t : State) (i : Instr), exec i s = .next t → t.err = 2 → i = .openCmd)

/-- 60_exceptions.md R238: a command word reports the first failing check of the fixed order. -/
def Obligations.FirstFailingCheckIsReported : Prop :=
  ∀ (w : Word) (s : State),
    let usesPassword := fun i : Instr => i = .deriveCmd ∨ i = .sealCmd ∨ i = .openCmd
    let tooLong := fun i : Instr =>
      (usesPassword i ∧ s.params.pwMax < s.pwLen.toNat) ∨
      ((i = .decryptCmd ∨ i = .openCmd) ∧ s.params.bufMax < s.inLen.toNat) ∨
      (i = .encryptCmd ∧ s.params.bufMax < padLen s.inLen.toNat) ∨
      (i = .sealCmd ∧ s.params.bufMax < 16 + padLen s.inLen.toNat)
    let kv := deriveKeyIv s.password (arrayOf 8 ((s.dataIn.drop 8).take 8))
    let cipher := fun i : Instr => if i = .openCmd then s.dataIn.drop 16 else s.dataIn
    let raw := fun i : Instr =>
      if i = .openCmd then cbcDecryptRaw kv.1 kv.2 (cipher i) else cbcDecryptRaw s.key s.iv (cipher i)
    ∃ t, completionStep w s = .next t ∧ ∀ i : Instr, (decode w = .ok i →
      t.err =
        if tooLong i then 5
        else if i = .openCmd ∧ s.inLen.toNat < 16 then 2
        else if i = .openCmd ∧ s.params.strictHeader = true ∧ s.dataIn.take 8 ≠ header then 2
        else if (i = .decryptCmd ∨ i = .openCmd) ∧ (cipher i).length % 16 ≠ 0 then 1
        else if (i = .decryptCmd ∨ i = .openCmd) ∧ cipher i = [] ∧ s.params.emptyCt = .fault then 1
        else if (i = .decryptCmd ∨ i = .openCmd) ∧ cipher i ≠ [] ∧ unpad (raw i) = none then 1
        else 0) ∧
      ((∀ j, decode w ≠ .ok j) → t.err = 4)

/-- 60_exceptions.md R236: a completion that fails, with code 1, 2, 4 or 5, has changed `OUT`, `OUTLEN`, `ERR`, `DONE`, `PHASE` and
nothing else. -/
def Obligations.FailureChangesNothingButTheOutput : Prop :=
  ∀ (w : Word) (s t : State), completionStep w s = .next t → t.err ≠ 0 →
    t = { s with out := ⟨[]⟩, outLen := 0, err := t.err, done := true, phase := .idle } ∧
    (t.err = 1 ∨ t.err = 2 ∨ t.err = 4 ∨ t.err = 5) ∧ ∀ i, t.out.get i = 0

/-- 60_exceptions.md R235: a completion that succeeds has a result that fits, which `OUT` holds zero-filled; DERIVE and CLEAR
have the empty result. -/
def Obligations.SuccessLeavesTheResultZeroFilled : Prop :=
  ∀ (w : Word) (s t : State), completionStep w s = .next t → t.err = 0 →
    t.done = true ∧ t.phase = .idle ∧
    ∃ r : Bytes, r.length ≤ s.params.bufMax ∧ t.outLen.toNat = r.length ∧
      (∀ i, t.out.get i = if i < r.length then r.getD i 0 else 0) ∧
      (w = encode .deriveCmd ∨ w = encode .clearCmd → r = [])

/-! ## Frames and what a command reads -/

/-- 10_state.md R36: what each command leaves untouched, whatever its outcome. (The table of R36 is marked by the spec as its
own inference; the last line is about the model's own fields: log entries 1 to 4.) -/
def Obligations.CommandsKeepWhatTheyDoNotWrite : Prop :=
  ∀ (i : Instr) (s t : State), exec i s = .next t →
    t.ie = s.ie ∧ t.accErr = s.accErr ∧
    (i ≠ .clearCmd → t.salt = s.salt ∧ t.pw = s.pw ∧ t.pwLen = s.pwLen ∧ t.inp = s.inp ∧ t.inLen = s.inLen) ∧
    (i ≠ .clearCmd → i ≠ .deriveCmd → t.key = s.key ∧ t.iv = s.iv) ∧
    (i ≠ .sealCmd → t.entropy = s.entropy ∧ t.draws = s.draws) ∧
    t.params = s.params ∧ t.inputs = s.inputs ∧ t.answers = s.answers

/-- 10_state.md R27, R28, R29: no command reads `OUT`, `OUTLEN`, a flag, or `CTRL`; with other values there, it does the same. -/
def Obligations.CommandsReadNoOutputAndNoFlag : Prop :=
  ∀ (i : Instr) (s t : State) (o : Memory) (l : Word) (b d a : Bool) (e : BitVec 4) (ph : Phase),
    exec i s = .next t →
    exec i { s with out := o, outLen := l, ie := b, done := d, accErr := a, err := e, phase := ph } =
      .next { t with ie := b, accErr := a }

/-- 44_container.md R192: SEAL and OPEN neither read nor write `KEY`, `IV`, `SALT`. -/
def Obligations.CompositeCommandsIgnoreTheKeyRegisters : Prop :=
  ∀ (i : Instr) (s t : State) (k v : Block) (x : Salt), i = .sealCmd ∨ i = .openCmd → exec i s = .next t →
    t.key = s.key ∧ t.iv = s.iv ∧ t.salt = s.salt ∧
    exec i { s with key := k, iv := v, salt := x } = .next { t with key := k, iv := v, salt := x }

/-- 10_state.md R25, R26: bytes of `PW` and `IN` beyond `PWLEN` and `INLEN` are ignored by every command. -/
def Obligations.BytesBeyondTheLengthsAreIgnored : Prop :=
  ∀ (i : Instr) (s t : State) (pw' inp' : Memory), exec i s = .next t →
    (∀ a, a < s.pwLen.toNat → pw'.get a = s.pw.get a) → (∀ a, a < s.inLen.toNat → inp'.get a = s.inp.get a) →
    exec i { s with pw := pw', inp := inp' } =
      .next (if i = .clearCmd then t else { t with pw := pw', inp := inp' })

/-- 20_memory.md R68: the two buffer operands are read from index 0, and what a command leaves in `OUT` reads as its result
followed by zeros. -/
def Obligations.BuffersAreUsedFromZero : Prop :=
  (∀ (s : State) (k : Nat), k < s.pwLen.toNat → s.password.getD k 0 = s.pw.get k) ∧
  (∀ (s : State) (k : Nat), k < s.inLen.toNat → s.dataIn.getD k 0 = s.inp.get k) ∧
  (∀ (r : Bytes) (k : Nat), (Memory.ofBytes r).get k = if k < r.length then r.getD k 0 else 0) ∧
  (∀ r : Bytes, (Memory.ofBytes r).slice r.length = r)

/-! ## The host port -/

/-- 20_memory.md R51: for all legal parameters the address map is the twelve rows of the table, in rising order, apart from
one another, inside the 18-bit address space of R50; a read of the write-only `CMD` gives 0; and a name of a host script
(30_encoding.md R85) stands for its row's first address. -/
def Obligations.AddressMapRowsAreDisjoint : Prop :=
  (∀ p : Params, addressMap p =
    [{ base := 0x00000, size := 4, target := .ctl .cmd, writable := true, sizes := [4] },
     { base := 0x00004, size := 4, target := .ctl .status, writable := true, sizes := [4] },
     { base := 0x00008, size := 4, target := .ctl .ctrl, writable := true, sizes := [4] },
     { base := 0x0000C, size := 4, target := .ctl .pwLen, writable := true, sizes := [4] },
     { base := 0x00010, size := 4, target := .ctl .inLen, writable := true, sizes := [4] },
     { base := 0x00014, size := 4, target := .ctl .outLen, writable := false, sizes := [4] },
     { base := 0x00020, size := 16, target := .arr .key, writable := true, sizes := [1, 2, 4] },
     { base := 0x00030, size := 16, target := .arr .iv, writable := true, sizes := [1, 2, 4] },
     { base := 0x00040, size := 8, target := .arr .salt, writable := true, sizes := [1, 2, 4] },
     { base := 0x01000, size := p.pwMax, target := .arr .pw, writable := true, sizes := [1, 2, 4] },
     { base := 0x10000, size := p.bufMax, target := .arr .inp, writable := true, sizes := [1, 2, 4] },
     { base := 0x20000, size := p.bufMax, target := .arr .out, writable := false, sizes := [1, 2, 4] }]) ∧
  (∀ p : Params, (addressMap p).Pairwise (fun r q => r.base + r.size ≤ q.base) ∧
    ∀ r ∈ addressMap p, r.base + r.size ≤ 2 ^ 18 ∧ (targetAddr r.target).toNat = r.base) ∧
  ∀ s : State, s.phase = .idle → s.hostAccess (.read 0x00000 4) = { s with answers := .data 0 :: s.answers }

/-- 20_memory.md R52: an access is well-formed exactly when its size is 1, 2 or 4, its address is a multiple of its size, and
some row holds all its bytes and allows its size and direction; an access that is not is refused. -/
def Obligations.WellFormedAccessIsTheFourConditions : Prop :=
  (∀ (p : Params) (op : HostOp), op.wf p = true ↔
    (op.size = 1 ∨ op.size = 2 ∨ op.size = 4) ∧ op.addr.toNat % op.size = 0 ∧
    ∃ r ∈ addressMap p, r.base ≤ op.addr.toNat ∧ op.addr.toNat + op.size ≤ r.base + r.size ∧
      op.size ∈ r.sizes ∧ (op.isWrite = true → r.writable = true)) ∧
  ∀ (s : State) (op : HostOp), op.wf s.params = false →
    s.hostAccess op = { s with accErr := true, answers := .err :: s.answers }

/-- 20_memory.md R58: a refused access, not well-formed or blocked, is answered `err`, sets `ACCERR` and changes nothing else.
(The list of moves and the record of answers, in which `err` stands, are the model's: log entries 2 and 4.) -/
def Obligations.RefusedAccessSetsAccErrOnly : Prop :=
  ∀ (s : State) (op : HostOp) (rest : List Input), s.inputs = .access op :: rest →
    (op.wf s.params = false ∨ ((∃ w, s.phase = .busy w) ∧ op ≠ .read 0x00004 4)) →
    step s = .next { s with inputs := rest, accErr := true, answers := .err :: s.answers }

/-- 20_memory.md R53: a well-formed access is admitted, that is, not answered `err`, exactly when the DCC is idle or the access
reads `STATUS`. -/
def Obligations.AdmittedExactlyWhenIdleOrStatusRead : Prop :=
  ∀ (s t : State) (op : HostOp) (rest : List Input), s.inputs = .access op :: rest → op.wf s.params = true →
    step s = .next t → (t.answers ≠ .err :: s.answers ↔ s.phase = .idle ∨ op = .read 0x00004 4)

/-- 20_memory.md R57: while a command is pending the host can read `STATUS` and nothing else: that read answers the `STATUS`
word, every other access answers `err` and changes `ACCERR` at most; so two busy DCCs of the same status answer every
access alike. (The record of answers is the model's: log entry 4.) -/
def Obligations.BusyPortShowsOnlyStatus : Prop :=
  (∀ (s : State) (op : HostOp), s.isBusy = true →
    s.hostAccess op =
      if op = .read 0x00004 4 then { s with answers := .data s.statusWord :: s.answers }
      else { s with answers := .err :: s.answers, accErr := true }) ∧
  ∀ (s u : State) (op : HostOp), s.isBusy = true → u.isBusy = true → s.statusWord = u.statusWord →
    ∃ a, s.hostAccess op = { s with answers := a :: s.answers, accErr := s.accErr || a == .err } ∧
      u.hostAccess op = { u with answers := a :: u.answers, accErr := u.accErr || a == .err }

/-- 20_memory.md R54, reading, and 30_encoding.md R86 (`RDB`): an admitted aligned read of a byte array gives its bytes, the
one at the lowest address least significant, and nothing changes but the answer; `RDB` of bytes inside one array gives
their byte string. -/
def Obligations.ByteArrayReadIsLittleEndian : Prop :=
  (∀ (s : State) (r : Region) (x : ByteArr) (addr : BitVec 18) (n : Nat), s.phase = .idle →
    r ∈ addressMap s.params → r.target = .arr x → (n = 1 ∨ n = 2 ∨ n = 4) → addr.toNat % n = 0 →
    r.base ≤ addr.toNat → addr.toNat + n ≤ r.base + r.size →
    ∃ v : Word, s.hostAccess (.read addr n) = { s with answers := .data v :: s.answers } ∧
      v.toNat = ((List.range n).map fun j => (s.arrayGet x (addr.toNat - r.base + j)).toNat * 256 ^ j).sum) ∧
  ∀ (s : State) (r : Region) (x : ByteArr) (addr : BitVec 18) (n : Nat), s.phase = .idle →
    r ∈ addressMap s.params → r.target = .arr x → r.base ≤ addr.toNat → addr.toNat + n ≤ r.base + r.size →
    ∃ a, rdbRun addr n s =
      some ((List.range n).map fun j => s.arrayGet x (addr.toNat - r.base + j), { s with answers := a })

/-- 20_memory.md R54, writing: an admitted aligned write of a writable byte array stores its bytes, the least significant at the
lowest address, all at once; every other byte of that array, every other array and every other field keep their values
(`PWLEN` and `INLEN` among them). The buffers are taken in their canonical form, which Inv says they have. -/
def Obligations.ByteArrayWriteStoresItsBytesOnly : Prop :=
  ∀ (s : State) (r : Region) (x : ByteArr) (addr : BitVec 18) (n : Nat) (v : Word), s.phase = .idle →
    s.pw.wf = true → s.inp.wf = true →
    r ∈ addressMap s.params → r.target = .arr x → r.writable = true → (n = 1 ∨ n = 2 ∨ n = 4) → addr.toNat % n = 0 →
    r.base ≤ addr.toNat → addr.toNat + n ≤ r.base + r.size →
    let i := addr.toNat - r.base
    let t := s.hostAccess (.write addr n v)
    t.answers = .ok :: s.answers ∧
    (∀ k, t.arrayGet x k =
      if i ≤ k ∧ k < i + n then BitVec.ofNat 8 (v.toNat / 256 ^ (k - i)) else s.arrayGet x k) ∧
    (∀ y, y ≠ x → ∀ k, t.arrayGet y k = s.arrayGet y k) ∧
    { t with key := s.key, iv := s.iv, salt := s.salt, pw := s.pw, inp := s.inp, answers := s.answers } = s

/-- 20_memory.md R59 (a): a word written to a byte array and read back in four bytes gives its bytes, the least significant at the
lowest address. -/
def Obligations.MixedWidthAccessSeesTheSameBytes : Prop :=
  ∀ (s : State) (r : Region) (x : ByteArr) (addr : BitVec 18) (v : Word), s.phase = .idle →
    s.pw.wf = true → s.inp.wf = true →
    r ∈ addressMap s.params → r.target = .arr x → r.writable = true → addr.toNat % 4 = 0 →
    r.base ≤ addr.toNat → addr.toNat + 4 ≤ r.base + r.size →
    let t := s.hostAccess (.write addr 4 v)
    ∀ j, j < 4 → (t.hostAccess (.read (addr + BitVec.ofNat 18 j) 1)).answers =
      .data ((v.extractLsb' (8 * j) 8).setWidth 32) :: t.answers

/-- 20_memory.md R55: what each control word reads as on an idle DCC, `STATUS` on any, and that a read changes nothing but the
answer. -/
def Obligations.ControlWordReads : Prop :=
  ∀ s : State,
    let reads := fun (addr : BitVec 18) (v : Word) =>
      s.hostAccess (.read addr 4) = { s with answers := .data v :: s.answers }
    (∃ v, reads 0x00004 v ∧ v.getLsbD 0 = s.isBusy ∧ v.getLsbD 1 = s.done ∧ v.getLsbD 2 = s.accErr ∧
      v.getLsbD 3 = false ∧ v.extractLsb' 4 4 = s.err ∧ v.extractLsb' 8 24 = 0) ∧
    (s.phase = .idle →
      reads 0x00000 0 ∧ reads 0x0000C s.pwLen ∧ reads 0x00010 s.inLen ∧ reads 0x00014 s.outLen ∧
      ∃ v, reads 0x00008 v ∧ v.getLsbD 0 = s.ie ∧ v.extractLsb' 1 31 = 0)

/-- 20_memory.md R56: what an admitted write of each writable control word does. -/
def Obligations.ControlWordWrites : Prop :=
  ∀ (s : State) (v : Word), s.phase = .idle →
    let writes := fun (addr : BitVec 18) (t : State) =>
      s.hostAccess (.write addr 4 v) = { t with answers := .ok :: s.answers }
    writes 0x00000 { s with phase := .busy v, done := false, err := 0 } ∧
    writes 0x00004 { s with
      done := s.done && !v.getLsbD 1, err := if v.getLsbD 1 then 0 else s.err, accErr := s.accErr && !v.getLsbD 2 } ∧
    writes 0x00008 { s with ie := v.getLsbD 0 } ∧
    writes 0x0000C { s with pwLen := v } ∧
    writes 0x00010 { s with inLen := v } ∧
    s.hostAccess (.write 0x00014 4 v) = { s with accErr := true, answers := .err :: s.answers }

/-- 30_encoding.md R81: acceptance of a command word, legal or not, changes `PHASE`, `DONE` and `ERR` only; while one is pending a
second is dropped. (The list of moves and the record of answers are the model's: log entries 2 and 4.) -/
def Obligations.CommandAcceptance : Prop :=
  ∀ (s : State) (w : Word) (rest : List Input), s.inputs = .access (.write 0x00000 4 w) :: rest →
    (s.phase = .idle → step s = .next { s with
      inputs := rest, phase := .busy w, done := false, err := 0, answers := .ok :: s.answers }) ∧
    (∀ w', s.phase = .busy w' → step s = .next { s with
      inputs := rest, accErr := true, answers := .err :: s.answers })

/-- 10_state.md R28: `ACCERR` is sticky: only a host write of 1 to its bit, accepted while idle, and reset clear it. -/
def Obligations.AccErrIsSticky : Prop :=
  ∀ s t : State, step s = .next t → s.accErr = true → t.accErr = false →
    (∃ rest, s.inputs = .reset :: rest) ∨
    (∃ v rest, s.inputs = .access (.write 0x00004 4 v) :: rest ∧ v.getLsbD 2 = true ∧ s.phase = .idle)

/-- 10_state.md R30: `PHASE` changes in exactly three ways. -/
def Obligations.PhaseChangesInThreeWays : Prop :=
  ∀ s t : State, step s = .next t → t.phase ≠ s.phase →
    (∃ w rest, s.inputs = .access (.write 0x00000 4 w) :: rest ∧ s.phase = .idle ∧ t.phase = .busy w) ∨
    (∃ w, s.phase = .busy w ∧ s.coreNext ∧ completionStep w { s with inputs := s.inputs.tail } = .next t ∧
      t.phase = .idle) ∨
    (∃ rest, s.inputs = .reset :: rest ∧ t.phase = .idle)

/-- 10_state.md R31: `irq` is the level `IE and DONE`; a completion step with `IE = 1` raises it, and it falls only when the host
clears `DONE`, clears `IE`, has a command word accepted, or at reset. -/
def Obligations.InterruptLevelRisesAndFalls : Prop :=
  (∀ s : State, s.irq = (s.ie && s.done)) ∧
  (∀ (w : Word) (s t : State), s.ie = true → completionStep w s = .next t → t.irq = true) ∧
  (∀ s t : State, step s = .next t → s.irq = true → t.irq = false →
    (∃ rest, s.inputs = .reset :: rest) ∨
    (∃ v rest, s.phase = .idle ∧
      ((s.inputs = .access (.write 0x00004 4 v) :: rest ∧ v.getLsbD 1 = true) ∨
       (s.inputs = .access (.write 0x00008 4 v) :: rest ∧ v.getLsbD 0 = false) ∨
       s.inputs = .access (.write 0x00000 4 v) :: rest)))

/-! ## Reset and the invariant -/

/-- 10_state.md R35: every component after reset. -/
def Obligations.ResetValues : Prop :=
  State.reset.key.toList = List.replicate 16 0 ∧ State.reset.iv.toList = List.replicate 16 0 ∧
  State.reset.salt.toList = List.replicate 8 0 ∧ (∀ i, State.reset.pw.get i = 0) ∧ (∀ i, State.reset.inp.get i = 0) ∧
  (∀ i, State.reset.out.get i = 0) ∧ State.reset.pwLen = 0 ∧ State.reset.inLen = 0 ∧ State.reset.outLen = 0 ∧
  State.reset.ctrlWord = 0 ∧ State.reset.done = false ∧ State.reset.err = 0 ∧ State.reset.accErr = false ∧
  State.reset.phase = .idle ∧ State.reset.statusWord = 0 ∧ State.reset.irq = false

/-- 70_reset_and_hazards.md R260, R261: the reset event is enabled in every state and gives every component its reset value; a
command that was pending is abandoned: at the next turn of the sequencer nothing completes. What stays (parameters, what
the environment has yet to do and has seen) is no state of the DCC: log entries 1 to 4. -/
def Obligations.ResetAbandonsThePendingCommand : Prop :=
  ∀ (s : State) (rest : List Input), s.inputs = .reset :: rest →
    ∃ t, step s = .next t ∧
      t = { State.reset with
        params := s.params, inputs := rest, answers := s.answers, entropy := s.entropy, draws := s.draws } ∧
      (t.coreNext → step t = .next { t with inputs := rest.tail })

/-- The reset state satisfies the invariant (10_state.md R34, which the spec marks as its own inference; the canonical form of
the buffers is the model's: log entry 8). -/
def Obligations.ResetSatisfiesInv : Prop := Inv State.reset

/-- 10_state.md R34: every step, whoever moves, keeps the invariant. (The spec marks R34 as its own inference, "derived: from
rules R27, R28 and 60_exceptions.md rules R235, R236"; the canonical form of the buffers is the model's: log entry 8.) -/
def Obligations.EveryStepKeepsInv : Prop :=
  ∀ s t : State, Inv s → step s = .next t → Inv t

/-! ## The pure functions -/

/-- 40_md5.md R101: the padded message is the message, `80`, zeros, and the bit length, least significant byte first, on the least
multiple of 64 bytes that holds them; and R103, R104, R106, R107, R108: the loop over its 64-byte blocks, each 64 steps and
the word-wise sum with the chaining words, from the initial words of R102, and the order of the digest. (`T[i]` is the
model's table `md5T`.) -/
def Obligations.Md5PaddingLayout : Prop :=
  ∀ m : Bytes,
    let p := md5Pad m
    let f := fun (i : Nat) (x y z : Word) =>
      if i < 16 then (x &&& y) ||| (~~~x &&& z) else if i < 32 then (x &&& z) ||| (y &&& ~~~z)
      else if i < 48 then x ^^^ y ^^^ z else y ^^^ (x ||| ~~~z)
    let g := fun i : Nat =>
      if i < 16 then i else if i < 32 then (5 * i + 1) % 16 else if i < 48 then (3 * i + 5) % 16 else 7 * i % 16
    let rot := fun i : Nat =>
      ([7, 12, 17, 22, 5, 9, 14, 20, 4, 11, 16, 23, 6, 10, 15, 21] : List Nat).getD (4 * (i / 16) + i % 4) 0
    let word := fun q j : Nat => BitVec.ofNat 32 (leValue ((p.drop (64 * q + 4 * j)).take 4))
    let steps := fun (q : Nat) (c : Md5Chain) => (List.range 64).foldl (fun c i =>
      let t := c.a + f i c.b c.c c.d + word q (g i) + md5T.getD i 0
      { a := c.d, b := c.b + ((t <<< rot i) ||| (t >>> (32 - rot i))), c := c.b, d := c.c }) c
    let final := (List.range (p.length / 64)).foldl (fun c q =>
      let r := steps q c
      { a := c.a + r.a, b := c.b + r.b, c := c.c + r.c, d := c.d + r.d })
      ({ a := 0x67452301, b := 0xEFCDAB89, c := 0x98BADCFE, d := 0x10325476 } : Md5Chain)
    (p.length = 64 * ((m.length + 8) / 64 + 1) ∧ p.take m.length = m ∧ p.getD m.length 0 = 0x80 ∧
      (∀ k, m.length < k → k < p.length - 8 → p.getD k 0 = 0) ∧
      leValue (p.drop (p.length - 8)) = 8 * m.length % 2 ^ 64) ∧
    (md5 m).toList = le32inv final.a ++ le32inv final.b ++ le32inv final.c ++ le32inv final.d

/-- Sanity: the digests of the worked examples 40_md5.md R110 and R111, and of the two-block message M7 of
96_test_vectors_more.md section 2.1, the digits `1` to `9`, `0`, eight times over. -/
def Obligations.Md5WorkedExamples : Prop :=
  (md5 []).toList = [0xD4, 0x1D, 0x8C, 0xD9, 0x8F, 0x00, 0xB2, 0x04, 0xE9, 0x80, 0x09, 0x98, 0xEC, 0xF8, 0x42, 0x7E] ∧
  (md5 [0x70, 0x77, 0x00, 0x01, 0x02, 0x03, 0x04, 0x05, 0x06, 0x07]).toList =
    [0xA5, 0x5F, 0x79, 0xAA, 0x00, 0xE8, 0xDD, 0x0E, 0x7D, 0x3C, 0xE2, 0x6E, 0xD4, 0x0D, 0x7C, 0xD3] ∧
  (md5 ((List.replicate 8 [0x31, 0x32, 0x33, 0x34, 0x35, 0x36, 0x37, 0x38, 0x39, 0x30]).flatten)).toList =
    [0x57, 0xED, 0xF4, 0xA2, 0x2B, 0xE3, 0xC9, 0x55, 0xAC, 0x49, 0xDA, 0x2E, 0x21, 0x07, 0xB6, 0x7A]

/-- 42_aes128.md R138, R139: `SBOX` is the field inverse followed by the affine map that generated it, and the two tables are
inverse to one another. -/
def Obligations.SubstitutionTablesAreInverse : Prop :=
  ∀ b : Byte, invSbox (sbox b) = b ∧ sbox (invSbox b) = b ∧
    ∃ c : Byte, (gmul b c = 1 ∨ (b = 0 ∧ c = 0)) ∧
      sbox b = c ^^^ c.rotateLeft 1 ^^^ c.rotateLeft 2 ^^^ c.rotateLeft 3 ^^^ c.rotateLeft 4 ^^^ 0x63

/-- 42_aes128.md R145, R146: the ten round constants; the expanded key is 44 words, the first four the key's, each later one by the recurrence; each round key is
four of them. -/
def Obligations.KeyExpansionRecurrence : Prop :=
  ((List.range 10).map fun j => rcon (j + 1)) = [0x01, 0x02, 0x04, 0x08, 0x10, 0x20, 0x40, 0x80, 0x1B, 0x36] ∧
  (∀ j, 1 ≤ j → j < 10 → rcon (j + 1) = xtime (rcon j)) ∧
  ∀ key : Block,
    let w := fun i => (keyWords key).getD i (arrayOf 4 [])
    (keyWords key).length = 44 ∧ (keyExpansion key).length = 11 ∧
    (∀ i, i < 4 → (w i).toList = (key.toList.drop (4 * i)).take 4) ∧
    (∀ i, 4 ≤ i → i < 44 → i % 4 ≠ 0 → w i = xorArray (w (i - 4)) (w (i - 1))) ∧
    (∀ i, 4 ≤ i → i < 44 → i % 4 = 0 → w i = xorArray (w (i - 4))
      #v[sbox (w (i - 1))[1] ^^^ rcon (i / 4), sbox (w (i - 1))[2], sbox (w (i - 1))[3], sbox (w (i - 1))[0]]) ∧
    (∀ r, r < 11 → ((keyExpansion key).getD r (blockOf [])).toList =
      (w (4 * r)).toList ++ (w (4 * r + 1)).toList ++ (w (4 * r + 2)).toList ++ (w (4 * r + 3)).toList)

/-- 42_aes128.md R136, R141, R142, R143: multiplication in the field by the coefficients used; the index formulas of `ShiftRows`
and its inverse, the column formulas of `MixColumns` and its inverse; and each of them is undone by the other. -/
def Obligations.InverseTransformationsUndo : Prop :=
  (∀ a : Byte,
    let x1 := if 128 ≤ a.toNat then BitVec.ofNat 8 (2 * a.toNat) ^^^ 0x1B else BitVec.ofNat 8 (2 * a.toNat)
    xtime a = x1 ∧ gmul 0x02 a = x1 ∧ gmul 0x03 a = x1 ^^^ a ∧ gmul 0x09 a = xtime (xtime x1) ^^^ a ∧
    gmul 0x0B a = xtime (xtime x1) ^^^ a ^^^ x1 ∧ gmul 0x0D a = xtime (xtime x1) ^^^ a ^^^ xtime x1 ∧
    gmul 0x0E a = xtime (xtime x1) ^^^ xtime x1 ^^^ x1) ∧
  (∀ s : Block, invShiftRows (shiftRows s) = s ∧ shiftRows (invShiftRows s) = s ∧
    invMixColumns (mixColumns s) = s ∧ mixColumns (invMixColumns s) = s) ∧
  (∀ (s : Block) (r c : Nat), r < 4 → c < 4 →
    (shiftRows s).toList.getD (r + 4 * c) 0 = s.toList.getD (r + 4 * ((c + r) % 4)) 0 ∧
    (invShiftRows s).toList.getD (r + 4 * c) 0 = s.toList.getD (r + 4 * ((c + 4 - r) % 4)) 0) ∧
  ∀ (s : Block) (c : Nat), c < 4 →
    let a := fun k => s.toList.getD (4 * c + k) 0
    ((mixColumns s).toList.drop (4 * c)).take 4 =
      [gmul 0x02 (a 0) ^^^ gmul 0x03 (a 1) ^^^ a 2 ^^^ a 3, a 0 ^^^ gmul 0x02 (a 1) ^^^ gmul 0x03 (a 2) ^^^ a 3,
       a 0 ^^^ a 1 ^^^ gmul 0x02 (a 2) ^^^ gmul 0x03 (a 3), gmul 0x03 (a 0) ^^^ a 1 ^^^ a 2 ^^^ gmul 0x02 (a 3)] ∧
    ((invMixColumns s).toList.drop (4 * c)).take 4 =
      [gmul 0x0E (a 0) ^^^ gmul 0x0B (a 1) ^^^ gmul 0x0D (a 2) ^^^ gmul 0x09 (a 3),
       gmul 0x09 (a 0) ^^^ gmul 0x0E (a 1) ^^^ gmul 0x0B (a 2) ^^^ gmul 0x0D (a 3),
       gmul 0x0D (a 0) ^^^ gmul 0x09 (a 1) ^^^ gmul 0x0E (a 2) ^^^ gmul 0x0B (a 3),
       gmul 0x0B (a 0) ^^^ gmul 0x0D (a 1) ^^^ gmul 0x09 (a 2) ^^^ gmul 0x0E (a 3)]

/-- 42_aes128.md R140, R144, R147, R148, R149 (and R135, which cites it): the ten rounds of encryption and of decryption, under
the round keys of the key expansion; and block decryption undoes block encryption under every key, and the other way round.
(The spec marks R149 as its own inference, "derived: from rules R138 to R148".) -/
def Obligations.AesDecryptInvertsEncrypt : Prop :=
  (∀ key blk : Block, aesDecryptBlock key (aesEncryptBlock key blk) = blk ∧
    aesEncryptBlock key (aesDecryptBlock key blk) = blk) ∧
  (∀ s : Block, (subBytes s).toList = s.toList.map sbox ∧ (invSubBytes s).toList = s.toList.map invSbox) ∧
  ∀ key blk : Block,
    let rk := fun r => (keyExpansion key).getD r (blockOf [])
    aesEncryptBlock key blk =
      xorArray (shiftRows (subBytes
        ([1, 2, 3, 4, 5, 6, 7, 8, 9].foldl (fun s r => xorArray (mixColumns (shiftRows (subBytes s))) (rk r))
          (xorArray blk (rk 0))))) (rk 10) ∧
    aesDecryptBlock key blk =
      xorArray (invSubBytes (invShiftRows
        ([9, 8, 7, 6, 5, 4, 3, 2, 1].foldl
          (fun s r => invMixColumns (xorArray (invSubBytes (invShiftRows s)) (rk r))) (xorArray blk (rk 10))))) (rk 0)

/-- 43_cbc_pkcs7.md R165: `PadLen(L)` is the least multiple of 16 strictly greater than `L`. -/
def Obligations.PadLenIsTheLeastGreaterMultiple : Prop :=
  ∀ len : Nat, padLen len % 16 = 0 ∧ len < padLen len ∧ ∀ k, k % 16 = 0 → len < k → padLen len ≤ k

/-- 43_cbc_pkcs7.md R166: padding appends `n = 16 - (L mod 16)` bytes of value `n`, 1 to 16 of them, up to `PadLen(L)`. -/
def Obligations.PadAppendsTheCount : Prop :=
  ∀ m : Bytes,
    let n := 16 - m.length % 16
    1 ≤ n ∧ n ≤ 16 ∧ (pad m).length = padLen m.length ∧ (pad m).take m.length = m ∧
    ∀ k, m.length ≤ k → k < (pad m).length → ((pad m).getD k 0).toNat = n

/-- 43_cbc_pkcs7.md R167: the result of `Unpad` on a positive multiple of 16 bytes, and that it undoes `Pad`. -/
def Obligations.UnpadChecksEveryByteAndInvertsPad : Prop :=
  (∀ (p r : Bytes), p ≠ [] → p.length % 16 = 0 →
    let n := (p.getD (p.length - 1) 0).toNat
    (unpad p = some r ↔ 1 ≤ n ∧ n ≤ 16 ∧ (∀ j, 1 ≤ j → j ≤ n → (p.getD (p.length - j) 0).toNat = n) ∧
      r = p.take (p.length - n))) ∧
  ∀ m : Bytes, unpad (pad m) = some m

/-- 43_cbc_pkcs7.md R168, R169: each ciphertext block is the encryption of the plaintext block xored with the ciphertext block
before it, or the IV; each raw plaintext block is the decryption of the ciphertext block xored with the one before it, or
the IV; and CBC decryption undoes CBC encryption on whole blocks. (The spec marks the last sentence as its own inference,
"derived: from 42_aes128.md rule R149".) -/
def Obligations.CbcDecryptInvertsEncrypt : Prop :=
  ∀ (key iv : Block) (p : Bytes), p.length % 16 = 0 →
    let c := cbcEncrypt key iv p
    let d := cbcDecryptRaw key iv p
    let blk := fun (x : Bytes) (j : Nat) => blockOf ((x.drop (16 * j)).take 16)
    let prev := fun (x : Bytes) (j : Nat) => if j = 0 then iv else blk x (j - 1)
    cbcDecryptRaw key iv c = p ∧ c.length = p.length ∧ d.length = p.length ∧
    ∀ j, 16 * j < p.length →
      blk c j = aesEncryptBlock key (xorArray (blk p j) (prev c j)) ∧
      blk d j = xorArray (aesDecryptBlock key (blk p j)) (prev p j)

/-- 43_cbc_pkcs7.md R174, as functions: decrypting an encryption gives the plaintext, for both values of `EMPTY_CT`. (The spec
marks R174 as its own inference, "derived: from rules R167, R169, R170, R171".) -/
def Obligations.DecryptInvertsEncrypt : Prop :=
  ∀ (em : EmptyCt) (m : Bytes) (key iv : Block), decrypt em (encrypt m key iv) key iv = .ok m

/-- 43_cbc_pkcs7.md R174, in commands: ENCRYPT that does not fail, `OUT` copied to `IN` with its length, DECRYPT with unchanged
`KEY` and `IV`: the original bytes come back, zeros after them. (R174 is marked by the spec as its own inference.) -/
def Obligations.EncryptThenDecryptRestoresTheInput : Prop :=
  ∀ s t : State, exec .encryptCmd s = .next t → t.err = 0 →
    ∃ u, exec .decryptCmd { t with inp := t.out, inLen := t.outLen } = .next u ∧ u.err = 0 ∧ u.outLen = s.inLen ∧
      ∀ i, u.out.get i = if i < s.inLen.toNat then s.inp.get i else 0

/-- 44_container.md R190, R191: the layout of a sealed container. -/
def Obligations.ContainerLayout : Prop :=
  ∀ (m p : Bytes) (s : Salt),
    let c := sealBytes m p s
    let kv := deriveKeyIv p s
    c.length = 16 + padLen m.length ∧ c.take 8 = [0x53, 0x61, 0x6C, 0x74, 0x65, 0x64, 0x5F, 0x5F] ∧
    (c.drop 8).take 8 = s.toList ∧ c.drop 16 = encrypt m kv.1 kv.2 ∧ (c.drop 16).length % 16 = 0

/-- 44_container.md R196, as functions: opening a sealed container with its password gives the plaintext, for every salt and both
values of `STRICT_HEADER` and `EMPTY_CT`. (The spec marks R196 as its own inference, "derived: from rules R191, R194 and
43_cbc_pkcs7.md rule R174".) -/
def Obligations.OpenInvertsSeal : Prop :=
  ∀ (params : Params) (m p : Bytes) (s : Salt), openBytes params (sealBytes m p s) p = .ok m

/-- 44_container.md R196, in commands: SEAL that does not fail, `OUT` copied to `IN` with its length, OPEN with the same password: the
original plaintext comes back, for every draw. (R196 is marked by the spec as its own inference.) -/
def Obligations.SealThenOpenRestoresTheInput : Prop :=
  ∀ s t : State, exec .sealCmd s = .next t → t.err = 0 →
    ∃ u, exec .openCmd { t with inp := t.out, inLen := t.outLen } = .next u ∧ u.err = 0 ∧ u.outLen = s.inLen ∧
      ∀ i, u.out.get i = if i < s.inLen.toNat then s.inp.get i else 0

/-- 45_clear_and_host_framing.md R213: Base64 decoding is the inverse of encoding on the texts encoding can produce, and refuses every
other text. -/
def Obligations.Base64DecodeInvertsEncode : Prop :=
  ∀ (t : List Char) (b : Bytes), base64Decode t = some b ↔ t = base64Encode b
end

