-- ==== Sys2Proof/Laws/Bytes.lean ====
section
/-! SUPPORT. Lengths and reading of the byte strings the pure functions work on: what a caller needs to know of padding,
blocks, CBC and the container without unfolding them. -/

namespace Sys2Proof.Machine

/-! ### Notation (00_scope.md rules R10 to R12) -/

@[simp] theorem rep_length (v : Byte) (n : Nat) : (rep v n).length = n := by simp [rep]

@[simp] theorem leBytes_length (n v : Nat) : (leBytes n v).length = n := by
  induction n generalizing v with
  | zero => rfl
  | succ n ih => simp [leBytes, ih]

/-- Reading back a little-endian string gives the value, modulo its width. -/
theorem leValue_leBytes (n v : Nat) : leValue (leBytes n v) = v % 256 ^ n := by
  induction n generalizing v with
  | zero => simp [leBytes, leValue, Nat.mod_one]
  | succ n ih =>
    have h : 256 ^ (n + 1) = 256 * 256 ^ n := Nat.pow_succ'
    rw [leBytes, leValue, ih, BitVec.toNat_ofNat, h, Nat.mod_mul]

theorem leBytes_getD {n k : Nat} (v : Nat) (h : k < n) : (leBytes n v).getD k 0 = BitVec.ofNat 8 (v / 256 ^ k) := by
  induction n generalizing v k with
  | zero => omega
  | succ n ih =>
    cases k with
    | zero => simp [leBytes]
    | succ k =>
      simp only [leBytes, List.getD_cons_succ, ih (v / 256) (show k < n by omega), Nat.div_div_eq_div_mul, pow_succ]
      rw [Nat.mul_comm]

@[simp] theorem le32inv_length (w : Word) : (le32inv w).length = 4 := leBytes_length 4 _

/-- A word laid out and read back is the word. -/
@[simp] theorem le32_le32inv (w : Word) : le32 (le32inv w) = w := by
  have h : (le32inv w).take 4 = le32inv w := List.take_of_length_le (by simp)
  rw [le32, h, le32inv, leValue_leBytes, Nat.mod_eq_of_lt (by have := w.isLt; omega), BitVec.ofNat_toNat,
    BitVec.setWidth_eq]

/-- A string of the array's own length is held as it is. -/
theorem arrayOf_toList {n : Nat} {s : Bytes} (h : s.length = n) : (arrayOf n s).toList = s := by
  apply List.ext_getElem
  · simp [h]
  · intro i h1 h2
    simp [arrayOf, h2]

@[simp] theorem arrayOf_of_toList {n : Nat} (v : Vector Byte n) : arrayOf n v.toList = v := by
  ext i hi
  simp [arrayOf]

@[simp] theorem blockOf_toList (v : Block) : blockOf v.toList = v := arrayOf_of_toList v

theorem xorArray_self_cancel {n : Nat} (a b : Vector Byte n) : xorArray (xorArray a b) b = a := by
  ext i hi
  simp [xorArray]

theorem xorArray_getElem {n : Nat} (a b : Vector Byte n) {i : Nat} (h : i < n) : (xorArray a b)[i] = a[i] ^^^ b[i] := by
  simp [xorArray]

@[simp] theorem pieces_length (size nb : Nat) (p : Bytes) : (pieces size nb p).length = nb := by
  induction nb generalizing p with
  | zero => rfl
  | succ nb ih => simp [pieces, ih]

/-! ### Padding and blocks (43_cbc_pkcs7.md) -/

theorem padLen_gt (len : Nat) : len < padLen len := by unfold padLen; omega

theorem padLen_dvd (len : Nat) : padLen len % 16 = 0 := by unfold padLen; omega

theorem pad_length_eq (m : Bytes) : (pad m).length = padLen m.length := by
  simp only [pad, List.length_append, rep_length, padLen]; omega

@[simp] theorem blocksOf_length (p : Bytes) : (blocksOf p).length = p.length / 16 := by simp [blocksOf]

@[simp] theorem bytesOf_length (bs : List Block) : (bytesOf bs).length = 16 * bs.length := by
  induction bs with
  | nil => rfl
  | cons b bs ih => simp only [bytesOf, List.flatMap_cons, List.length_append, List.length_cons, Vector.length_toList] at *; omega

/-- The bytes of the blocks of a string are the string, when its length is a multiple of 16. -/
theorem bytesOf_pieces (nb : Nat) (p : Bytes) (h : p.length = 16 * nb) :
    bytesOf ((pieces 16 nb p).map blockOf) = p := by
  induction nb generalizing p with
  | zero => simp_all [pieces, bytesOf]
  | succ nb ih =>
    have h1 : (p.take 16).length = 16 := by simp; omega
    have h2 : (p.drop 16).length = 16 * nb := by simp; omega
    have := ih (p.drop 16) h2
    simp only [bytesOf] at this
    simp only [pieces, List.map_cons, bytesOf, List.flatMap_cons, this, blockOf, arrayOf_toList h1, List.take_append_drop]

theorem bytesOf_blocksOf {p : Bytes} (h : p.length % 16 = 0) : bytesOf (blocksOf p) = p :=
  bytesOf_pieces _ p (by omega)

/-- The blocks of the bytes of blocks are the blocks. -/
theorem blocksOf_bytesOf (bs : List Block) : blocksOf (bytesOf bs) = bs := by
  rw [blocksOf, bytesOf_length, Nat.mul_div_cancel_left _ (by decide)]
  induction bs with
  | nil => rfl
  | cons b bs ih =>
    have e : bytesOf (b :: bs) = b.toList ++ bytesOf bs := by simp [bytesOf]
    have h16 : b.toList.length = 16 := by simp
    rw [e, List.length_cons, pieces, List.take_left' h16, List.drop_left' h16, List.map_cons, ih, blockOf_toList]

theorem cbcEncryptBlocks_length (key prev : Block) (ps : List Block) :
    (cbcEncryptBlocks key prev ps).length = ps.length := by
  induction ps generalizing prev with
  | nil => rfl
  | cons p ps ih => simp [cbcEncryptBlocks, ih]

theorem cbcDecryptBlocks_length (key prev : Block) (cs : List Block) :
    (cbcDecryptBlocks key prev cs).length = cs.length := by
  induction cs generalizing prev with
  | nil => rfl
  | cons c cs ih => simp [cbcDecryptBlocks, ih]

theorem cbcEncrypt_length (key iv : Block) (p : Bytes) : (cbcEncrypt key iv p).length = 16 * (p.length / 16) := by
  simp [cbcEncrypt, cbcEncryptBlocks_length]

theorem cbcDecryptRaw_length (key iv : Block) (c : Bytes) :
    (cbcDecryptRaw key iv c).length = 16 * (c.length / 16) := by
  simp [cbcDecryptRaw, cbcDecryptBlocks_length]

/-- The length of a ciphertext (R170). -/
theorem encrypt_length (m : Bytes) (key iv : Block) : (encrypt m key iv).length = padLen m.length := by
  have := padLen_dvd m.length
  rw [encrypt, cbcEncrypt_length, pad_length_eq]; omega

theorem unpad_length_le {p r : Bytes} (h : unpad p = some r) : r.length ≤ p.length - 1 := by
  simp only [unpad] at h
  split at h
  · cases h
  · split at h
    · cases h
      simp only [List.length_take]; omega
    · cases h

/-- What decryption gives, case by case (R171): nothing longer than the ciphertext, and only `PaddingError` can be raised. -/
theorem decrypt_cases (em : EmptyCt) (c : Bytes) (key iv : Block) :
    decrypt em c key iv = .error .paddingError ∨
      ∃ r, decrypt em c key iv = .ok r ∧ r.length ≤ c.length - 1 := by
  unfold decrypt
  split
  · exact .inl rfl
  · split
    · cases em with
      | fault => exact .inl rfl
      | empty => exact .inr ⟨[], rfl, by simp⟩
    · split
      · exact .inl rfl
      · rename_i r hr
        refine .inr ⟨r, rfl, ?_⟩
        have := unpad_length_le hr
        rw [cbcDecryptRaw_length] at this
        omega

/-! ### The container (44_container.md) -/

@[simp] theorem header_length : header.length = 8 := rfl

theorem sealBytes_length (m password : Bytes) (salt : Salt) :
    (sealBytes m password salt).length = 16 + padLen m.length := by
  simp only [sealBytes, List.length_append, header_length, Vector.length_toList, encrypt_length]

/-- What opening gives, case by case (R194). -/
theorem openBytes_cases (params : Params) (c password : Bytes) :
    openBytes params c password = .error .malformedContainer ∨ openBytes params c password = .error .paddingError ∨
      ∃ r, openBytes params c password = .ok r ∧ r.length ≤ c.length - 1 := by
  unfold openBytes
  split
  · exact .inl rfl
  · split
    · exact .inl rfl
    · rcases decrypt_cases params.emptyCt (c.drop 16) (deriveKeyIv password (arrayOf 8 ((c.drop 8).take 8))).1
        (deriveKeyIv password (arrayOf 8 ((c.drop 8).take 8))).2 with h | ⟨r, h, hl⟩
      · exact .inr (.inl h)
      · refine .inr (.inr ⟨r, h, ?_⟩)
        simp only [List.length_drop] at hl
        omega

end Sys2Proof.Machine
end

