-- ==== Sys2Proof/Laws/Memory.lean ====
section
/-! SUPPORT. The laws of the byte buffers: read after write, what a byte string laid down reads as, and that every
operation keeps the canonical form and the capacity. -/

namespace Sys2Proof.Machine

/-! ### Reading -/

@[simp] theorem Memory.get_zeros (i : Nat) : Memory.zeros.get i = 0 := rfl

theorem cellsGet_of_lt {lo i : Nat} {cs : List Host.Cell} (h : cellsWf lo cs = true) (hi : i < lo) :
    cellsGet cs i = 0 := by
  induction cs generalizing lo with
  | nil => rfl
  | cons c cs ih =>
    simp only [cellsWf, Bool.and_eq_true, decide_eq_true_eq] at h
    have hne : c.1 ≠ i := by omega
    simp only [cellsGet, hne, if_false]
    exact ih h.2 (by omega)

theorem cellsGet_set {lo : Nat} {cs : List Host.Cell} (h : cellsWf lo cs = true) (i k : Nat) (v : Byte) :
    cellsGet (cellsSet cs i v) k = if k = i then v else cellsGet cs k := by
  induction cs generalizing lo with
  | nil =>
    by_cases hv : v = Memory.unlisted
    · simp [cellsSet, hv, cellsGet]
    · by_cases hk : k = i
      · simp [cellsSet, hv, cellsGet, hk]
      · simp [cellsSet, hv, cellsGet, hk, Ne.symm hk]
  | cons c cs ih =>
    simp only [cellsWf, Bool.and_eq_true, decide_eq_true_eq] at h
    by_cases hlt : c.1 < i
    · simp only [cellsSet, hlt, if_true, cellsGet, ih h.2]
      by_cases hk : k = i
      · subst hk; simp [hlt.ne]
      · simp [hk]
    · have hi0 : cellsGet cs i = Memory.unlisted := cellsGet_of_lt h.2 (show i < c.1 + 1 by omega)
      by_cases heq : c.1 = i
      · by_cases hv : v = Memory.unlisted
        · by_cases hk : k = i
          · simp [cellsSet, heq, hv, hk, hi0]
          · simp [cellsSet, heq, hv, hk, cellsGet, Ne.symm hk]
        · by_cases hk : k = i
          · simp [cellsSet, heq, hv, hk, cellsGet]
          · simp [cellsSet, heq, hv, hk, cellsGet, Ne.symm hk]
      · by_cases hv : v = Memory.unlisted
        · by_cases hk : k = i
          · simp [cellsSet, hlt, heq, hv, hk, cellsGet, hi0]
          · simp [cellsSet, hlt, heq, hv, hk, cellsGet]
        · by_cases hk : k = i
          · simp [cellsSet, hlt, heq, hv, hk, cellsGet]
          · simp [cellsSet, hlt, heq, hv, hk, cellsGet, Ne.symm hk]

/-- Read after write. -/
theorem Memory.get_set {m : Memory} (h : m.wf = true) (i k : Nat) (v : Byte) :
    (m.set i v).get k = if k = i then v else m.get k := cellsGet_set h i k v

theorem cellsGet_cellsOf (i k : Nat) (r : Bytes) :
    cellsGet (cellsOf i r) k = if k < i then 0 else r.getD (k - i) 0 := by
  induction r generalizing i with
  | nil => simp [cellsOf, cellsGet, Memory.unlisted]
  | cons b bs ih =>
    have hstep : (if k < i + 1 then (0 : Byte) else bs.getD (k - (i + 1)) 0) =
        if k < i then 0 else if k = i then 0 else (b :: bs).getD (k - i) 0 := by
      rcases lt_trichotomy k i with h | h | h
      · simp [h, Nat.lt_succ_of_lt h]
      · simp [h]
      · obtain ⟨d, rfl⟩ : ∃ d, k = i + 1 + d := ⟨k - (i + 1), by omega⟩
        have e : i + 1 + d - i = d + 1 := by omega
        simp [e, show ¬ i + 1 + d < i + 1 by omega, show ¬ i + 1 + d < i by omega, show i + 1 + d ≠ i by omega]
    by_cases hb : b = Memory.unlisted
    · simp only [cellsOf, hb, if_true, ih, hstep]
      by_cases hk : k = i <;> simp [hk, Memory.unlisted]
    · simp only [cellsOf, hb, if_false, cellsGet, ih, hstep]
      by_cases hk : k = i
      · simp [hk]
      · simp [hk, Ne.symm hk]

/-- What a byte string laid down from index 0 reads as: the string, then zeros. -/
@[simp] theorem Memory.get_ofBytes (r : Bytes) (k : Nat) : (Memory.ofBytes r).get k = r.getD k 0 := by
  simp [Memory.get, Memory.ofBytes, cellsGet_cellsOf]

@[simp] theorem Memory.slice_length (m : Memory) (n : Nat) : (m.slice n).length = n := by simp [Memory.slice]

theorem Memory.slice_getD (m : Memory) {n k : Nat} (h : k < n) : (m.slice n).getD k 0 = m.get k := by
  simp [Memory.slice, List.getD_eq_getElem?_getD, h]

/-- A laid-down string is read back whole. -/
@[simp] theorem Memory.slice_ofBytes (r : Bytes) : (Memory.ofBytes r).slice r.length = r := by
  apply List.ext_getElem
  · simp
  · intro i h1 h2
    simp [Memory.slice, h2]

/-- A slice sees only the bytes below its length. -/
theorem Memory.slice_congr {m m' : Memory} {n : Nat} (h : ∀ i < n, m'.get i = m.get i) : m'.slice n = m.slice n := by
  simp only [Memory.slice]
  exact List.map_congr_left fun i hi => h i (List.mem_range.mp hi)

/-! ### The canonical form -/

theorem cellsWf_mono {lo lo' : Nat} {cs : List Host.Cell} (h : cellsWf lo cs = true) (hl : lo' ≤ lo) :
    cellsWf lo' cs = true := by
  cases cs with
  | nil => rfl
  | cons c cs =>
    simp only [cellsWf, Bool.and_eq_true, decide_eq_true_eq] at h ⊢
    exact ⟨⟨by omega, h.1.2⟩, h.2⟩

theorem cellsWf_set {lo : Nat} {cs : List Host.Cell} (h : cellsWf lo cs = true) {i : Nat} (hi : lo ≤ i) (v : Byte) :
    cellsWf lo (cellsSet cs i v) = true := by
  induction cs generalizing lo with
  | nil => by_cases hv : v = Memory.unlisted <;> simp [cellsSet, cellsWf, hv, hi]
  | cons c cs ih =>
    simp only [cellsWf, Bool.and_eq_true, decide_eq_true_eq] at h
    by_cases hlt : c.1 < i
    · simp only [cellsSet, hlt, if_true, cellsWf, Bool.and_eq_true, decide_eq_true_eq]
      exact ⟨h.1, ih h.2 (by omega)⟩
    · by_cases heq : c.1 = i
      · subst heq
        by_cases hv : v = Memory.unlisted
        · simpa [cellsSet, hv] using cellsWf_mono h.2 (show lo ≤ c.1 + 1 by omega)
        · simp [cellsSet, hv, cellsWf, hi, h.2]
      · by_cases hv : v = Memory.unlisted
        · simp [cellsSet, hlt, heq, hv, cellsWf, h]
        · simp [cellsSet, hlt, heq, hv, cellsWf, h, hi, show i + 1 ≤ c.1 by omega]

theorem cellsWf_cellsOf (i : Nat) (r : Bytes) : cellsWf i (cellsOf i r) = true := by
  induction r generalizing i with
  | nil => rfl
  | cons b bs ih =>
    by_cases hb : b = Memory.unlisted
    · simpa [cellsOf, hb] using cellsWf_mono (ih (i + 1)) (Nat.le_succ i)
    · simp [cellsOf, hb, cellsWf, ih]

@[simp] theorem Memory.wf_zeros : Memory.zeros.wf = true := rfl

@[simp] theorem Memory.wf_ofBytes (r : Bytes) : (Memory.ofBytes r).wf = true := cellsWf_cellsOf 0 r

theorem Memory.wf_set {m : Memory} (h : m.wf = true) (i : Nat) (v : Byte) : (m.set i v).wf = true :=
  cellsWf_set h (Nat.zero_le i) v

theorem Memory.wf_setBytes {m : Memory} (h : m.wf = true) (i : Nat) (b : Bytes) : (m.setBytes i b).wf = true := by
  induction b generalizing m i with
  | nil => exact h
  | cons v bs ih => exact ih (Memory.wf_set h i v) (i + 1)

/-- Read after a write of several bytes. -/
theorem Memory.get_setBytes {m : Memory} (h : m.wf = true) (i k : Nat) (b : Bytes) :
    (m.setBytes i b).get k = if i ≤ k ∧ k < i + b.length then b.getD (k - i) 0 else m.get k := by
  induction b generalizing m i with
  | nil => simp [Memory.setBytes, show ¬ (i ≤ k ∧ k < i) by omega]
  | cons v bs ih =>
    simp only [Memory.setBytes, ih (Memory.wf_set h i v), Memory.get_set h, List.length_cons]
    rcases lt_trichotomy k i with hk | hk | hk
    · rw [if_neg (by omega), if_neg (by omega), if_neg (by omega)]
    · simp [hk]
    · by_cases hb : k < i + (bs.length + 1)
      · obtain ⟨d, rfl⟩ : ∃ d, k = i + 1 + d := ⟨k - (i + 1), by omega⟩
        have e : i + 1 + d - i = d + 1 := by omega
        rw [if_pos (by omega), if_pos (by omega), e]
        simp
      · rw [if_neg (by omega), if_neg (by omega), if_neg (by omega)]

/-- Two canonical buffers that read alike are the same data. -/
theorem cellsWf_ext {lo : Nat} {cs ds : List Host.Cell} (hc : cellsWf lo cs = true) (hd : cellsWf lo ds = true)
    (h : ∀ i, cellsGet cs i = cellsGet ds i) : cs = ds := by
  induction cs generalizing lo ds with
  | nil =>
    cases ds with
    | nil => rfl
    | cons d ds =>
      simp only [cellsWf, Bool.and_eq_true, decide_eq_true_eq, bne_iff_ne] at hd
      have := h d.1
      simp only [cellsGet, if_true] at this
      exact absurd this.symm hd.1.2
  | cons c cs ih =>
    have hc' := hc
    simp only [cellsWf, Bool.and_eq_true, decide_eq_true_eq, bne_iff_ne] at hc
    have hcv : cellsGet (c :: cs) c.1 = c.2 := by simp [cellsGet]
    cases ds with
    | nil => exact absurd ((hcv.symm.trans (h c.1)).trans rfl) hc.1.2
    | cons d ds =>
      have hd' := hd
      simp only [cellsWf, Bool.and_eq_true, decide_eq_true_eq, bne_iff_ne] at hd
      have hdv : cellsGet (d :: ds) d.1 = d.2 := by simp [cellsGet]
      have e1 : c.1 = d.1 := by
        rcases lt_trichotomy c.1 d.1 with hlt | heq | hgt
        · have : cellsGet (d :: ds) c.1 = 0 := by
            simp only [cellsGet, hlt.ne', if_false]
            exact cellsGet_of_lt hd.2 (by omega)
          exact absurd ((hcv.symm.trans (h c.1)).trans this) hc.1.2
        · exact heq
        · have : cellsGet (c :: cs) d.1 = 0 := by
            simp only [cellsGet, hgt.ne', if_false]
            exact cellsGet_of_lt hc.2 (by omega)
          exact absurd (hdv.symm.trans ((h d.1).symm.trans this)) hd.1.2
      have e2 : c.2 = d.2 := by rw [← hcv, ← hdv, h c.1, e1]
      have ecd : c = d := Prod.ext e1 e2
      subst ecd
      congr 1
      refine ih hc.2 hd.2 fun i => ?_
      by_cases hi : i < c.1 + 1
      · rw [cellsGet_of_lt hc.2 hi, cellsGet_of_lt hd.2 hi]
      · have := h i
        simpa [cellsGet, show c.1 ≠ i by omega] using this

theorem Memory.ext_get {m m' : Memory} (h : m.wf = true) (h' : m'.wf = true) (hg : ∀ i, m.get i = m'.get i) :
    m = m' := by
  cases m; cases m'
  exact congrArg Memory.mk (cellsWf_ext h h' hg)

/-! ### The capacity -/

@[simp] theorem Memory.within_zeros (cap : Nat) : Memory.zeros.within cap = true := rfl

theorem cellsOf_lt {i : Nat} {r : Bytes} {c : Host.Cell} (h : c ∈ cellsOf i r) : c.1 < i + r.length := by
  induction r generalizing i with
  | nil => simp [cellsOf] at h
  | cons b bs ih =>
    by_cases hb : b = Memory.unlisted
    · simp only [cellsOf, hb, if_true] at h
      have := ih h
      simp only [List.length_cons]; omega
    · simp only [cellsOf, hb, if_false, List.mem_cons] at h
      rcases h with rfl | h
      · simp
      · have := ih h
        simp only [List.length_cons]; omega

theorem Memory.within_ofBytes {r : Bytes} {cap : Nat} (h : r.length ≤ cap) : (Memory.ofBytes r).within cap = true := by
  simp only [Memory.within, List.all_eq_true, decide_eq_true_eq]
  intro c hc
  have := cellsOf_lt (show c ∈ cellsOf 0 r from hc)
  omega

theorem cellsSet_mem {cs : List Host.Cell} {i : Nat} {v : Byte} {c : Host.Cell} (h : c ∈ cellsSet cs i v) :
    c = (i, v) ∨ c ∈ cs := by
  induction cs with
  | nil => by_cases hv : v = Memory.unlisted <;> simp_all [cellsSet]
  | cons d ds ih =>
    by_cases hlt : d.1 < i
    · simp only [cellsSet, hlt, if_true, List.mem_cons] at h ⊢
      rcases h with rfl | h
      · exact .inr (.inl rfl)
      · rcases ih h with rfl | h
        · exact .inl rfl
        · exact .inr (.inr h)
    · by_cases heq : d.1 = i <;> by_cases hv : v = Memory.unlisted <;>
        simp [cellsSet, hlt, heq, hv] at h ⊢ <;> tauto

theorem Memory.within_set {m : Memory} {cap i : Nat} (h : m.within cap = true) (hi : i < cap) (v : Byte) :
    (m.set i v).within cap = true := by
  simp only [Memory.within, List.all_eq_true, decide_eq_true_eq] at h ⊢
  intro c hc
  rcases cellsSet_mem (show c ∈ cellsSet m.cells i v from hc) with rfl | hc
  · exact hi
  · exact h c hc

theorem Memory.within_setBytes {m : Memory} {cap i : Nat} {b : Bytes} (h : m.within cap = true)
    (hi : i + b.length ≤ cap) : (m.setBytes i b).within cap = true := by
  induction b generalizing m i with
  | nil => exact h
  | cons v bs ih =>
    simp only [List.length_cons] at hi
    exact ih (Memory.within_set h (by omega) v) (by omega)

/-- Beyond its capacity a buffer reads as zero. -/
theorem Memory.get_of_within {m : Memory} {cap i : Nat} (h : m.within cap = true) (hi : cap ≤ i) : m.get i = 0 := by
  obtain ⟨cs⟩ := m
  simp only [Memory.within, List.all_eq_true, decide_eq_true_eq] at h
  simp only [Memory.get]
  induction cs with
  | nil => rfl
  | cons c cs ih =>
    have hc := h c (by simp)
    simp only [cellsGet, show c.1 ≠ i by omega, if_false]
    exact ih fun x hx => h x (by simp [hx])

end Sys2Proof.Machine
end

