-- ==== Sys2Proof/Laws/State.lean ====
section
/-! SUPPORT. One lemma per field per update of the state, each true by rfl: what an operation writes, and that it leaves
every other field alone. Later proofs never unfold a record update. -/

namespace Sys2Proof.Machine

variable (s : State)

/-! ### `State.setDone` -/

@[simp] theorem State.setDone_key (e : BitVec 4) : (s.setDone e).key = s.key := rfl
@[simp] theorem State.setDone_iv (e : BitVec 4) : (s.setDone e).iv = s.iv := rfl
@[simp] theorem State.setDone_salt (e : BitVec 4) : (s.setDone e).salt = s.salt := rfl
@[simp] theorem State.setDone_pw (e : BitVec 4) : (s.setDone e).pw = s.pw := rfl
@[simp] theorem State.setDone_pwLen (e : BitVec 4) : (s.setDone e).pwLen = s.pwLen := rfl
@[simp] theorem State.setDone_inp (e : BitVec 4) : (s.setDone e).inp = s.inp := rfl
@[simp] theorem State.setDone_inLen (e : BitVec 4) : (s.setDone e).inLen = s.inLen := rfl
@[simp] theorem State.setDone_out (e : BitVec 4) : (s.setDone e).out = s.out := rfl
@[simp] theorem State.setDone_outLen (e : BitVec 4) : (s.setDone e).outLen = s.outLen := rfl
@[simp] theorem State.setDone_ie (e : BitVec 4) : (s.setDone e).ie = s.ie := rfl
@[simp] theorem State.setDone_done (e : BitVec 4) : (s.setDone e).done = true := rfl
@[simp] theorem State.setDone_err (e : BitVec 4) : (s.setDone e).err = e := rfl
@[simp] theorem State.setDone_accErr (e : BitVec 4) : (s.setDone e).accErr = s.accErr := rfl
@[simp] theorem State.setDone_phase (e : BitVec 4) : (s.setDone e).phase = s.phase := rfl
@[simp] theorem State.setDone_params (e : BitVec 4) : (s.setDone e).params = s.params := rfl
@[simp] theorem State.setDone_inputs (e : BitVec 4) : (s.setDone e).inputs = s.inputs := rfl
@[simp] theorem State.setDone_answers (e : BitVec 4) : (s.setDone e).answers = s.answers := rfl
@[simp] theorem State.setDone_entropy (e : BitVec 4) : (s.setDone e).entropy = s.entropy := rfl
@[simp] theorem State.setDone_draws (e : BitVec 4) : (s.setDone e).draws = s.draws := rfl

/-! ### `State.clearDone` -/

@[simp] theorem State.clearDone_key : (s.clearDone).key = s.key := rfl
@[simp] theorem State.clearDone_iv : (s.clearDone).iv = s.iv := rfl
@[simp] theorem State.clearDone_salt : (s.clearDone).salt = s.salt := rfl
@[simp] theorem State.clearDone_pw : (s.clearDone).pw = s.pw := rfl
@[simp] theorem State.clearDone_pwLen : (s.clearDone).pwLen = s.pwLen := rfl
@[simp] theorem State.clearDone_inp : (s.clearDone).inp = s.inp := rfl
@[simp] theorem State.clearDone_inLen : (s.clearDone).inLen = s.inLen := rfl
@[simp] theorem State.clearDone_out : (s.clearDone).out = s.out := rfl
@[simp] theorem State.clearDone_outLen : (s.clearDone).outLen = s.outLen := rfl
@[simp] theorem State.clearDone_ie : (s.clearDone).ie = s.ie := rfl
@[simp] theorem State.clearDone_done : (s.clearDone).done = false := rfl
@[simp] theorem State.clearDone_err : (s.clearDone).err = 0 := rfl
@[simp] theorem State.clearDone_accErr : (s.clearDone).accErr = s.accErr := rfl
@[simp] theorem State.clearDone_phase : (s.clearDone).phase = s.phase := rfl
@[simp] theorem State.clearDone_params : (s.clearDone).params = s.params := rfl
@[simp] theorem State.clearDone_inputs : (s.clearDone).inputs = s.inputs := rfl
@[simp] theorem State.clearDone_answers : (s.clearDone).answers = s.answers := rfl
@[simp] theorem State.clearDone_entropy : (s.clearDone).entropy = s.entropy := rfl
@[simp] theorem State.clearDone_draws : (s.clearDone).draws = s.draws := rfl

/-! ### `State.acknowledge` -/

@[simp] theorem State.acknowledge_key : (s.acknowledge).key = s.key := rfl
@[simp] theorem State.acknowledge_iv : (s.acknowledge).iv = s.iv := rfl
@[simp] theorem State.acknowledge_salt : (s.acknowledge).salt = s.salt := rfl
@[simp] theorem State.acknowledge_pw : (s.acknowledge).pw = s.pw := rfl
@[simp] theorem State.acknowledge_pwLen : (s.acknowledge).pwLen = s.pwLen := rfl
@[simp] theorem State.acknowledge_inp : (s.acknowledge).inp = s.inp := rfl
@[simp] theorem State.acknowledge_inLen : (s.acknowledge).inLen = s.inLen := rfl
@[simp] theorem State.acknowledge_out : (s.acknowledge).out = s.out := rfl
@[simp] theorem State.acknowledge_outLen : (s.acknowledge).outLen = s.outLen := rfl
@[simp] theorem State.acknowledge_ie : (s.acknowledge).ie = s.ie := rfl
@[simp] theorem State.acknowledge_done : (s.acknowledge).done = false := rfl
@[simp] theorem State.acknowledge_err : (s.acknowledge).err = 0 := rfl
@[simp] theorem State.acknowledge_accErr : (s.acknowledge).accErr = s.accErr := rfl
@[simp] theorem State.acknowledge_phase : (s.acknowledge).phase = s.phase := rfl
@[simp] theorem State.acknowledge_params : (s.acknowledge).params = s.params := rfl
@[simp] theorem State.acknowledge_inputs : (s.acknowledge).inputs = s.inputs := rfl
@[simp] theorem State.acknowledge_answers : (s.acknowledge).answers = s.answers := rfl
@[simp] theorem State.acknowledge_entropy : (s.acknowledge).entropy = s.entropy := rfl
@[simp] theorem State.acknowledge_draws : (s.acknowledge).draws = s.draws := rfl

/-! ### `State.setAccErr` -/

@[simp] theorem State.setAccErr_key : (s.setAccErr).key = s.key := rfl
@[simp] theorem State.setAccErr_iv : (s.setAccErr).iv = s.iv := rfl
@[simp] theorem State.setAccErr_salt : (s.setAccErr).salt = s.salt := rfl
@[simp] theorem State.setAccErr_pw : (s.setAccErr).pw = s.pw := rfl
@[simp] theorem State.setAccErr_pwLen : (s.setAccErr).pwLen = s.pwLen := rfl
@[simp] theorem State.setAccErr_inp : (s.setAccErr).inp = s.inp := rfl
@[simp] theorem State.setAccErr_inLen : (s.setAccErr).inLen = s.inLen := rfl
@[simp] theorem State.setAccErr_out : (s.setAccErr).out = s.out := rfl
@[simp] theorem State.setAccErr_outLen : (s.setAccErr).outLen = s.outLen := rfl
@[simp] theorem State.setAccErr_ie : (s.setAccErr).ie = s.ie := rfl
@[simp] theorem State.setAccErr_done : (s.setAccErr).done = s.done := rfl
@[simp] theorem State.setAccErr_err : (s.setAccErr).err = s.err := rfl
@[simp] theorem State.setAccErr_accErr : (s.setAccErr).accErr = true := rfl
@[simp] theorem State.setAccErr_phase : (s.setAccErr).phase = s.phase := rfl
@[simp] theorem State.setAccErr_params : (s.setAccErr).params = s.params := rfl
@[simp] theorem State.setAccErr_inputs : (s.setAccErr).inputs = s.inputs := rfl
@[simp] theorem State.setAccErr_answers : (s.setAccErr).answers = s.answers := rfl
@[simp] theorem State.setAccErr_entropy : (s.setAccErr).entropy = s.entropy := rfl
@[simp] theorem State.setAccErr_draws : (s.setAccErr).draws = s.draws := rfl

/-! ### `State.clearAccErr` -/

@[simp] theorem State.clearAccErr_key : (s.clearAccErr).key = s.key := rfl
@[simp] theorem State.clearAccErr_iv : (s.clearAccErr).iv = s.iv := rfl
@[simp] theorem State.clearAccErr_salt : (s.clearAccErr).salt = s.salt := rfl
@[simp] theorem State.clearAccErr_pw : (s.clearAccErr).pw = s.pw := rfl
@[simp] theorem State.clearAccErr_pwLen : (s.clearAccErr).pwLen = s.pwLen := rfl
@[simp] theorem State.clearAccErr_inp : (s.clearAccErr).inp = s.inp := rfl
@[simp] theorem State.clearAccErr_inLen : (s.clearAccErr).inLen = s.inLen := rfl
@[simp] theorem State.clearAccErr_out : (s.clearAccErr).out = s.out := rfl
@[simp] theorem State.clearAccErr_outLen : (s.clearAccErr).outLen = s.outLen := rfl
@[simp] theorem State.clearAccErr_ie : (s.clearAccErr).ie = s.ie := rfl
@[simp] theorem State.clearAccErr_done : (s.clearAccErr).done = s.done := rfl
@[simp] theorem State.clearAccErr_err : (s.clearAccErr).err = s.err := rfl
@[simp] theorem State.clearAccErr_accErr : (s.clearAccErr).accErr = false := rfl
@[simp] theorem State.clearAccErr_phase : (s.clearAccErr).phase = s.phase := rfl
@[simp] theorem State.clearAccErr_params : (s.clearAccErr).params = s.params := rfl
@[simp] theorem State.clearAccErr_inputs : (s.clearAccErr).inputs = s.inputs := rfl
@[simp] theorem State.clearAccErr_answers : (s.clearAccErr).answers = s.answers := rfl
@[simp] theorem State.clearAccErr_entropy : (s.clearAccErr).entropy = s.entropy := rfl
@[simp] theorem State.clearAccErr_draws : (s.clearAccErr).draws = s.draws := rfl

/-! ### `State.writeCtrl` -/

@[simp] theorem State.writeCtrl_key (v : Word) : (s.writeCtrl v).key = s.key := rfl
@[simp] theorem State.writeCtrl_iv (v : Word) : (s.writeCtrl v).iv = s.iv := rfl
@[simp] theorem State.writeCtrl_salt (v : Word) : (s.writeCtrl v).salt = s.salt := rfl
@[simp] theorem State.writeCtrl_pw (v : Word) : (s.writeCtrl v).pw = s.pw := rfl
@[simp] theorem State.writeCtrl_pwLen (v : Word) : (s.writeCtrl v).pwLen = s.pwLen := rfl
@[simp] theorem State.writeCtrl_inp (v : Word) : (s.writeCtrl v).inp = s.inp := rfl
@[simp] theorem State.writeCtrl_inLen (v : Word) : (s.writeCtrl v).inLen = s.inLen := rfl
@[simp] theorem State.writeCtrl_out (v : Word) : (s.writeCtrl v).out = s.out := rfl
@[simp] theorem State.writeCtrl_outLen (v : Word) : (s.writeCtrl v).outLen = s.outLen := rfl
@[simp] theorem State.writeCtrl_ie (v : Word) : (s.writeCtrl v).ie = v.getLsbD 0 := rfl
@[simp] theorem State.writeCtrl_done (v : Word) : (s.writeCtrl v).done = s.done := rfl
@[simp] theorem State.writeCtrl_err (v : Word) : (s.writeCtrl v).err = s.err := rfl
@[simp] theorem State.writeCtrl_accErr (v : Word) : (s.writeCtrl v).accErr = s.accErr := rfl
@[simp] theorem State.writeCtrl_phase (v : Word) : (s.writeCtrl v).phase = s.phase := rfl
@[simp] theorem State.writeCtrl_params (v : Word) : (s.writeCtrl v).params = s.params := rfl
@[simp] theorem State.writeCtrl_inputs (v : Word) : (s.writeCtrl v).inputs = s.inputs := rfl
@[simp] theorem State.writeCtrl_answers (v : Word) : (s.writeCtrl v).answers = s.answers := rfl
@[simp] theorem State.writeCtrl_entropy (v : Word) : (s.writeCtrl v).entropy = s.entropy := rfl
@[simp] theorem State.writeCtrl_draws (v : Word) : (s.writeCtrl v).draws = s.draws := rfl

/-! ### `State.setKeyIv` -/

@[simp] theorem State.setKeyIv_key (k v : Block) : (s.setKeyIv k v).key = k := rfl
@[simp] theorem State.setKeyIv_iv (k v : Block) : (s.setKeyIv k v).iv = v := rfl
@[simp] theorem State.setKeyIv_salt (k v : Block) : (s.setKeyIv k v).salt = s.salt := rfl
@[simp] theorem State.setKeyIv_pw (k v : Block) : (s.setKeyIv k v).pw = s.pw := rfl
@[simp] theorem State.setKeyIv_pwLen (k v : Block) : (s.setKeyIv k v).pwLen = s.pwLen := rfl
@[simp] theorem State.setKeyIv_inp (k v : Block) : (s.setKeyIv k v).inp = s.inp := rfl
@[simp] theorem State.setKeyIv_inLen (k v : Block) : (s.setKeyIv k v).inLen = s.inLen := rfl
@[simp] theorem State.setKeyIv_out (k v : Block) : (s.setKeyIv k v).out = s.out := rfl
@[simp] theorem State.setKeyIv_outLen (k v : Block) : (s.setKeyIv k v).outLen = s.outLen := rfl
@[simp] theorem State.setKeyIv_ie (k v : Block) : (s.setKeyIv k v).ie = s.ie := rfl
@[simp] theorem State.setKeyIv_done (k v : Block) : (s.setKeyIv k v).done = s.done := rfl
@[simp] theorem State.setKeyIv_err (k v : Block) : (s.setKeyIv k v).err = s.err := rfl
@[simp] theorem State.setKeyIv_accErr (k v : Block) : (s.setKeyIv k v).accErr = s.accErr := rfl
@[simp] theorem State.setKeyIv_phase (k v : Block) : (s.setKeyIv k v).phase = s.phase := rfl
@[simp] theorem State.setKeyIv_params (k v : Block) : (s.setKeyIv k v).params = s.params := rfl
@[simp] theorem State.setKeyIv_inputs (k v : Block) : (s.setKeyIv k v).inputs = s.inputs := rfl
@[simp] theorem State.setKeyIv_answers (k v : Block) : (s.setKeyIv k v).answers = s.answers := rfl
@[simp] theorem State.setKeyIv_entropy (k v : Block) : (s.setKeyIv k v).entropy = s.entropy := rfl
@[simp] theorem State.setKeyIv_draws (k v : Block) : (s.setKeyIv k v).draws = s.draws := rfl

/-! ### `State.zeroizeInputs` -/

@[simp] theorem State.zeroizeInputs_key : (s.zeroizeInputs).key = blockOf [] := rfl
@[simp] theorem State.zeroizeInputs_iv : (s.zeroizeInputs).iv = blockOf [] := rfl
@[simp] theorem State.zeroizeInputs_salt : (s.zeroizeInputs).salt = arrayOf 8 [] := rfl
@[simp] theorem State.zeroizeInputs_pw : (s.zeroizeInputs).pw = Memory.zeros := rfl
@[simp] theorem State.zeroizeInputs_pwLen : (s.zeroizeInputs).pwLen = 0 := rfl
@[simp] theorem State.zeroizeInputs_inp : (s.zeroizeInputs).inp = Memory.zeros := rfl
@[simp] theorem State.zeroizeInputs_inLen : (s.zeroizeInputs).inLen = 0 := rfl
@[simp] theorem State.zeroizeInputs_out : (s.zeroizeInputs).out = s.out := rfl
@[simp] theorem State.zeroizeInputs_outLen : (s.zeroizeInputs).outLen = s.outLen := rfl
@[simp] theorem State.zeroizeInputs_ie : (s.zeroizeInputs).ie = s.ie := rfl
@[simp] theorem State.zeroizeInputs_done : (s.zeroizeInputs).done = s.done := rfl
@[simp] theorem State.zeroizeInputs_err : (s.zeroizeInputs).err = s.err := rfl
@[simp] theorem State.zeroizeInputs_accErr : (s.zeroizeInputs).accErr = s.accErr := rfl
@[simp] theorem State.zeroizeInputs_phase : (s.zeroizeInputs).phase = s.phase := rfl
@[simp] theorem State.zeroizeInputs_params : (s.zeroizeInputs).params = s.params := rfl
@[simp] theorem State.zeroizeInputs_inputs : (s.zeroizeInputs).inputs = s.inputs := rfl
@[simp] theorem State.zeroizeInputs_answers : (s.zeroizeInputs).answers = s.answers := rfl
@[simp] theorem State.zeroizeInputs_entropy : (s.zeroizeInputs).entropy = s.entropy := rfl
@[simp] theorem State.zeroizeInputs_draws : (s.zeroizeInputs).draws = s.draws := rfl

/-! ### `State.complete` -/

@[simp] theorem State.complete_key (r : Bytes) : (s.complete r).key = s.key := rfl
@[simp] theorem State.complete_iv (r : Bytes) : (s.complete r).iv = s.iv := rfl
@[simp] theorem State.complete_salt (r : Bytes) : (s.complete r).salt = s.salt := rfl
@[simp] theorem State.complete_pw (r : Bytes) : (s.complete r).pw = s.pw := rfl
@[simp] theorem State.complete_pwLen (r : Bytes) : (s.complete r).pwLen = s.pwLen := rfl
@[simp] theorem State.complete_inp (r : Bytes) : (s.complete r).inp = s.inp := rfl
@[simp] theorem State.complete_inLen (r : Bytes) : (s.complete r).inLen = s.inLen := rfl
@[simp] theorem State.complete_out (r : Bytes) : (s.complete r).out = Memory.ofBytes r := rfl
@[simp] theorem State.complete_outLen (r : Bytes) : (s.complete r).outLen = BitVec.ofNat 32 r.length := rfl
@[simp] theorem State.complete_ie (r : Bytes) : (s.complete r).ie = s.ie := rfl
@[simp] theorem State.complete_done (r : Bytes) : (s.complete r).done = true := rfl
@[simp] theorem State.complete_err (r : Bytes) : (s.complete r).err = 0 := rfl
@[simp] theorem State.complete_accErr (r : Bytes) : (s.complete r).accErr = s.accErr := rfl
@[simp] theorem State.complete_phase (r : Bytes) : (s.complete r).phase = .idle := rfl
@[simp] theorem State.complete_params (r : Bytes) : (s.complete r).params = s.params := rfl
@[simp] theorem State.complete_inputs (r : Bytes) : (s.complete r).inputs = s.inputs := rfl
@[simp] theorem State.complete_answers (r : Bytes) : (s.complete r).answers = s.answers := rfl
@[simp] theorem State.complete_entropy (r : Bytes) : (s.complete r).entropy = s.entropy := rfl
@[simp] theorem State.complete_draws (r : Bytes) : (s.complete r).draws = s.draws := rfl

/-! ### `State.fail` -/

@[simp] theorem State.fail_key (e : ErrKind) : (s.fail e).key = s.key := rfl
@[simp] theorem State.fail_iv (e : ErrKind) : (s.fail e).iv = s.iv := rfl
@[simp] theorem State.fail_salt (e : ErrKind) : (s.fail e).salt = s.salt := rfl
@[simp] theorem State.fail_pw (e : ErrKind) : (s.fail e).pw = s.pw := rfl
@[simp] theorem State.fail_pwLen (e : ErrKind) : (s.fail e).pwLen = s.pwLen := rfl
@[simp] theorem State.fail_inp (e : ErrKind) : (s.fail e).inp = s.inp := rfl
@[simp] theorem State.fail_inLen (e : ErrKind) : (s.fail e).inLen = s.inLen := rfl
@[simp] theorem State.fail_out (e : ErrKind) : (s.fail e).out = Memory.zeros := rfl
@[simp] theorem State.fail_outLen (e : ErrKind) : (s.fail e).outLen = 0 := rfl
@[simp] theorem State.fail_ie (e : ErrKind) : (s.fail e).ie = s.ie := rfl
@[simp] theorem State.fail_done (e : ErrKind) : (s.fail e).done = true := rfl
@[simp] theorem State.fail_err (e : ErrKind) : (s.fail e).err = e.code := rfl
@[simp] theorem State.fail_accErr (e : ErrKind) : (s.fail e).accErr = s.accErr := rfl
@[simp] theorem State.fail_phase (e : ErrKind) : (s.fail e).phase = .idle := rfl
@[simp] theorem State.fail_params (e : ErrKind) : (s.fail e).params = s.params := rfl
@[simp] theorem State.fail_inputs (e : ErrKind) : (s.fail e).inputs = s.inputs := rfl
@[simp] theorem State.fail_answers (e : ErrKind) : (s.fail e).answers = s.answers := rfl
@[simp] theorem State.fail_entropy (e : ErrKind) : (s.fail e).entropy = s.entropy := rfl
@[simp] theorem State.fail_draws (e : ErrKind) : (s.fail e).draws = s.draws := rfl

/-! ### `State.accept` -/

@[simp] theorem State.accept_key (w : Word) : (s.accept w).key = s.key := rfl
@[simp] theorem State.accept_iv (w : Word) : (s.accept w).iv = s.iv := rfl
@[simp] theorem State.accept_salt (w : Word) : (s.accept w).salt = s.salt := rfl
@[simp] theorem State.accept_pw (w : Word) : (s.accept w).pw = s.pw := rfl
@[simp] theorem State.accept_pwLen (w : Word) : (s.accept w).pwLen = s.pwLen := rfl
@[simp] theorem State.accept_inp (w : Word) : (s.accept w).inp = s.inp := rfl
@[simp] theorem State.accept_inLen (w : Word) : (s.accept w).inLen = s.inLen := rfl
@[simp] theorem State.accept_out (w : Word) : (s.accept w).out = s.out := rfl
@[simp] theorem State.accept_outLen (w : Word) : (s.accept w).outLen = s.outLen := rfl
@[simp] theorem State.accept_ie (w : Word) : (s.accept w).ie = s.ie := rfl
@[simp] theorem State.accept_done (w : Word) : (s.accept w).done = false := rfl
@[simp] theorem State.accept_err (w : Word) : (s.accept w).err = 0 := rfl
@[simp] theorem State.accept_accErr (w : Word) : (s.accept w).accErr = s.accErr := rfl
@[simp] theorem State.accept_phase (w : Word) : (s.accept w).phase = .busy w := rfl
@[simp] theorem State.accept_params (w : Word) : (s.accept w).params = s.params := rfl
@[simp] theorem State.accept_inputs (w : Word) : (s.accept w).inputs = s.inputs := rfl
@[simp] theorem State.accept_answers (w : Word) : (s.accept w).answers = s.answers := rfl
@[simp] theorem State.accept_entropy (w : Word) : (s.accept w).entropy = s.entropy := rfl
@[simp] theorem State.accept_draws (w : Word) : (s.accept w).draws = s.draws := rfl

/-! ### `State.resetEvent` -/

@[simp] theorem State.resetEvent_key : (s.resetEvent).key = State.reset.key := rfl
@[simp] theorem State.resetEvent_iv : (s.resetEvent).iv = State.reset.iv := rfl
@[simp] theorem State.resetEvent_salt : (s.resetEvent).salt = State.reset.salt := rfl
@[simp] theorem State.resetEvent_pw : (s.resetEvent).pw = State.reset.pw := rfl
@[simp] theorem State.resetEvent_pwLen : (s.resetEvent).pwLen = State.reset.pwLen := rfl
@[simp] theorem State.resetEvent_inp : (s.resetEvent).inp = State.reset.inp := rfl
@[simp] theorem State.resetEvent_inLen : (s.resetEvent).inLen = State.reset.inLen := rfl
@[simp] theorem State.resetEvent_out : (s.resetEvent).out = State.reset.out := rfl
@[simp] theorem State.resetEvent_outLen : (s.resetEvent).outLen = State.reset.outLen := rfl
@[simp] theorem State.resetEvent_ie : (s.resetEvent).ie = State.reset.ie := rfl
@[simp] theorem State.resetEvent_done : (s.resetEvent).done = State.reset.done := rfl
@[simp] theorem State.resetEvent_err : (s.resetEvent).err = State.reset.err := rfl
@[simp] theorem State.resetEvent_accErr : (s.resetEvent).accErr = State.reset.accErr := rfl
@[simp] theorem State.resetEvent_phase : (s.resetEvent).phase = State.reset.phase := rfl
@[simp] theorem State.resetEvent_params : (s.resetEvent).params = s.params := rfl
@[simp] theorem State.resetEvent_inputs : (s.resetEvent).inputs = s.inputs := rfl
@[simp] theorem State.resetEvent_answers : (s.resetEvent).answers = s.answers := rfl
@[simp] theorem State.resetEvent_entropy : (s.resetEvent).entropy = s.entropy := rfl
@[simp] theorem State.resetEvent_draws : (s.resetEvent).draws = s.draws := rfl

/-! ### `State.answer` -/

@[simp] theorem State.answer_key (a : Answer) : (s.answer a).key = s.key := rfl
@[simp] theorem State.answer_iv (a : Answer) : (s.answer a).iv = s.iv := rfl
@[simp] theorem State.answer_salt (a : Answer) : (s.answer a).salt = s.salt := rfl
@[simp] theorem State.answer_pw (a : Answer) : (s.answer a).pw = s.pw := rfl
@[simp] theorem State.answer_pwLen (a : Answer) : (s.answer a).pwLen = s.pwLen := rfl
@[simp] theorem State.answer_inp (a : Answer) : (s.answer a).inp = s.inp := rfl
@[simp] theorem State.answer_inLen (a : Answer) : (s.answer a).inLen = s.inLen := rfl
@[simp] theorem State.answer_out (a : Answer) : (s.answer a).out = s.out := rfl
@[simp] theorem State.answer_outLen (a : Answer) : (s.answer a).outLen = s.outLen := rfl
@[simp] theorem State.answer_ie (a : Answer) : (s.answer a).ie = s.ie := rfl
@[simp] theorem State.answer_done (a : Answer) : (s.answer a).done = s.done := rfl
@[simp] theorem State.answer_err (a : Answer) : (s.answer a).err = s.err := rfl
@[simp] theorem State.answer_accErr (a : Answer) : (s.answer a).accErr = s.accErr := rfl
@[simp] theorem State.answer_phase (a : Answer) : (s.answer a).phase = s.phase := rfl
@[simp] theorem State.answer_params (a : Answer) : (s.answer a).params = s.params := rfl
@[simp] theorem State.answer_inputs (a : Answer) : (s.answer a).inputs = s.inputs := rfl
@[simp] theorem State.answer_answers (a : Answer) : (s.answer a).answers = a :: s.answers := rfl
@[simp] theorem State.answer_entropy (a : Answer) : (s.answer a).entropy = s.entropy := rfl
@[simp] theorem State.answer_draws (a : Answer) : (s.answer a).draws = s.draws := rfl

/-! ### `State.takeDraw` -/

@[simp] theorem State.takeDraw_key : (s.takeDraw).key = s.key := rfl
@[simp] theorem State.takeDraw_iv : (s.takeDraw).iv = s.iv := rfl
@[simp] theorem State.takeDraw_salt : (s.takeDraw).salt = s.salt := rfl
@[simp] theorem State.takeDraw_pw : (s.takeDraw).pw = s.pw := rfl
@[simp] theorem State.takeDraw_pwLen : (s.takeDraw).pwLen = s.pwLen := rfl
@[simp] theorem State.takeDraw_inp : (s.takeDraw).inp = s.inp := rfl
@[simp] theorem State.takeDraw_inLen : (s.takeDraw).inLen = s.inLen := rfl
@[simp] theorem State.takeDraw_out : (s.takeDraw).out = s.out := rfl
@[simp] theorem State.takeDraw_outLen : (s.takeDraw).outLen = s.outLen := rfl
@[simp] theorem State.takeDraw_ie : (s.takeDraw).ie = s.ie := rfl
@[simp] theorem State.takeDraw_done : (s.takeDraw).done = s.done := rfl
@[simp] theorem State.takeDraw_err : (s.takeDraw).err = s.err := rfl
@[simp] theorem State.takeDraw_accErr : (s.takeDraw).accErr = s.accErr := rfl
@[simp] theorem State.takeDraw_phase : (s.takeDraw).phase = s.phase := rfl
@[simp] theorem State.takeDraw_params : (s.takeDraw).params = s.params := rfl
@[simp] theorem State.takeDraw_inputs : (s.takeDraw).inputs = s.inputs := rfl
@[simp] theorem State.takeDraw_answers : (s.takeDraw).answers = s.answers := rfl
@[simp] theorem State.takeDraw_entropy : (s.takeDraw).entropy = s.entropy.tail := rfl
@[simp] theorem State.takeDraw_draws : (s.takeDraw).draws = s.draws + 1 := rfl

/-! ### `State.popInput` -/

@[simp] theorem State.popInput_key : (s.popInput).key = s.key := rfl
@[simp] theorem State.popInput_iv : (s.popInput).iv = s.iv := rfl
@[simp] theorem State.popInput_salt : (s.popInput).salt = s.salt := rfl
@[simp] theorem State.popInput_pw : (s.popInput).pw = s.pw := rfl
@[simp] theorem State.popInput_pwLen : (s.popInput).pwLen = s.pwLen := rfl
@[simp] theorem State.popInput_inp : (s.popInput).inp = s.inp := rfl
@[simp] theorem State.popInput_inLen : (s.popInput).inLen = s.inLen := rfl
@[simp] theorem State.popInput_out : (s.popInput).out = s.out := rfl
@[simp] theorem State.popInput_outLen : (s.popInput).outLen = s.outLen := rfl
@[simp] theorem State.popInput_ie : (s.popInput).ie = s.ie := rfl
@[simp] theorem State.popInput_done : (s.popInput).done = s.done := rfl
@[simp] theorem State.popInput_err : (s.popInput).err = s.err := rfl
@[simp] theorem State.popInput_accErr : (s.popInput).accErr = s.accErr := rfl
@[simp] theorem State.popInput_phase : (s.popInput).phase = s.phase := rfl
@[simp] theorem State.popInput_params : (s.popInput).params = s.params := rfl
@[simp] theorem State.popInput_inputs : (s.popInput).inputs = s.inputs.tail := rfl
@[simp] theorem State.popInput_answers : (s.popInput).answers = s.answers := rfl
@[simp] theorem State.popInput_entropy : (s.popInput).entropy = s.entropy := rfl
@[simp] theorem State.popInput_draws : (s.popInput).draws = s.draws := rfl

/-! ### `State.withPending` -/

@[simp] theorem State.withPending_key (w : Word) : (s.withPending w).key = s.key := rfl
@[simp] theorem State.withPending_iv (w : Word) : (s.withPending w).iv = s.iv := rfl
@[simp] theorem State.withPending_salt (w : Word) : (s.withPending w).salt = s.salt := rfl
@[simp] theorem State.withPending_pw (w : Word) : (s.withPending w).pw = s.pw := rfl
@[simp] theorem State.withPending_pwLen (w : Word) : (s.withPending w).pwLen = s.pwLen := rfl
@[simp] theorem State.withPending_inp (w : Word) : (s.withPending w).inp = s.inp := rfl
@[simp] theorem State.withPending_inLen (w : Word) : (s.withPending w).inLen = s.inLen := rfl
@[simp] theorem State.withPending_out (w : Word) : (s.withPending w).out = s.out := rfl
@[simp] theorem State.withPending_outLen (w : Word) : (s.withPending w).outLen = s.outLen := rfl
@[simp] theorem State.withPending_ie (w : Word) : (s.withPending w).ie = s.ie := rfl
@[simp] theorem State.withPending_done (w : Word) : (s.withPending w).done = s.done := rfl
@[simp] theorem State.withPending_err (w : Word) : (s.withPending w).err = s.err := rfl
@[simp] theorem State.withPending_accErr (w : Word) : (s.withPending w).accErr = s.accErr := rfl
@[simp] theorem State.withPending_phase (w : Word) : (s.withPending w).phase = .busy w := rfl
@[simp] theorem State.withPending_params (w : Word) : (s.withPending w).params = s.params := rfl
@[simp] theorem State.withPending_inputs (w : Word) : (s.withPending w).inputs = .core :: s.inputs := rfl
@[simp] theorem State.withPending_answers (w : Word) : (s.withPending w).answers = s.answers := rfl
@[simp] theorem State.withPending_entropy (w : Word) : (s.withPending w).entropy = s.entropy := rfl
@[simp] theorem State.withPending_draws (w : Word) : (s.withPending w).draws = s.draws := rfl

end Sys2Proof.Machine
end

