-- ==== Sys2Proof/Laws/Ops.lean ====
section
/-! SUPPORT. What each shared operation can do, said once: flags, completion, and the host port. -/

namespace Sys2Proof.Machine

/-! ### Flags (10_state.md rules R28, R29) -/

/-- A write of `STATUS` touches `DONE`, `ERR` and `ACCERR` only, each as its bit says. -/
theorem State.writeStatus_eq (v : Word) (s : State) :
    s.writeStatus v =
      { s with
        done := if v.getLsbD 1 then false else s.done
        err := if v.getLsbD 1 then 0 else s.err
        accErr := if v.getLsbD 2 then false else s.accErr } := by
  unfold State.writeStatus
  cases v.getLsbD 1 <;> cases v.getLsbD 2 <;> rfl

@[simp] theorem State.isBusy_idle {s : State} (h : s.phase = .idle) : s.isBusy = false := by
  simp [State.isBusy, h]

@[simp] theorem State.isBusy_busy {s : State} {w : Word} (h : s.phase = .busy w) : s.isBusy = true := by
  simp [State.isBusy, h]

theorem State.isBusy_iff {s : State} : s.isBusy = true ↔ ∃ w, s.phase = .busy w := by
  cases h : s.phase <;> simp [State.isBusy, h]

/-! ### Completion (60_exceptions.md rules R235, R236) -/

/-- A completion ends idle and done, whatever the result. -/
theorem State.finish_idle_done (r : Except ErrKind Bytes) (s : State) :
    (s.finish r).phase = .idle ∧ (s.finish r).done = true := by
  cases r <;> exact ⟨rfl, rfl⟩

/-- A completion touches `OUT`, `OUTLEN`, `ERR`, `DONE` and `PHASE` only. -/
theorem State.finish_frame (r : Except ErrKind Bytes) (s : State) :
    ∃ o l e, s.finish r = { s with out := o, outLen := l, err := e, done := true, phase := .idle } := by
  cases r with
  | ok b => exact ⟨_, _, _, rfl⟩
  | error e => exact ⟨_, _, _, rfl⟩

/-! ### The host port (20_memory.md rules R52 to R58) -/

theorem regionAt_some {p : Params} {a n : Nat} {r : Region} (h : regionAt p a n = some r) :
    r ∈ addressMap p ∧ r.base ≤ a ∧ a + n ≤ r.base + r.size := by
  have hm := List.mem_of_find?_eq_some h
  have hc := List.find?_some h
  simp only [Region.covers, Bool.and_eq_true, decide_eq_true_eq] at hc
  exact ⟨hm, hc⟩

/-- A well-formed access falls in a row that allows its size and its direction. -/
theorem accessWellFormed_region {p : Params} {op : HostOp} (h : accessWellFormed p op = true) :
    ∃ r, regionAt p op.addr.toNat op.size = some r ∧ op.size ∈ r.sizes ∧ (op.isWrite = true → r.writable = true) := by
  simp only [accessWellFormed, Bool.and_eq_true] at h
  cases hr : regionAt p op.addr.toNat op.size with
  | none => simp [hr] at h
  | some r =>
    simp only [hr, Bool.and_eq_true, Bool.or_eq_true, List.contains_iff_mem] at h
    refine ⟨r, rfl, h.2.1, fun hw => ?_⟩
    rcases h.2.2 with h' | h'
    · exact h'
    · simp [hw] at h'

/-- Everything a host access can do: it is refused, it reads (and only the answer is added), or it writes the row. -/
theorem State.hostAccess_cases (op : HostOp) (s : State) :
    ((accessWellFormed s.params op = false ∨ s.admits op = false) ∧ s.hostAccess op = s.refuse) ∨
    (accessWellFormed s.params op = true ∧ s.admits op = true ∧ ∃ r, regionAt s.params op.addr.toNat op.size = some r ∧
      ((∃ a n, op = .read a n ∧ s.hostAccess op = s.answer (.data (s.rowGet r a.toNat n))) ∨
       (∃ a n v, op = .write a n v ∧ r.writable = true ∧
          s.hostAccess op = (s.rowSet r a.toNat n v).answer .ok))) := by
  by_cases hw : accessWellFormed s.params op = true
  · by_cases ha : s.admits op = true
    · obtain ⟨r, hr, _, hwr⟩ := accessWellFormed_region hw
      refine .inr ⟨hw, ha, r, hr, ?_⟩
      cases op with
      | read a n => exact .inl ⟨a, n, rfl, by simp [State.hostAccess, hw, ha, hr]⟩
      | write a n v => exact .inr ⟨a, n, v, rfl, hwr rfl, by simp [State.hostAccess, hw, ha, hr]⟩
    · exact .inl ⟨.inr (by simpa using ha), by simp [State.hostAccess, ha]⟩
  · exact .inl ⟨.inl (by simpa using hw), by simp [State.hostAccess, hw]⟩

/-- Only an idle DCC is written to: the one access admitted while busy is a read. -/
theorem State.admits_write_idle {s : State} {a : BitVec 18} {n : Nat} {v : Word}
    (h : s.admits (.write a n v) = true) : s.isBusy = false := by
  simpa [State.admits] using h

/-- The rows a write may fall in, and what the write then does (R54, R56). -/
theorem State.rowSet_cases (s : State) (r : Region) (a n : Nat) (v : Word) :
    (∃ c, r.target = .ctl c ∧ s.rowSet r a n v = s.ctlSet c v) ∨
    (∃ x, r.target = .arr x ∧ s.rowSet r a n v = s.arraySet x (a - r.base) (leBytes n v.toNat)) := by
  cases h : r.target with
  | ctl c => exact .inl ⟨c, rfl, by simp [State.rowSet, h]⟩
  | arr x => exact .inr ⟨x, rfl, by simp [State.rowSet, h]⟩

end Sys2Proof.Machine
end

