-- ==== Sys2Proof/Laws/Exec.lean ====
section
/-! SUPPORT. What each command can do, said once: if it answers a next state, that state is one of these completions. -/

namespace Sys2Proof.Machine

theorem execDerive_cases {s t : State} (h : execDerive s = .next t) :
    (s.passwordFits = false ∧ t = s.fail .lengthError) ∨
    (s.passwordFits = true ∧
      t = (s.setKeyIv (deriveKeyIv s.password s.salt).1 (deriveKeyIv s.password s.salt).2).complete []) := by
  unfold execDerive at h
  cases hp : s.passwordFits <;> simp only [hp, if_true, Bool.false_eq_true, if_false] at h <;> cases h
  · exact .inl ⟨rfl, rfl⟩
  · exact .inr ⟨rfl, rfl⟩

theorem execEncrypt_cases {s t : State} (h : execEncrypt s = .next t) :
    ((s.dataFits && s.resultFits (padLen s.inLen.toNat)) = false ∧ t = s.fail .lengthError) ∨
    ((s.dataFits && s.resultFits (padLen s.inLen.toNat)) = true ∧ t = s.complete (encrypt s.dataIn s.key s.iv)) := by
  unfold execEncrypt at h
  cases hp : (s.dataFits && s.resultFits (padLen s.inLen.toNat)) <;>
    simp only [hp, if_true, Bool.false_eq_true, if_false] at h <;> cases h
  · exact .inl ⟨rfl, rfl⟩
  · exact .inr ⟨rfl, rfl⟩

theorem execDecrypt_cases {s t : State} (h : execDecrypt s = .next t) :
    (s.dataFits = false ∧ t = s.fail .lengthError) ∨
    (s.dataFits = true ∧ t = s.finish (decrypt s.params.emptyCt s.dataIn s.key s.iv)) := by
  unfold execDecrypt at h
  cases hp : s.dataFits <;> simp only [hp, if_true, Bool.false_eq_true, if_false] at h <;> cases h
  · exact .inl ⟨rfl, rfl⟩
  · exact .inr ⟨rfl, rfl⟩

theorem execSeal_cases {s t : State} (h : execSeal s = .next t) :
    ((s.passwordFits && s.dataFits && s.resultFits (16 + padLen s.inLen.toNat)) = false ∧ t = s.fail .lengthError) ∨
    ((s.passwordFits && s.dataFits && s.resultFits (16 + padLen s.inLen.toNat)) = true ∧
      t = s.takeDraw.complete (sealBytes s.dataIn s.password s.nextDraw)) := by
  unfold execSeal at h
  cases hp : (s.passwordFits && s.dataFits && s.resultFits (16 + padLen s.inLen.toNat)) <;>
    simp only [hp, if_true, Bool.false_eq_true, if_false] at h <;> cases h
  · exact .inl ⟨rfl, rfl⟩
  · exact .inr ⟨rfl, rfl⟩

theorem execOpen_cases {s t : State} (h : execOpen s = .next t) :
    ((s.passwordFits && s.dataFits) = false ∧ t = s.fail .lengthError) ∨
    ((s.passwordFits && s.dataFits) = true ∧ t = s.finish (openBytes s.params s.dataIn s.password)) := by
  unfold execOpen at h
  cases hp : (s.passwordFits && s.dataFits) <;> simp only [hp, if_true, Bool.false_eq_true, if_false] at h <;> cases h
  · exact .inl ⟨rfl, rfl⟩
  · exact .inr ⟨rfl, rfl⟩

theorem execClear_cases {s t : State} (h : execClear s = .next t) : t = s.zeroizeInputs.complete [] := by
  cases h; rfl

/-- The lengths of the operands as the pure functions see them. -/
@[simp] theorem State.dataIn_length (s : State) : s.dataIn.length = s.inLen.toNat := by simp [State.dataIn]

@[simp] theorem State.password_length (s : State) : s.password.length = s.pwLen.toNat := by simp [State.password]

end Sys2Proof.Machine
end

