-- ==== Sys2Proof/Laws/Step.lean ====
section
/-! SUPPORT. What one step can do, said once: whose move it is, and what that agent does. -/

namespace Sys2Proof.Machine

theorem step_coreNext {s : State} (h : s.coreNext) : step s = coreTurn s.popInput := by
  rcases h with h | ⟨rest, h⟩
  · have : s.popInput = s := by simp [State.popInput, h]; cases s; simp_all
    simp [step, nextStep, h, this]
  · simp [step, nextStep, h]

theorem step_access {s : State} {op : HostOp} {rest : List Input} (h : s.inputs = .access op :: rest) :
    step s = .next (s.popInput.hostAccess op) := by simp [step, nextStep, h]

theorem step_reset {s : State} {rest : List Input} (h : s.inputs = .reset :: rest) :
    step s = .next s.popInput.resetEvent := by simp [step, nextStep, h]

/-- Everything a step can do. -/
theorem step_cases (s : State) :
    (∃ op rest, s.inputs = .access op :: rest ∧ step s = .next (s.popInput.hostAccess op)) ∨
    (∃ rest, s.inputs = .reset :: rest ∧ step s = .next s.popInput.resetEvent) ∨
    (s.coreNext ∧ s.phase = .idle ∧ step s = .next s.popInput) ∨
    (s.coreNext ∧ ∃ w, s.phase = .busy w ∧ step s = completionStep w s.popInput) := by
  have key : s.coreNext →
      (s.coreNext ∧ s.phase = .idle ∧ step s = .next s.popInput) ∨
      (s.coreNext ∧ ∃ w, s.phase = .busy w ∧ step s = completionStep w s.popInput) := by
    intro hc
    cases hp : s.phase with
    | idle => exact .inl ⟨hc, rfl, by simp [step_coreNext hc, coreTurn, hp]⟩
    | busy w => exact .inr ⟨hc, w, rfl, by simp [step_coreNext hc, coreTurn, hp]⟩
  cases hi : s.inputs with
  | nil => exact .inr (.inr (by simpa using key (.inl hi)))
  | cons x rest =>
    cases x with
    | access op => exact .inl ⟨op, rest, rfl, step_access hi⟩
    | reset => exact .inr (.inl ⟨rest, rfl, step_reset hi⟩)
    | core => exact .inr (.inr (by simpa using key (.inr ⟨rest, hi⟩)))

end Sys2Proof.Machine
end

