-- ==== Sys2Proof/Laws/HostScript.lean ====
section
/-! SUPPORT. What the parts of a host script do, said once: one move, one read, one turn of a `POLL`. -/

namespace Sys2Proof.Machine

/-- A move that is an access is that access at the port. -/
@[simp] theorem State.move_access (op : HostOp) (s : State) : s.move (.access op) = some (s.hostAccess op) := rfl

/-- A move that is the reset event is that event. -/
@[simp] theorem State.move_reset (s : State) : s.move .reset = some s.resetEvent := rfl

/-- A turn of the sequencer changes nothing while it is idle. -/
theorem State.move_core_idle {s : State} (h : s.phase = .idle) : s.move .core = some s := by
  have hc : coreTurn s = .next s := by simp only [coreTurn, h]
  change (match coreTurn s with | .next t => some t | .fault _ => none | .refused _ => none) = some s
  rw [hc]

/-- A turn of the sequencer is the completion step while a command is pending. -/
theorem State.move_core_busy {s t : State} {w : Word} (h : s.phase = .busy w) (ht : completionStep w s = .next t) :
    s.move .core = some t := by
  have hc : coreTurn s = .next t := by simp only [coreTurn, h, ht]
  change (match coreTurn s with | .next t => some t | .fault _ => none | .refused _ => none) = some t
  rw [hc]

/-- A read that yields a value is its access, and the value is the last answer. -/
theorem readValue_eq_some {op : HostOp} {s t : State} {v : Word} (h : readValue op s = some (v, t)) :
    t = s.hostAccess op ∧ ∃ rest, t.answers = .data v :: rest := by
  simp only [readValue, State.move_access, Option.bind_some] at h
  split at h
  · next v' rest ha => cases h; exact ⟨rfl, rest, ha⟩
  · cases h

/-- A `STATUS` read is admitted in every phase and answers the `STATUS` word (R53, R55). -/
@[simp] theorem State.hostAccess_statusRead (s : State) : s.hostAccess statusRead = s.answer (.data s.statusWord) := by
  have hw : accessWellFormed s.params statusRead = true := rfl
  have ha : s.admits statusRead = true := by
    have : statusRead = HostOp.read 0x00004 4 := rfl
    rw [this]; simp [State.admits]
  have hr : regionAt s.params statusRead.addr.toNat statusRead.size = some (ctlRow 0x00004 .status true) := rfl
  simp only [State.hostAccess, hw, ha, hr, Bool.and_self, if_true]
  rfl

@[simp] theorem readValue_statusRead (s : State) :
    readValue statusRead s = some (s.statusWord, s.answer (.data s.statusWord)) := by
  simp [readValue, State.answer]

/-- Bit 0 of the `STATUS` word is `BUSY` (R28). -/
@[simp] theorem State.statusWord_busy (s : State) : s.statusWord[0] = s.isBusy := by
  rw [← BitVec.getLsbD_eq_getElem]
  simp only [State.statusWord, BitVec.getLsbD_append]
  cases s.isBusy <;> rfl

/-- A run whose script leaves nothing pending ends in the state the script leaves (R16 (8)). -/
theorem endOfRun_idle {ls : List ScriptLine} {ts : List (List Bool)} {s t : State} (h : runScript ls ts s = some t)
    (hp : t.phase = .idle) : endOfRun ls ts s = some t := by
  simp [endOfRun, h, State.move_core_idle hp]

/-- A run whose script leaves a command pending ends with its completion step (R16 (8), R268). -/
theorem endOfRun_busy {ls : List ScriptLine} {ts : List (List Bool)} {s t u : State} {w : Word}
    (h : runScript ls ts s = some t) (hp : t.phase = .busy w) (hu : completionStep w t = .next u) :
    endOfRun ls ts s = some u := by
  simp [endOfRun, h, State.move_core_busy hp hu]

/-- The count a host writes fits a capacity exactly when the bytes do, however many they are (R216). -/
theorem lengthWord_le_iff {n cap : Nat} (h : cap < 2 ^ 32 - 1) : (lengthWord n).toNat ≤ cap ↔ n ≤ cap := by
  simp only [lengthWord, BitVec.toNat_ofNat]
  omega

/-- The records of `WRB` that do not run past the address space keep to their addresses (R86). -/
theorem wrb_addr {a : BitVec 18} {b : Bytes} (h : a.toNat + b.length ≤ 2 ^ 18) {op : HostOp} (hm : op ∈ wrb a b) :
    a.toNat ≤ op.addr.toNat ∧ op.addr.toNat < a.toNat + b.length := by
  induction b generalizing a with
  | nil => cases hm
  | cons x xs ih =>
    simp only [List.length_cons] at h ⊢
    rcases List.mem_cons.mp hm with rfl | hm
    · simp [wr8, HostOp.addr]
    · by_cases hx : xs = []
      · subst hx; cases hm
      · have : 0 < xs.length := List.length_pos_of_ne_nil hx
        have ha : (a + 1).toNat = a.toNat + 1 := by rw [BitVec.toNat_add]; simp; omega
        have := ih (by omega) hm
        omega

/-- One turn of a `POLL` without the sequencer: it goes on exactly while a command is pending. -/
theorem pollRun_false (turns : List Bool) (s : State) :
    pollRun (false :: turns) s =
      if s.isBusy then pollRun turns (s.answer (.data s.statusWord))
      else some (s.statusWord, s.answer (.data s.statusWord)) := by
  simp [pollRun]

end Sys2Proof.Machine
end

