-- ==== Sys2Proof/Laws/PerInstr.lean ====
section
/-! SUPPORT. Statements about every command as syntax, one lemma per constructor. -/

namespace Sys2Proof.Laws.EncodeShape

/-- The shape of a command word (30_encoding.md rules R80, R82): the reserved bits zero, the operation code from `0x01`
to `0x06`, four bytes on the port, and the command well-formed. -/
def Statement (i : Instr) : Prop :=
  i.wf = true ∧ rsvField (encode i) = 0 ∧ 1 ≤ (opField (encode i)).toNat ∧ (opField (encode i)).toNat ≤ 6 ∧
    (encodeBytes i).length = 4

theorem deriveCmd : Statement .deriveCmd := by unfold Statement; decide

theorem encryptCmd : Statement .encryptCmd := by unfold Statement; decide

theorem decryptCmd : Statement .decryptCmd := by unfold Statement; decide

theorem sealCmd : Statement .sealCmd := by unfold Statement; decide

theorem openCmd : Statement .openCmd := by unfold Statement; decide

theorem clearCmd : Statement .clearCmd := by unfold Statement; decide

end Sys2Proof.Laws.EncodeShape
end

