-- ==== Sys2Proof/Machine/PublicOps.lean ====
section
/-! DEFINITION. The source's public operations, as a host runs them on the DCC (45_clear_and_host_framing.md rules R211,
R214 to R217). They are host software: a step knows nothing of them.

Each takes the schedule of its one `POLL` and the state of the DCC, and gives its outcome, a result or the code of a typed
failure (R230), with the state it leaves. `none` says that the schedule has run out before the command completed. None of them removes the secrets it has loaded (R267 (b)): log
entry 21. -/

namespace Sys2Proof.Machine

/-- `encryptBytes(plaintext, password)`: the password's UTF-8 bytes (R217), SEAL, the container (R211, R214). A file variant
is this operation on the file's whole content, and so fails with `LengthError` above `BUF_MAX - 17` bytes (R216). -/
def encryptBytes (plaintext : Bytes) (password : List Char) (turns : List Bool) (s : State) :
    Option (Except (BitVec 4) Bytes × State) := byteOperation .sealCmd plaintext (utf8 password) turns s

/-- `decryptBytes(container, password)`: the password's UTF-8 bytes (R217), OPEN, the plaintext (R211, R214). A file variant
is this operation on the file's whole content, and so fails with `LengthError` above `BUF_MAX` bytes (R216). -/
def decryptBytes (container : Bytes) (password : List Char) (turns : List Bool) (s : State) :
    Option (Except (BitVec 4) Bytes × State) := byteOperation .openCmd container (utf8 password) turns s

/-- `encryptString(text, password) = Base64Encode(encryptBytes(Utf8(text), password))`; a typed failure of `encryptBytes` is
passed on (R211, R215). -/
def encryptString (text password : List Char) (turns : List Bool) (s : State) :
    Option (Except (BitVec 4) (List Char) × State) :=
  (encryptBytes (utf8 text) password turns s).map fun r => (r.1.map base64Encode, r.2)

/-- `decryptString(encoded, password) = Utf8Inverse(decryptBytes(Base64Decode(encoded), password))`; a typed failure of
`decryptBytes` is passed on (R211, R215). Also `none` where the spec decides nothing: text that is not Base64, plaintext
that is not UTF-8 (R213, 91_not_in_source.md N22, N23; log entry 16). -/
def decryptString (encoded password : List Char) (turns : List Bool) (s : State) :
    Option (Except (BitVec 4) (List Char) × State) :=
  (base64Decode encoded).bind fun c =>
    (decryptBytes c password turns s).bind fun r =>
      match r.1 with
      | .error e => some (.error e, r.2)
      | .ok b => (utf8Inverse b).map fun t => (.ok t, r.2)

end Sys2Proof.Machine
end

