-- ==== Sys2Proof/Tests/Slice0.lean ====
section
/-! SUPPORT. The model's own tests. Every expected value is the spec's: a worked example of a rule, a row of
95_test_vectors.md or 96_test_vectors_more.md, or written out by hand from a rule's text. The second half shows, for each
statement that has hypotheses, a state and operands that meet them all. -/

namespace Sys2Proof.Tests

open Sys2Proof Sys2Proof.Machine

/-! ## Helpers -/

/-- The state of an outcome (every outcome of this machine is a next state). -/
def after : Host.Outcome State Fault Refusal → State
  | .next s => s
  | .fault _ => State.reset
  | .refused _ => State.reset

theorem exec_after (i : Instr) (s : State) : exec i s = .next (after (exec i s)) := by cases i <;> rfl

theorem completion_after (w : Word) (s : State) : completionStep w s = .next (after (completionStep w s)) := by
  unfold completionStep
  split
  · exact exec_after _ _
  · rfl

theorem step_after (s : State) : step s = .next (after (step s)) := by
  unfold step nextStep coreTurn
  split
  · rfl
  · rfl
  · split
    · exact completion_after _ _
    · rfl
  · split
    · exact completion_after _ _
    · rfl

/-- A state with a password loaded. -/
def withPw (p : Bytes) (s : State) : State := { s with pw := Memory.ofBytes p, pwLen := BitVec.ofNat 32 p.length }

/-- A state with a data input loaded. -/
def withIn (d : Bytes) (s : State) : State := { s with inp := Memory.ofBytes d, inLen := BitVec.ofNat 32 d.length }

/-- The bytes of the data output. -/
def outBytes (s : State) : Bytes := s.out.slice s.outLen.toNat

/-- What the port answers to one access. -/
def answerOf (op : HostOp) (s : State) : Option Answer := (s.hostAccess op).answers.head?

/-- `pw` (41_kdf.md R124). -/
def pwBytes : Bytes := [0x70, 0x77]

/-- `hello, world` (44_container.md R199). -/
def helloBytes : Bytes := [0x68, 0x65, 0x6C, 0x6C, 0x6F, 0x2C, 0x20, 0x77, 0x6F, 0x72, 0x6C, 0x64]

/-- The salt of R124. -/
def salt07 : Salt := #v[0x00, 0x01, 0x02, 0x03, 0x04, 0x05, 0x06, 0x07]

/-- The key of R124. -/
def keyK1 : Block :=
  #v[0xA5, 0x5F, 0x79, 0xAA, 0x00, 0xE8, 0xDD, 0x0E, 0x7D, 0x3C, 0xE2, 0x6E, 0xD4, 0x0D, 0x7C, 0xD3]

/-- The IV of R124. -/
def ivK1 : Block :=
  #v[0xA0, 0x29, 0xA7, 0x87, 0x18, 0x9B, 0x34, 0xD3, 0x0D, 0x90, 0x86, 0x09, 0x69, 0x00, 0x5F, 0xCB]

/-- The ciphertext of R172's example. -/
def cipher172 : Bytes :=
  [0x31, 0x8A, 0x10, 0x95, 0x6B, 0x92, 0x7E, 0xDA, 0xBB, 0x7B, 0xC8, 0xF1, 0x23, 0x26, 0xD6, 0x27]

/-- The container of R199. -/
def container199 : Bytes :=
  [0x53, 0x61, 0x6C, 0x74, 0x65, 0x64, 0x5F, 0x5F, 0x00, 0x01, 0x02, 0x03, 0x04, 0x05, 0x06, 0x07] ++ cipher172

/-- The state "K1" of 96_test_vectors_more.md section 2.4: after `DERIVE` of R124, idle, `DONE` set. -/
def stateK1 : State :=
  { withPw pwBytes State.reset with salt := salt07, key := keyK1, iv := ivK1, done := true }

/-- The least buffers of R7: `PW_MAX = 2`, `BUF_MAX = 32`. -/
def tiny : Params := { pwCap := 2, bufBlocks := 0, strictHeader := true, emptyCt := .empty }

/-! ## Well-formedness: each check refuses an ill-formed term -/

/-- R7: a password buffer too large, data buffers too small, too large, not a multiple of 16. -/
theorem test_illformed_params :
    Params.make? 4097 4096 false .fault = none ∧ Params.make? 256 16 false .fault = none ∧
    Params.make? 256 65552 false .fault = none ∧ Params.make? 256 40 false .fault = none := by decide

/-- R7: the default and the extreme legal values. -/
theorem test_wellformed_params :
    Params.make? 256 4096 false .fault = some Params.default ∧ (Params.make? 0 32 true .empty).isSome ∧
    ((Params.make? 4096 65536 true .fault).map fun p => (p.pwMax, p.bufMax)) = some (4096, 65536) := by decide

/-- R52 (a): three bytes, and none. -/
theorem test_illformed_size :
    HostOp.wf Params.default (.read 0x00020 3) = false ∧ HostOp.wf Params.default (.read 0x00020 0) = false := by decide

/-- R52 (b), 96_test_vectors_more.md HP5, HP6: not naturally aligned. -/
theorem test_illformed_alignment :
    HostOp.wf Params.default (.read 0x0002E 4) = false ∧ HostOp.wf Params.default (.read 0x00021 2) = false := by decide

/-- R52 (c), HP8, HP9, HP18, HP21, HP25: unmapped addresses. -/
theorem test_illformed_unmapped :
    HostOp.wf Params.default (.read 0x00048 4) = false ∧ HostOp.wf Params.default (.read 0x00018 4) = false ∧
    HostOp.wf Params.default (.read 0x01100 1) = false ∧ HostOp.wf Params.default (.read 0x11000 1) = false ∧
    HostOp.wf Params.default (.read 0x3FFFC 4) = false := by decide

/-- R52 (d), HP13, HP26, HP27, HP31: a size or a direction the row does not allow. -/
theorem test_illformed_row :
    HostOp.wf Params.default (.read 0x00004 1) = false ∧ HostOp.wf Params.default (.write 0x20000 1 0xAA) = false ∧
    HostOp.wf Params.default (.write 0x00014 4 5) = false ∧ HostOp.wf Params.default (.write 0x00008 1 1) = false := by
  decide

/-- R51: the first and last words of the rows are accesses the port knows. -/
theorem test_wellformed_access :
    HostOp.wf Params.default (.read 0x00000 4) = true ∧ HostOp.wf Params.default (.write 0x00044 4 0) = true ∧
    HostOp.wf Params.default (.write 0x010FF 1 0) = true ∧ HostOp.wf Params.default (.read 0x20FFC 4) = true := by decide

/-! ## Decoding: words written out bit by bit from R80 and R82 -/

/-- `OP` in bits 7:0, `RSV` zero in bits 31:8. -/
theorem test_decode_commands :
    decode 0b00000000000000000000000000000001#32 = .ok .deriveCmd ∧
    decode 0b00000000000000000000000000000010#32 = .ok .encryptCmd ∧
    decode 0b00000000000000000000000000000011#32 = .ok .decryptCmd ∧
    decode 0b00000000000000000000000000000100#32 = .ok .sealCmd ∧
    decode 0b00000000000000000000000000000101#32 = .ok .openCmd ∧
    decode 0b00000000000000000000000000000110#32 = .ok .clearCmd := by decide

/-- R83, R84: no operation code 0 or 7 and up, no reserved bit set. -/
theorem test_decode_illegal :
    decode 0x00000000 = .error .unassignedOp ∧ decode 0x00000007 = .error .unassignedOp ∧
    decode 0x000000FF = .error .unassignedOp ∧ decode 0x00000104 = .error .reservedBits ∧
    decode 0x80000001 = .error .reservedBits ∧ decodeBytes [0x01, 0x00, 0x00] = .error .tooShort := by decide

/-- A command word on the port: least significant byte first (R54, R59). -/
theorem test_encode_bytes : encodeBytes .sealCmd = [0x04, 0x00, 0x00, 0x00] := by decide

/-- The word of `withFetchWord` is the one the next step runs: an illegal word completes with code 4 (R237). -/
theorem test_fetch_word :
    (State.reset.withFetchWord 32 0x00000104).phase = .busy 0x00000104 ∧
    (after (step (State.reset.withFetchWord 32 0x00000104))).err = 4 ∧
    (after (step (State.reset.withFetchWord 32 0x00000104))).inputs = [] := by decide

/-! ## The primitives -/

/-- MD5 of `abc` (RFC 1321's suite, 96_test_vectors_more.md section 2.1). -/
theorem test_md5_abc : md5 [0x61, 0x62, 0x63] =
    #v[0x90, 0x01, 0x50, 0x98, 0x3C, 0xD2, 0x4F, 0xB0, 0xD6, 0x96, 0x3F, 0x7D, 0x28, 0xE1, 0x7F, 0x72] := by
  decide +kernel

/-- The padding of a 55-byte, a 56-byte and a 64-byte message (R101). -/
theorem test_md5_pad_lengths :
    (md5Pad (rep 0 55)).length = 64 ∧ (md5Pad (rep 0 56)).length = 128 ∧ (md5Pad (rep 0 64)).length = 128 := by
  simp [md5Pad, rep, md5ZeroCount, le64inv, leBytes]

/-- The examples of R140, R141, R142: the first round of R150. -/
theorem test_aes_round1 :
    let s : Block := #v[0x00, 0x10, 0x20, 0x30, 0x40, 0x50, 0x60, 0x70, 0x80, 0x90, 0xA0, 0xB0, 0xC0, 0xD0, 0xE0, 0xF0]
    mixColumns (shiftRows (subBytes s)) =
      #v[0x5F, 0x72, 0x64, 0x15, 0x57, 0xF5, 0xBC, 0x92, 0xF7, 0xBE, 0x3B, 0x29, 0x1D, 0xB9, 0xF9, 0x1A] := by
  decide

/-- R143's example column, and the multiplication of R136 that it rests on. -/
theorem test_aes_inverse_column :
    (invMixColumns (blockOf [0x04, 0x66, 0x81, 0xE5])).toList.take 4 = [0xD4, 0xBF, 0x5D, 0x30] := by decide

/-- R146's example: the last round key of the key `00 01 … 0F`. -/
theorem test_aes_last_round_key :
    (keyExpansion (Vector.ofFn fun i => BitVec.ofNat 8 i.val)).getD 10 (blockOf []) =
      #v[0x13, 0x11, 0x1D, 0x7F, 0xE3, 0x94, 0x4A, 0x17, 0xF3, 0x07, 0xA7, 0x8B, 0x4D, 0x2B, 0x30, 0xC5] := by
  decide

/-- The worked example R150. -/
theorem test_aes_encrypt_example :
    aesEncryptBlock (Vector.ofFn fun i => BitVec.ofNat 8 i.val) (Vector.ofFn fun i => BitVec.ofNat 8 (17 * i.val)) =
      #v[0x69, 0xC4, 0xE0, 0xD8, 0x6A, 0x7B, 0x04, 0x30, 0xD8, 0xCD, 0xB7, 0x80, 0x70, 0xB4, 0xC5, 0x5A] := by
  decide +kernel

/-- R166's and R167's examples: what padding adds, and what its check refuses. -/
theorem test_padding :
    pad helloBytes = helloBytes ++ [4, 4, 4, 4] ∧ pad [] = rep 16 16 ∧
    unpad (rep 0xAA 15 ++ [0x00]) = none ∧ unpad (rep 0xAA 15 ++ [0x11]) = none ∧
    unpad (rep 0xAA 14 ++ [0x03, 0x02]) = none ∧ unpad (0x0F :: rep 0x10 15) = none ∧
    unpad (rep 0xAA 14 ++ [0x02, 0x02]) = some (rep 0xAA 14) := by decide

/-- R215's example text, and a text that is no Base64. -/
theorem test_base64 :
    base64Encode container199 = "U2FsdGVkX18AAQIDBAUGBzGKEJVrkn7au3vI8SMm1ic=".toList ∧
    base64Decode "U2FsdGVkX1".toList = none ∧ base64Decode "U2FsdGVk".toList = some (header.take 6) := by
  decide

/-! ## The commands, one step each -/

/-- R123's example (the fixture R124). -/
theorem test_derive_example :
    let t := after (exec .deriveCmd { withPw pwBytes State.reset with salt := salt07 })
    t.key = keyK1 ∧ t.iv = ivK1 ∧ t.outLen = 0 ∧ t.statusWord = 0x00000002 := by decide +kernel

/-- R231: a password one byte too long fails and leaves `KEY`. -/
theorem test_derive_too_long :
    let t := after (exec .deriveCmd { stateK1 with pwLen := 257 })
    t.key = keyK1 ∧ t.statusWord = 0x00000052 := by decide

/-- R172's example. -/
theorem test_encrypt_example :
    outBytes (after (exec .encryptCmd (withIn helloBytes stateK1))) = cipher172 := by decide +kernel

/-- R231: the largest plaintext is `BUF_MAX - 1` bytes. -/
theorem test_encrypt_too_long :
    (after (exec .encryptCmd { State.reset with inLen := 4096 })).err = 5 ∧
    (after (exec .encryptCmd { State.reset with inLen := 4095 })).err = 0 := by decide

/-- R173's example. -/
theorem test_decrypt_example :
    outBytes (after (exec .decryptCmd (withIn cipher172 stateK1))) = helloBytes := by decide +kernel

/-- R171: a length that is no multiple of 16, and the empty ciphertext under both values of `EMPTY_CT`. -/
theorem test_decrypt_failures :
    (after (exec .decryptCmd { State.reset with inLen := 17 })).err = 1 ∧
    (after (exec .decryptCmd State.reset)).err = 1 ∧
    (after (exec .decryptCmd { State.reset with params := tiny })).err = 0 := by decide

/-- R193's example, with its draw. -/
theorem test_seal_example :
    let t := after (exec .sealCmd { withIn helloBytes (withPw pwBytes State.reset) with entropy := [salt07] })
    outBytes t = container199 ∧ t.key = blockOf [] ∧ t.draws = 1 := by decide +kernel

/-- R193: a SEAL that does not fit takes no draw. -/
theorem test_seal_too_long :
    let t := after (exec .sealCmd { State.reset with inLen := 4080, entropy := [salt07] })
    t.err = 5 ∧ t.entropy = [salt07] ∧ t.draws = 0 := by decide

/-- R195's example, and the same container under another header, `STRICT_HEADER = false` (R194). -/
theorem test_open_example :
    outBytes (after (exec .openCmd (withIn container199 (withPw pwBytes State.reset)))) = helloBytes ∧
    outBytes (after (exec .openCmd (withIn (rep 0x58 8 ++ container199.drop 8) (withPw pwBytes State.reset)))) =
      helloBytes := by decide +kernel

/-- R195's example with the password `px`: `PaddingError`, nothing in `OUT`. -/
theorem test_open_wrong_password :
    let t := after (exec .openCmd (withIn container199 (withPw [0x70, 0x78] State.reset)))
    t.statusWord = 0x00000012 ∧ t.outLen = 0 ∧ t.out = Memory.zeros := by decide +kernel

/-- R210's example: after DERIVE's, CLEAR leaves zeros and `STATUS = 0x00000002`. -/
theorem test_clear_example :
    let t := after (exec .clearCmd { stateK1 with accErr := false, ie := true })
    t.key = blockOf [] ∧ t.pw.get 0 = 0 ∧ t.pwLen = 0 ∧ t.statusWord = 0x00000002 ∧ t.ie = true := by decide

/-! ## The host port (96_test_vectors_more.md section 2.4, rows HP1 to HP36; 20_memory.md R54, R59) -/

/-- HP1, HP2, HP3, HP7, HP12, HP16. -/
theorem test_port_reads :
    answerOf (.read 0x00020 4) stateK1 = some (.data 0xAA795FA5) ∧
    answerOf (.read 0x00022 2) stateK1 = some (.data 0xAA79) ∧
    answerOf (.read 0x0002F 1) stateK1 = some (.data 0xD3) ∧
    answerOf (.read 0x00044 4) stateK1 = some (.data 0x07060504) ∧
    answerOf (.read 0x00004 4) stateK1 = some (.data 0x00000002) ∧
    answerOf (.read 0x01000 2) stateK1 = some (.data 0x7770) := by decide

/-- HP28, HP29. -/
theorem test_port_writes :
    ((stateK1.hostAccess (.write 0x00020 4 0x04030201)).key.toList.take 5) = [0x01, 0x02, 0x03, 0x04, 0x00] ∧
    ((stateK1.hostAccess (.write 0x00036 2 0xBBAA)).iv.toList.drop 6).take 2 = [0xAA, 0xBB] := by decide

/-- HP30, HP32, HP33: the two control words that do more than store. -/
theorem test_port_control_writes :
    ((stateK1.hostAccess (.write 0x00008 4 0xFFFFFFFF)).ctrlWord = 0x00000001) ∧
    ((stateK1.hostAccess (.write 0x00008 4 0xFFFFFFFF)).irq = true) ∧
    ((stateK1.hostAccess (.write 0x00004 4 0x00000002)).statusWord = 0x00000000) ∧
    ((stateK1.hostAccess (.write 0x00004 4 0xFFFFFFF9)).statusWord = 0x00000002) := by decide

/-- R57, R58: a write while a command is pending changes nothing but `ACCERR`, which a `STATUS` read then shows. -/
theorem test_port_busy :
    let s : State := { State.reset with phase := .busy 1 }
    s.hostAccess (.write 0x00020 4 1) = { s with accErr := true, answers := [.err] } ∧
    answerOf (.read 0x00004 4) (s.hostAccess (.write 0x00020 4 1)) = some (.data 0x00000005) := by decide

/-- R81, R261: a command word is accepted; the reset event abandons it. -/
theorem test_accept_then_reset :
    let s : State := { stateK1 with inputs := [.access (.write 0 4 1), .reset, .core] }
    (after (step s)).phase = .busy 1 ∧ (after (step s)).done = false ∧
    (after (step (after (step (after (step s)))))).done = false := by decide

/-- R86 on an idle DCC: one read, whatever the schedule; the schedule is the fuel. -/
theorem test_poll_idle :
    pollRun [false, false, true] stateK1 = some (0x00000002, { stateK1 with answers := [.data 0x00000002] }) ∧
    pollRun [] stateK1 = none := by decide

/-- R86, R268: two reads see `BUSY = 1`, then the command completes. -/
theorem test_poll_pending :
    (pollRun [false, false, true] { State.reset with phase := .busy 6 }).map (fun r => (r.1, r.2.answers)) =
      some (0x00000002, [.data 0x00000002, .data 0x00000001, .data 0x00000001]) := by decide

/-- `RDB` of R59's example: the byte string of the values; a refused read has none. -/
theorem test_rdb :
    (rdbRun 0x00020 4 stateK1).map (·.1) = some [0xA5, 0x5F, 0x79, 0xAA] ∧ rdbRun 0x00046 3 stateK1 = none := by
  decide

/-- R214: the typed failure of a container too short; the plaintext of one that opens is `test_decrypt_string`'s. -/
theorem test_decrypt_bytes :
    (decryptBytes (container199.take 15) ['p', 'w'] [false, true] State.reset).map (·.1) = some (.error 2) := by decide +kernel

/-- R215's example, with the salt as the draw; and text that does not fit the buffers (`BUF_MAX = 32`). -/
theorem test_encrypt_string :
    (encryptString "hello, world".toList ['p', 'w'] [true] { State.reset with entropy := [salt07] }).map (·.1) =
      some (.ok "U2FsdGVkX18AAQIDBAUGBzGKEJVrkn7au3vI8SMm1ic=".toList) ∧
    (encryptString "0123456789abcdef".toList ['p', 'w'] [true] { State.reset with params := tiny }).map (·.1) =
      some (.error 5) := by decide +kernel

/-- R215: the way back; and text that is no Base64. -/
theorem test_decrypt_string :
    (decryptString "U2FsdGVkX18AAQIDBAUGBzGKEJVrkn7au3vI8SMm1ic=".toList ['p', 'w'] [true] State.reset).map (·.1) =
      some (.ok "hello, world".toList) ∧
    decryptString "U2Fs!".toList ['p', 'w'] [true] State.reset = none := by decide +kernel

/-- R216: a count that no word holds is no small count. -/
theorem test_length_word : lengthWord (2 ^ 32 + 5) = 0xFFFFFFFF ∧ lengthWord 4096 = 4096 := by decide

/-- R16 (8): a script that ends in a CMD write leaves the command pending, and its run ends with the completion; one that
polls ends where it is, `STATUS` being 2 for a CLEAR (R210). -/
theorem test_end_of_run :
    ((runScript [.record (issue .clearCmd)] [] State.reset).map (·.phase)) = some (.busy 6) ∧
    ((endOfRun [.record (issue .clearCmd)] [] State.reset).map fun t => (t.phase, t.statusWord)) = some (.idle, 2) ∧
    endOfRun [.record (issue .clearCmd), .poll] [[false, true]] State.reset =
      runScript [.record (issue .clearCmd), .poll] [[false, true]] State.reset := by decide

/-! ## Witnesses: for each statement with hypotheses, a state and operands that meet them -/

/-- A state with a command word pending and the environment to be silent. -/
def pending (w : Word) : State := { State.reset with phase := .busy w }

/-- Pending, with one host access listed first. -/
def pendingAccess (w : Word) (op : HostOp) : State := { pending w with inputs := [.access op] }

/-- Idle, with one host access listed. -/
def idleAccess (op : HostOp) : State := { State.reset with inputs := [.access op] }

theorem test_witness_DecodeSelectsExactlyTheCommandWord : Instr.wf .openCmd = true := by decide

theorem test_witness_StepRunsTheDecodedCommand :
    ((pending 6).phase = .busy 6 ∧ decode 6 = .ok .clearCmd ∧ Instr.wf .clearCmd = true ∧ (pending 6).inputs = []) ∧
    ∃ rest, (State.reset.withFetchWord 32 6).inputs = .core :: rest ∧
      (State.reset.withFetchWord 32 6).phase = .busy 6 :=
  ⟨by decide, [], by decide⟩

theorem test_witness_IllegalWordCompletesWithIllegalCommand :
    (pending 0x104).phase = .busy 0x104 ∧ (∀ i, (0x104 : Word) ≠ encode i) ∧ (pending 0x104).coreNext :=
  ⟨rfl, by intro i; cases i <;> decide, .inl rfl⟩

/-- At the edges of the illegal words: 0, 7 and the first word with a reserved bit. -/
theorem test_witness_IllegalWord_edges : ∀ i, (0 : Word) ≠ encode i ∧ (7 : Word) ≠ encode i ∧ (0x100 : Word) ≠ encode i := by
  intro i; cases i <;> decide

theorem test_witness_EveryPendingWordCompletesInOneStep :
    ((pending 0xFFFFFFFF).phase = .busy 0xFFFFFFFF ∧ (pending 0xFFFFFFFF).coreNext) ∧
    (State.reset.phase = .idle ∧ State.reset.coreNext) :=
  ⟨⟨rfl, .inl rfl⟩, rfl, .inl rfl⟩

theorem test_witness_PendingCommandCompletesWithinTheInputs :
    (pendingAccess 1 (.read 0x00004 4)).phase = .busy 1 ∧
    Input.reset ∉ (pendingAccess 1 (.read 0x00004 4)).inputs := by decide

theorem test_witness_PollReturnsTheCompletedStatus :
    (({ pending 2 with inputs := pollMoves 0 } : State).phase = .busy 2) ∧
    (({ pending 2 with inputs := pollMoves 3 } : State).inputs = pollMoves 3) ∧
    ((pending 2).phase = .busy 2 ∧ true ∈ [false, false, true] ∧ true ∉ [false, false] ∧ true ∉ ([] : List Bool)) ∧
    stateK1.phase = .idle := by decide

/-- The longest password that fits, and the shortest that does not. -/
theorem test_witness_DeriveWritesKeyAndIv :
    (let s : State := { State.reset with pwLen := 256 }; s.pwLen.toNat ≤ s.params.pwMax) ∧
    (let s : State := { State.reset with pwLen := 257 }; s.params.pwMax < s.pwLen.toNat) := by decide

/-- The longest plaintext that fits, and the shortest that does not. -/
theorem test_witness_EncryptWritesCiphertext :
    (let s : State := { State.reset with inLen := 4095 }; s.inLen.toNat < s.params.bufMax) ∧
    (let s : State := { State.reset with inLen := 4096 }; s.params.bufMax ≤ s.inLen.toNat) := by decide

/-- A ciphertext that decrypts, one that does not, the shortest that does not fit. -/
theorem test_witness_DecryptWritesPlaintext :
    (let s := withIn cipher172 stateK1;
      s.inLen.toNat ≤ s.params.bufMax ∧
      decrypt s.params.emptyCt ((List.range s.inLen.toNat).map s.inp.get) s.key s.iv = .ok helloBytes) ∧
    (let s := stateK1;
      s.inLen.toNat ≤ s.params.bufMax ∧
      decrypt s.params.emptyCt ((List.range s.inLen.toNat).map s.inp.get) s.key s.iv = .error .paddingError) ∧
    (let s : State := { State.reset with inLen := 4097 }; s.params.bufMax < s.inLen.toNat) := by decide +kernel

/-- The longest operands that fit, with a listed draw; the shortest that do not, each. -/
theorem test_witness_SealWritesContainer :
    (let s : State := { State.reset with pwLen := 256, inLen := 4079, entropy := [salt07] };
      s.nextDraw = salt07 ∧ s.pwLen.toNat ≤ s.params.pwMax ∧ s.inLen.toNat + 16 < s.params.bufMax) ∧
    (let s : State := { State.reset with pwLen := 257, entropy := [salt07] };
      s.nextDraw = salt07 ∧ s.params.pwMax < s.pwLen.toNat) ∧
    (let s : State := { State.reset with inLen := 4080, entropy := [salt07] };
      s.nextDraw = salt07 ∧ s.params.bufMax ≤ s.inLen.toNat + 16) := by decide

/-- A container that opens, one too short, one with a wrong padding, operands that do not fit. -/
theorem test_witness_OpenWritesPlaintext :
    let result := fun s : State =>
      openBytes s.params ((List.range s.inLen.toNat).map s.inp.get) ((List.range s.pwLen.toNat).map s.pw.get)
    let fits := fun s : State => s.pwLen.toNat ≤ s.params.pwMax ∧ s.inLen.toNat ≤ s.params.bufMax
    (fits (withIn container199 stateK1) ∧ result (withIn container199 stateK1) = .ok helloBytes) ∧
    (fits stateK1 ∧ result stateK1 = .error .malformedContainer) ∧
    (fits { stateK1 with inLen := 16 } ∧ result { stateK1 with inLen := 16 } = .error .paddingError) ∧
    ¬ fits { stateK1 with pwLen := 257 } ∧ ¬ fits { stateK1 with inLen := 4097 } := by decide +kernel

/-- Both sides of every bound of R231, at default parameters. -/
theorem test_witness_LengthErrorExactlyWhenItDoesNotFit :
    let p := Params.default
    p.pwMax < 257 ∧ ¬ p.pwMax < 256 ∧ p.bufMax ≤ 4096 ∧ ¬ p.bufMax ≤ 4095 ∧ p.bufMax < 4097 ∧ ¬ p.bufMax < 4096 ∧
    p.bufMax - 16 ≤ 4080 ∧ ¬ p.bufMax - 16 ≤ 4079 := by decide

/-- An illegal word, the last clause. -/
theorem test_witness_LengthError_illegal : ∀ i, (0x0000FF00 : Word) ≠ encode i := by intro i; cases i <;> decide

/-- The three causes, each met: 17 bytes, no bytes, bytes whose padding is wrong. -/
theorem test_witness_PaddingErrorExactlyForItsCauses :
    (after (exec .decryptCmd { State.reset with inLen := 17 })).err = 1 ∧
    (after (exec .decryptCmd State.reset)).err = 1 ∧
    (after (exec .decryptCmd { State.reset with inLen := 16 })).err = 1 ∧
    (after (exec .openCmd { State.reset with inLen := 16 })).err = 1 ∧
    (after (exec .openCmd { State.reset with inLen := 17 })).err = 1 := by decide +kernel

/-- The two causes at their boundary, and the strict header that passes. -/
theorem test_witness_MalformedContainerExactlyForItsCauses :
    (after (exec .openCmd { State.reset with inLen := 15 })).err = 2 ∧
    (after (exec .openCmd { State.reset with inLen := 16, params := tiny })).err = 2 ∧
    (after (exec .openCmd (withIn (container199.take 16) { State.reset with params := tiny }))).err = 0 := by
  decide

/-- Each clause of the order of checks is met: 4, 5, 2 (a), 2 (b), 1 (a), 1 (c), 1 (b), 0; R238's own example is the
second. -/
theorem test_witness_FirstFailingCheckIsReported :
    let err := fun w s => (after (completionStep w s)).err
    err 0 State.reset = 4 ∧ err 5 { State.reset with inLen := 10, pwLen := 257 } = 5 ∧
    err 5 { State.reset with inLen := 10 } = 2 ∧ err 5 { State.reset with inLen := 16, params := tiny } = 2 ∧
    err 3 { State.reset with inLen := 1 } = 1 ∧ err 3 State.reset = 1 ∧
    err 3 { State.reset with inLen := 16 } = 1 ∧ err 6 State.reset = 0 := by decide +kernel

theorem test_witness_FailureChangesNothingButTheOutput :
    (∃ t, completionStep 7 State.reset = .next t ∧ t.err ≠ 0) ∧
    (∃ t, completionStep 3 State.reset = .next t ∧ t.err ≠ 0) :=
  ⟨⟨_, completion_after _ _, by decide⟩, ⟨_, completion_after _ _, by decide⟩⟩

theorem test_witness_SuccessLeavesTheResultZeroFilled :
    (∃ t, completionStep 6 State.reset = .next t ∧ t.err = 0) ∧
    (∃ t, completionStep 2 State.reset = .next t ∧ t.err = 0) :=
  ⟨⟨_, completion_after _ _, by decide⟩, ⟨_, completion_after _ _, by decide⟩⟩

/-- Each command answers a next state, so each clause of the frame has its cases. -/
theorem test_witness_CommandsKeepWhatTheyDoNotWrite :
    ∀ i : Instr, ∃ t, exec i stateK1 = .next t := fun i => ⟨_, exec_after i stateK1⟩

theorem test_witness_CommandsReadNoOutputAndNoFlag :
    ∃ t, exec .encryptCmd (withIn helloBytes stateK1) = .next t := ⟨_, exec_after _ _⟩

theorem test_witness_CompositeCommandsIgnoreTheKeyRegisters :
    (∃ t, exec .sealCmd (withIn helloBytes stateK1) = .next t) ∧
    (∃ t, exec .openCmd (withIn container199 stateK1) = .next t) := ⟨⟨_, exec_after _ _⟩, ⟨_, exec_after _ _⟩⟩

/-- Buffers that differ from the index `PWLEN`, `INLEN` on. -/
theorem test_witness_BytesBeyondTheLengthsAreIgnored :
    (∃ t, exec .sealCmd stateK1 = .next t) ∧
    (∀ a, a < stateK1.pwLen.toNat → (Memory.ofBytes [0x70, 0x77, 0xFF]).get a = stateK1.pw.get a) ∧
    (∀ a, a < stateK1.inLen.toNat → (Memory.ofBytes [0xFF]).get a = stateK1.inp.get a) :=
  ⟨⟨_, exec_after _ _⟩, by decide, by decide⟩

/-- First and last index of each operand. -/
theorem test_witness_BuffersAreUsedFromZero :
    0 < stateK1.pwLen.toNat ∧ 1 < stateK1.pwLen.toNat ∧ 11 < (withIn helloBytes stateK1).inLen.toNat := by decide

/-- A read of `CMD` on an idle DCC. -/
theorem test_witness_AddressMapRowsAreDisjoint : stateK1.phase = .idle := rfl

theorem test_witness_WellFormedAccessIsTheFourConditions :
    HostOp.wf State.reset.params (.write 0x20000 4 0) = false := by decide

/-- Both kinds of refused access: not well-formed, and blocked. -/
theorem test_witness_RefusedAccessSetsAccErrOnly :
    ((idleAccess (.read 0x00018 4)).inputs = [.access (.read 0x00018 4)] ∧
      HostOp.wf (idleAccess (.read 0x00018 4)).params (.read 0x00018 4) = false) ∧
    ((pendingAccess 1 (.read 0x00008 4)).inputs = [.access (.read 0x00008 4)] ∧
      (∃ w, (pendingAccess 1 (.read 0x00008 4)).phase = .busy w) ∧ HostOp.read 0x00008 4 ≠ .read 0x00004 4) :=
  ⟨by decide, rfl, ⟨1, rfl⟩, by decide⟩

theorem test_witness_AdmittedExactlyWhenIdleOrStatusRead :
    let s := pendingAccess 1 (.read 0x00004 4)
    s.inputs = [.access (.read 0x00004 4)] ∧ HostOp.wf s.params (.read 0x00004 4) = true ∧ ∃ t, step s = .next t :=
  ⟨rfl, by decide, _, step_after _⟩

/-- Two busy DCCs that differ in the key and in the pending word. -/
theorem test_witness_BusyPortShowsOnlyStatus :
    let s := pending 1
    let u : State := { pending 2 with key := keyK1 }
    s.isBusy = true ∧ u.isBusy = true ∧ s.statusWord = u.statusWord ∧ s ≠ u := by decide

/-- The last bytes of the `OUT` window; and, for `RDB`, the whole of it and none of it. -/
theorem test_witness_ByteArrayReadIsLittleEndian :
    State.reset.phase = .idle ∧ arrRow 0x20000 4096 .out false ∈ addressMap State.reset.params ∧
    (arrRow 0x20000 4096 .out false).target = .arr .out ∧ (0x20FFC : BitVec 18).toNat % 4 = 0 ∧
    0x20000 ≤ (0x20FFC : BitVec 18).toNat ∧ (0x20FFC : BitVec 18).toNat + 4 ≤ 0x20000 + 4096 ∧
    (0x20000 : BitVec 18).toNat + 4096 ≤ 0x20000 + 4096 ∧ (0x21000 : BitVec 18).toNat + 0 ≤ 0x20000 + 4096 := by decide

/-- The last bytes of the `IN` window. -/
theorem test_witness_ByteArrayWriteStoresItsBytesOnly :
    State.reset.phase = .idle ∧ State.reset.pw.wf = true ∧ State.reset.inp.wf = true ∧
    arrRow 0x10000 4096 .inp true ∈ addressMap State.reset.params ∧
    (arrRow 0x10000 4096 .inp true).target = .arr .inp ∧ (arrRow 0x10000 4096 .inp true).writable = true ∧
    (0x10FFE : BitVec 18).toNat % 2 = 0 ∧
    0x10000 ≤ (0x10FFE : BitVec 18).toNat ∧ (0x10FFE : BitVec 18).toNat + 2 ≤ 0x10000 + 4096 := by decide

/-- The last word of `SALT`. -/
theorem test_witness_MixedWidthAccessSeesTheSameBytes :
    State.reset.phase = .idle ∧ State.reset.pw.wf = true ∧ State.reset.inp.wf = true ∧
    arrRow 0x00040 8 .salt true ∈ addressMap State.reset.params ∧
    (arrRow 0x00040 8 .salt true).target = .arr .salt ∧ (arrRow 0x00040 8 .salt true).writable = true ∧
    (0x00044 : BitVec 18).toNat % 4 = 0 ∧
    0x00040 ≤ (0x00044 : BitVec 18).toNat ∧ (0x00044 : BitVec 18).toNat + 4 ≤ 0x00040 + 8 := by decide

theorem test_witness_ControlWordReads : stateK1.phase = .idle := rfl

theorem test_witness_ControlWordWrites : stateK1.phase = .idle := rfl

/-- Accepted while idle, dropped while busy. -/
theorem test_witness_CommandAcceptance :
    (idleAccess (.write 0x00000 4 9)).inputs = [.access (.write 0x00000 4 9)] ∧
    (idleAccess (.write 0x00000 4 9)).phase = .idle ∧ (pendingAccess 1 (.write 0x00000 4 9)).phase = .busy 1 :=
  ⟨rfl, rfl, rfl⟩

/-- A write of 1 to `ACCERR`, and reset, clear it. -/
theorem test_witness_AccErrIsSticky :
    let s : State := { idleAccess (.write 0x00004 4 4) with accErr := true }
    let r : State := { State.reset with accErr := true, inputs := [.reset] }
    (step s = .next (after (step s)) ∧ s.accErr = true ∧ (after (step s)).accErr = false) ∧
    (step r = .next (after (step r)) ∧ r.accErr = true ∧ (after (step r)).accErr = false) :=
  ⟨⟨step_after _, rfl, by decide⟩, ⟨step_after _, rfl, by decide⟩⟩

/-- The three ways `PHASE` changes. -/
theorem test_witness_PhaseChangesInThreeWays :
    (after (step (idleAccess (.write 0x00000 4 9)))).phase ≠ (idleAccess (.write 0x00000 4 9)).phase ∧
    (after (step (pending 6))).phase ≠ (pending 6).phase ∧
    (after (step { pending 6 with inputs := [.reset] })).phase ≠ (pending 6).phase := by decide

/-- A completion with `IE = 1`, and the four ways `irq` falls. -/
theorem test_witness_InterruptLevelRisesAndFalls :
    let s : State := { State.reset with ie := true, done := true }
    let falls := fun x : Input => (after (step { s with inputs := [x] })).irq = false
    ((∃ t, completionStep 6 s = .next t) ∧ s.irq = true) ∧
    falls (.access (.write 0x00004 4 2)) ∧ falls (.access (.write 0x00008 4 0)) ∧ falls (.access (.write 0x00000 4 1)) ∧
    falls .reset :=
  ⟨⟨⟨_, completion_after _ _⟩, rfl⟩, by decide, by decide, by decide, by decide⟩

theorem test_witness_ResetAbandonsThePendingCommand :
    let s : State := { pending 1 with inputs := [.reset, .core] }
    s.inputs = [.reset, .core] ∧ (after (step s)).coreNext := ⟨rfl, .inr ⟨[], rfl⟩⟩

/-- A busy state with its lengths out of range satisfies the invariant, and it has a next state. -/
theorem test_witness_EveryStepKeepsInv :
    let s : State := { pending 5 with key := keyK1, pwLen := 0xFFFFFFFF, accErr := true }
    Inv s ∧ ∃ t, step s = .next t := by
  refine ⟨⟨by decide, by decide, by decide, by decide, by decide, fun i _ => rfl, by decide, by decide, .inl rfl,
    by decide, by decide⟩, _, step_after _⟩

/-- An index between the message and its bit length. -/
theorem test_witness_Md5PaddingLayout : ([] : Bytes).length < 1 ∧ 55 < (md5Pad []).length - 8 := by decide

/-- Each kind of word of the schedule. -/
theorem test_witness_KeyExpansionRecurrence :
    (1 ≤ 1 ∧ 1 < 10 ∧ 1 ≤ 9 ∧ 9 < 10) ∧ (4 ≤ 43 ∧ 43 < 44 ∧ 43 % 4 ≠ 0) ∧ (4 ≤ 40 ∧ 40 < 44 ∧ 40 % 4 = 0) ∧ 3 < 4 ∧ 10 < 11 := by decide

theorem test_witness_PadLenIsTheLeastGreaterMultiple : 32 % 16 = 0 ∧ 16 < 32 := by decide

theorem test_witness_PadAppendsTheCount : helloBytes.length ≤ 15 ∧ 15 < (pad helloBytes).length := by decide

/-- A block whose padding is right, and one whose is not. -/
theorem test_witness_UnpadChecksEveryByteAndInvertsPad :
    (pad helloBytes ≠ [] ∧ (pad helloBytes).length % 16 = 0) ∧ (rep 0x11 16 ≠ [] ∧ (rep 0x11 16).length % 16 = 0) := by
  decide

/-- No block, and two blocks with the first and last index. -/
theorem test_witness_CbcDecryptInvertsEncrypt :
    ([] : Bytes).length % 16 = 0 ∧ (rep 0xAA 32).length % 16 = 0 ∧ 16 * 0 < (rep 0xAA 32).length ∧
    16 * 1 < (rep 0xAA 32).length := by decide

/-- The corners of the four-by-four state. -/
theorem test_witness_InverseTransformationsUndo : (0 < 4 ∧ 3 < 4) := by decide

theorem test_witness_EncryptThenDecryptRestoresTheInput :
    ∃ t, exec .encryptCmd (withIn helloBytes stateK1) = .next t ∧ t.err = 0 := ⟨_, exec_after _ _, by decide⟩

theorem test_witness_SealThenOpenRestoresTheInput :
    ∃ t, exec .sealCmd (withIn helloBytes stateK1) = .next t ∧ t.err = 0 := ⟨_, exec_after _ _, by decide⟩

end Sys2Proof.Tests
end

/-! The state component statements (10_state.md rules R30, R31, R35): what moves `PHASE`, what moves `irq`, and what every
component holds after reset. -/

namespace Sys2Proof.Machine

/-! ### What every completion step does (60_exceptions.md rules R235, R236) -/

/-- Every command ends in the shared completion, started from a state whose control and environment fields the command
has left alone. -/
theorem exec_finish {i : Instr} {s t : State} (h : exec i s = .next t) :
    ∃ (s₀ : State) (r : Except ErrKind Bytes), t = s₀.finish r ∧ s₀.ie = s.ie ∧ s₀.accErr = s.accErr ∧
      s₀.params = s.params ∧ s₀.inputs = s.inputs ∧ s₀.answers = s.answers := by
  cases i with
  | deriveCmd =>
    rcases execDerive_cases h with ⟨-, rfl⟩ | ⟨-, rfl⟩
    · exact ⟨s, .error .lengthError, rfl, rfl, rfl, rfl, rfl, rfl⟩
    · exact ⟨_, .ok [], rfl, s.setKeyIv_ie _ _, s.setKeyIv_accErr _ _, s.setKeyIv_params _ _, s.setKeyIv_inputs _ _,
        s.setKeyIv_answers _ _⟩
  | encryptCmd =>
    rcases execEncrypt_cases h with ⟨-, rfl⟩ | ⟨-, rfl⟩
    · exact ⟨s, .error .lengthError, rfl, rfl, rfl, rfl, rfl, rfl⟩
    · exact ⟨s, .ok _, rfl, rfl, rfl, rfl, rfl, rfl⟩
  | decryptCmd =>
    rcases execDecrypt_cases h with ⟨-, rfl⟩ | ⟨-, rfl⟩
    · exact ⟨s, .error .lengthError, rfl, rfl, rfl, rfl, rfl, rfl⟩
    · exact ⟨s, _, rfl, rfl, rfl, rfl, rfl, rfl⟩
  | sealCmd =>
    rcases execSeal_cases h with ⟨-, rfl⟩ | ⟨-, rfl⟩
    · exact ⟨s, .error .lengthError, rfl, rfl, rfl, rfl, rfl, rfl⟩
    · exact ⟨s.takeDraw, .ok _, rfl, rfl, rfl, rfl, rfl, rfl⟩
  | openCmd =>
    rcases execOpen_cases h with ⟨-, rfl⟩ | ⟨-, rfl⟩
    · exact ⟨s, .error .lengthError, rfl, rfl, rfl, rfl, rfl, rfl⟩
    · exact ⟨s, _, rfl, rfl, rfl, rfl, rfl, rfl⟩
  | clearCmd =>
    obtain rfl := execClear_cases h
    exact ⟨s.zeroizeInputs, .ok [], rfl, rfl, rfl, rfl, rfl, rfl⟩

/-- The same of a completion step, an illegal word's typed failure included (R237, R239). -/
theorem completionStep_finish {w : Word} {s t : State} (h : completionStep w s = .next t) :
    ∃ (s₀ : State) (r : Except ErrKind Bytes), t = s₀.finish r ∧ s₀.ie = s.ie ∧ s₀.accErr = s.accErr ∧
      s₀.params = s.params ∧ s₀.inputs = s.inputs ∧ s₀.answers = s.answers := by
  unfold completionStep at h
  split at h
  · exact exec_finish h
  · cases h
    exact ⟨s, .error .illegalCommand, rfl, rfl, rfl, rfl, rfl, rfl⟩

@[simp] theorem State.finish_ie (r : Except ErrKind Bytes) (s : State) : (s.finish r).ie = s.ie := by
  obtain ⟨o, l, e, h⟩ := s.finish_frame r
  rw [h]

/-- What a completion step leaves in `PHASE`, `DONE` and `IE`, whatever the word and whatever the outcome. -/
theorem completionStep_idle_done_ie {w : Word} {s t : State} (h : completionStep w s = .next t) :
    t.phase = .idle ∧ t.done = true ∧ t.ie = s.ie := by
  obtain ⟨s₀, r, rfl, hie, -⟩ := completionStep_finish h
  exact ⟨(s₀.finish_idle_done r).1, (s₀.finish_idle_done r).2, by rw [State.finish_ie, hie]⟩

theorem State.irq_iff {s : State} : s.irq = true ↔ s.ie = true ∧ s.done = true := by simp [State.irq]

/-- A completion raises the interrupt level where `IE` is set (R31). -/
theorem completionStep_irq {w : Word} {s t : State} (h : completionStep w s = .next t) (hie : s.ie = true) :
    t.irq = true := by
  obtain ⟨-, hdone, hie'⟩ := completionStep_idle_done_ie h
  exact State.irq_iff.mpr ⟨hie'.trans hie, hdone⟩

/-! ### What a host write does, control word by control word (20_memory.md rules R51, R56) -/

/-- A control word's row starts at its address in the map and is moved whole. -/
theorem addressMap_ctl {p : Params} {r : Region} {c : CtlReg} (hr : r ∈ addressMap p) (hc : r.target = .ctl c) :
    r.base = (targetAddr (.ctl c)).toNat ∧ r.size = 4 ∧ r.sizes = [4] := by
  simp only [addressMap, List.mem_cons, List.not_mem_nil, or_false] at hr
  rcases hr with rfl | rfl | rfl | rfl | rfl | rfl | rfl | rfl | rfl | rfl | rfl | rfl <;> cases hc <;>
    exact ⟨rfl, rfl, rfl⟩

/-- A well-formed access that falls in a control word's row is exactly the whole word. -/
theorem accessWellFormed_ctl {p : Params} {op : HostOp} {r : Region} {c : CtlReg} (hw : accessWellFormed p op = true)
    (hr : regionAt p op.addr.toNat op.size = some r) (hc : r.target = .ctl c) :
    op.addr = targetAddr (.ctl c) ∧ op.size = 4 := by
  obtain ⟨r', hr', hsize, -⟩ := accessWellFormed_region hw
  obtain rfl : r = r' := Option.some.inj (hr.symm.trans hr')
  obtain ⟨hmem, hlo, hhi⟩ := regionAt_some hr
  obtain ⟨hb, hs, hss⟩ := addressMap_ctl hmem hc
  have h4 : op.size = 4 := by simpa [hss] using hsize
  exact ⟨BitVec.eq_of_toNat_eq (by omega), h4⟩

/-- The effect of a host access: nothing but the port's own answer and `ACCERR`; or, while idle, the write of one control
word, or of bytes of one array. -/
theorem State.hostAccess_effect (op : HostOp) (s : State) :
    s.hostAccess op = s.refuse ∨ (∃ a, s.hostAccess op = s.answer a) ∨
    (s.phase = .idle ∧ ∃ c v, op = .write (targetAddr (.ctl c)) 4 v ∧ s.hostAccess op = (s.ctlSet c v).answer .ok) ∨
    (s.phase = .idle ∧ ∃ x i b, s.hostAccess op = (s.arraySet x i b).answer .ok) := by
  rcases s.hostAccess_cases op with ⟨-, h⟩ | ⟨hw, ha, r, hr, ⟨a, n, -, h⟩ | ⟨a, n, v, rfl, -, h⟩⟩
  · exact .inl h
  · exact .inr (.inl ⟨_, h⟩)
  · have hidle : s.phase = .idle := by
      cases hp : s.phase with
      | idle => rfl
      | busy w => simpa [hp] using State.admits_write_idle ha
    rcases s.rowSet_cases r a.toNat n v with ⟨c, hc, hset⟩ | ⟨x, -, hset⟩
    · obtain ⟨rfl, rfl⟩ : a = targetAddr (.ctl c) ∧ n = 4 := accessWellFormed_ctl hw hr hc
      exact .inr (.inr (.inl ⟨hidle, c, v, rfl, by rw [h, hset]⟩))
    · exact .inr (.inr (.inr ⟨hidle, x, _, _, by rw [h, hset]⟩))

@[simp] theorem State.arraySet_phase (s : State) (a : ByteArr) (i : Nat) (b : Bytes) :
    (s.arraySet a i b).phase = s.phase := by cases a <;> rfl

@[simp] theorem State.arraySet_irq (s : State) (a : ByteArr) (i : Nat) (b : Bytes) :
    (s.arraySet a i b).irq = s.irq := by cases a <;> rfl

@[simp] theorem State.refuse_phase (s : State) : s.refuse.phase = s.phase := rfl

@[simp] theorem State.refuse_irq (s : State) : s.refuse.irq = s.irq := rfl

@[simp] theorem State.answer_irq (s : State) (a : Answer) : (s.answer a).irq = s.irq := rfl

@[simp] theorem State.popInput_irq (s : State) : s.popInput.irq = s.irq := rfl

/-- The one control word whose write moves `PHASE` is `CMD`. -/
theorem State.ctlSet_phase {s : State} {c : CtlReg} {v : Word} (h : (s.ctlSet c v).phase ≠ s.phase) :
    c = .cmd ∧ (s.ctlSet c v).phase = .busy v := by
  cases c with
  | cmd => exact ⟨rfl, rfl⟩
  | status => simp [State.ctlSet, State.writeStatus_eq] at h
  | ctrl | pwLen | inLen | outLen => exact absurd rfl h

/-- The control words whose write makes the interrupt level fall: `STATUS` with the bit of `DONE`, `CTRL` without the bit
of `IE`, and `CMD` (R31). -/
theorem State.ctlSet_irq_falls {s : State} {c : CtlReg} {v : Word} (h : s.irq = true) (h' : (s.ctlSet c v).irq = false) :
    (c = .status ∧ v.getLsbD 1 = true) ∨ (c = .ctrl ∧ v.getLsbD 0 = false) ∨ c = .cmd := by
  obtain ⟨hie, hdone⟩ := State.irq_iff.mp h
  cases c with
  | cmd => exact .inr (.inr rfl)
  | status => exact .inl ⟨rfl, by simpa [State.irq, State.ctlSet, State.writeStatus_eq, hie, hdone] using h'⟩
  | ctrl => exact .inr (.inl ⟨rfl, by simpa [State.irq, State.ctlSet, State.writeCtrl, hdone] using h'⟩)
  | pwLen | inLen | outLen => exact absurd (h.symm.trans h') (by decide)

/-- A host access that moves `PHASE` is an accepted command word (R30 (a)). -/
theorem State.hostAccess_phase {s : State} {op : HostOp} (h : (s.hostAccess op).phase ≠ s.phase) :
    ∃ w, op = .write 0x00000 4 w ∧ s.phase = .idle ∧ (s.hostAccess op).phase = .busy w := by
  rcases s.hostAccess_effect op with e | ⟨a, e⟩ | ⟨hidle, c, v, rfl, e⟩ | ⟨-, x, i, b, e⟩
  · simp [e] at h
  · simp [e] at h
  · rw [e, State.answer_phase] at h ⊢
    obtain ⟨rfl, hbusy⟩ := State.ctlSet_phase h
    exact ⟨v, rfl, hidle, hbusy⟩
  · simp [e] at h

/-- A host access that makes the interrupt level fall is one of three writes, while idle (R31). -/
theorem State.hostAccess_irq_falls {s : State} {op : HostOp} (h : s.irq = true) (h' : (s.hostAccess op).irq = false) :
    s.phase = .idle ∧ ∃ v,
      (op = .write 0x00004 4 v ∧ v.getLsbD 1 = true) ∨ (op = .write 0x00008 4 v ∧ v.getLsbD 0 = false) ∨
      op = .write 0x00000 4 v := by
  rcases s.hostAccess_effect op with e | ⟨a, e⟩ | ⟨hidle, c, v, rfl, e⟩ | ⟨-, x, i, b, e⟩
  · simp [e, h] at h'
  · simp [e, h] at h'
  · rw [e, State.answer_irq] at h'
    refine ⟨hidle, v, ?_⟩
    rcases State.ctlSet_irq_falls h h' with ⟨rfl, hv⟩ | ⟨rfl, hv⟩ | rfl
    · exact .inl ⟨rfl, hv⟩
    · exact .inr (.inl ⟨rfl, hv⟩)
    · exact .inr (.inr rfl)
  · simp [e, h] at h'

/-! ### The statements -/

/-- Settles O41: the fixed state `State.reset`, component by component. -/
theorem resetValues : Obligations.ResetValues := by
  unfold Obligations.ResetValues
  have arrays : State.reset.key.toList = List.replicate 16 0 ∧ State.reset.iv.toList = List.replicate 16 0 ∧
      State.reset.salt.toList = List.replicate 8 0 := by decide
  obtain ⟨hkey, hiv, hsalt⟩ := arrays
  exact ⟨hkey, hiv, hsalt, Memory.get_zeros, Memory.get_zeros, Memory.get_zeros, rfl, rfl, rfl, rfl, rfl, rfl, rfl, rfl,
    rfl, rfl⟩

/-- Settles O39, by whose move the step is: the host's accepted command word, the sequencer's completion, or reset. -/
theorem phaseChangesInThreeWays : Obligations.PhaseChangesInThreeWays := by
  intro s t hstep hne
  rcases step_cases s with ⟨op, rest, hin, e⟩ | ⟨rest, hin, e⟩ | ⟨-, -, e⟩ | ⟨hcore, w, hbusy, e⟩ <;> rw [e] at hstep
  case inl =>
    cases hstep
    obtain ⟨w, rfl, hidle, hbusy⟩ := State.hostAccess_phase hne
    exact .inl ⟨w, rest, hin, hidle, hbusy⟩
  case inr.inl =>
    cases hstep
    exact .inr (.inr ⟨rest, hin, rfl⟩)
  case inr.inr.inl =>
    cases hstep
    exact absurd rfl hne
  case inr.inr.inr =>
    exact .inr (.inl ⟨w, hbusy, hcore, hstep, (completionStep_idle_done_ie hstep).1⟩)

/-- Settles O40: the level by definition, its rise by what every completion leaves in `DONE` and `IE`, its falls by whose
move the step is; the sequencer never lowers it. -/
theorem interruptLevelRisesAndFalls : Obligations.InterruptLevelRisesAndFalls := by
  refine ⟨fun _ => rfl, fun w s t hie h => completionStep_irq h hie, fun s t hstep hirq hfall => ?_⟩
  rcases step_cases s with ⟨op, rest, hin, e⟩ | ⟨rest, hin, e⟩ | ⟨-, -, e⟩ | ⟨-, w, -, e⟩ <;> rw [e] at hstep
  case inl =>
    cases hstep
    obtain ⟨hidle, v, hop⟩ := State.hostAccess_irq_falls (s := s.popInput) hirq hfall
    refine .inr ⟨v, rest, hidle, ?_⟩
    rcases hop with ⟨rfl, hv⟩ | ⟨rfl, hv⟩ | rfl
    · exact .inl ⟨hin, hv⟩
    · exact .inr (.inl ⟨hin, hv⟩)
    · exact .inr (.inr hin)
  case inr.inl => exact .inl ⟨rest, hin⟩
  case inr.inr.inl =>
    cases hstep
    exact absurd (hirq.symm.trans hfall) (by decide)
  case inr.inr.inr =>
    obtain ⟨hie, -⟩ := State.irq_iff.mp hirq
    exact absurd ((completionStep_irq hstep hie).symm.trans hfall) (by decide)

end Sys2Proof.Machine

/-! The host port (20_memory.md): the address map (R51), which accesses are well-formed and admitted (R52, R53), what a
refused access does (R58), and what the control words read as and take (R55, R56). -/

namespace Sys2Proof

theorem Params.pwMax_le (p : Params) : p.pwMax ≤ 4096 := Nat.le_of_lt_succ p.pwCap.isLt

theorem Params.bufMax_le (p : Params) : p.bufMax ≤ 65536 := by
  have hlt : p.bufBlocks.val < 4095 := p.bufBlocks.isLt
  simp only [Params.bufMax]
  omega

end Sys2Proof

namespace Sys2Proof.Machine

/-! ### The address map (20_memory.md rules R50, R51) -/

/-- The rows stand in rising order and apart from one another. -/
theorem addressMap_pairwise (p : Params) : (addressMap p).Pairwise fun r q => r.base + r.size ≤ q.base := by
  have hpw := p.pwMax_le
  have hbuf := p.bufMax_le
  simp only [addressMap, ctlRow, arrRow, List.pairwise_cons, List.forall_mem_cons, List.not_mem_nil, false_imp_iff,
    implies_true, List.Pairwise.nil, and_true]
  omega

/-- Every row ends inside the 18-bit address space, and its target's name stands for its first address (R50, R85). -/
theorem addressMap_row_bounds {p : Params} {r : Region} (hr : r ∈ addressMap p) :
    r.base + r.size ≤ 2 ^ 18 ∧ (targetAddr r.target).toNat = r.base := by
  have hpw := p.pwMax_le
  have hbuf := p.bufMax_le
  simp only [addressMap, List.mem_cons, List.not_mem_nil, or_false] at hr
  rcases hr with rfl | rfl | rfl | rfl | rfl | rfl | rfl | rfl | rfl | rfl | rfl | rfl <;>
    exact ⟨by simp only [ctlRow, arrRow]; omega, rfl⟩

/-- No address lies in two rows. -/
theorem addressMap_row_unique {p : Params} {a : Nat} {r q : Region} (hr : r ∈ addressMap p) (hq : q ∈ addressMap p)
    (hra : r.base ≤ a ∧ a < r.base + r.size) (hqa : q.base ≤ a ∧ a < q.base + q.size) : r = q := by
  have apart := addressMap_pairwise p
  refine List.Pairwise.forall_of_forall_of_flip
    (R := fun r q : Region => r.base ≤ a ∧ a < r.base + r.size → q.base ≤ a ∧ a < q.base + q.size → r = q)
    (fun _ _ _ _ => rfl) (apart.imp fun h _ _ => ?_) (apart.imp fun h _ _ => ?_) hr hq hra hqa <;> omega

/-- Where at least one byte is asked for, the row that holds them all is the one `regionAt` finds. -/
theorem regionAt_eq_some_iff {p : Params} {a n : Nat} {r : Region} (hn : 0 < n) :
    regionAt p a n = some r ↔ r ∈ addressMap p ∧ r.base ≤ a ∧ a + n ≤ r.base + r.size := by
  refine ⟨regionAt_some, fun ⟨hmem, hlo, hhi⟩ => ?_⟩
  have hcovers : r.covers a n = true := by simp [Region.covers, hlo, hhi]
  obtain ⟨q, hq⟩ : ∃ q, regionAt p a n = some q :=
    Option.isSome_iff_exists.mp (List.find?_isSome.mpr ⟨r, hmem, hcovers⟩)
  obtain ⟨hqmem, hqlo, hqhi⟩ := regionAt_some hq
  rw [hq, addressMap_row_unique (a := a) hqmem hmem (by omega) (by omega)]

/-- The row of a control word: at its own address, read-only for `OUTLEN` alone. -/
theorem ctlRow_mem_addressMap (p : Params) (c : CtlReg) :
    ctlRow (targetAddr (.ctl c)).toNat c (decide (c ≠ .outLen)) ∈ addressMap p := by
  cases c <;> simp [addressMap, targetAddr]

/-! ### Which accesses are well-formed and admitted (R52, R53) -/

/-- The four conditions of R52. -/
theorem accessWellFormed_iff {p : Params} {op : HostOp} :
    accessWellFormed p op = true ↔
      (op.size = 1 ∨ op.size = 2 ∨ op.size = 4) ∧ op.addr.toNat % op.size = 0 ∧
      ∃ r ∈ addressMap p, r.base ≤ op.addr.toNat ∧ op.addr.toNat + op.size ≤ r.base + r.size ∧
        op.size ∈ r.sizes ∧ (op.isWrite = true → r.writable = true) := by
  constructor
  · intro h
    obtain ⟨r, hr, hsize, hdir⟩ := accessWellFormed_region h
    obtain ⟨hmem, hlo, hhi⟩ := regionAt_some hr
    simp only [accessWellFormed, Bool.and_eq_true, beq_iff_eq] at h
    obtain ⟨⟨hn, halign⟩, -⟩ := h
    exact ⟨by simpa using hn, halign, r, hmem, hlo, hhi, hsize, hdir⟩
  · rintro ⟨hn, halign, r, hmem, hlo, hhi, hsize, hdir⟩
    have hr : regionAt p op.addr.toNat op.size = some r := (regionAt_eq_some_iff (by omega)).mpr ⟨hmem, hlo, hhi⟩
    have hdir' : (r.writable || !op.isWrite) = true := by
      cases hw : op.isWrite with
      | false => simp
      | true => simp [hdir hw]
    simp [accessWellFormed, hn, halign, hr, hsize, hdir']

/-- Every whole control word can be read, and each but `OUTLEN` written (R51). -/
theorem accessWellFormed_ctlWord_iff {p : Params} {op : HostOp} {c : CtlReg} (ha : op.addr = targetAddr (.ctl c))
    (hn : op.size = 4) : accessWellFormed p op = true ↔ (op.isWrite = true → c ≠ .outLen) := by
  have hmem := ctlRow_mem_addressMap p c
  rw [accessWellFormed_iff, ha, hn]
  constructor
  · rintro ⟨-, -, r, hr, hlo, hhi, -, hdir⟩ hw
    obtain rfl := addressMap_row_unique (a := (targetAddr (.ctl c)).toNat) hr hmem (by omega) (by simp [ctlRow])
    simpa [ctlRow] using hdir hw
  · intro hdir
    exact ⟨by decide, by cases c <;> rfl, _, hmem, le_rfl, le_rfl, List.mem_singleton.mpr rfl,
      fun hw => decide_eq_true (hdir hw)⟩

/-- R53: the port admits everything while idle, and a `STATUS` read always. -/
theorem State.admits_iff {s : State} {op : HostOp} : s.admits op = true ↔ s.phase = .idle ∨ op = .read 0x00004 4 := by
  cases hp : s.phase <;> simp [State.admits, State.isBusy, hp]

theorem State.admits_eq_false_iff {s : State} {op : HostOp} :
    s.admits op = false ↔ (∃ w, s.phase = .busy w) ∧ op ≠ .read 0x00004 4 := by
  rw [← State.isBusy_iff]
  simp [State.admits]

/-! ### What a refused and an admitted access do (R53, R58) -/

theorem State.refuse_eq (s : State) : s.refuse = { s with accErr := true, answers := .err :: s.answers } := rfl

/-- An access that is not well-formed, or is blocked, is refused. -/
theorem State.hostAccess_eq_refuse {s : State} {op : HostOp}
    (h : accessWellFormed s.params op = false ∨ s.admits op = false) : s.hostAccess op = s.refuse := by
  rcases s.hostAccess_cases op with ⟨-, e⟩ | ⟨hw, ha, -⟩
  · exact e
  · simp [hw, ha] at h

/-- A well-formed access is answered `err` exactly when it is blocked. -/
theorem State.hostAccess_err_iff {s : State} {op : HostOp} (hw : accessWellFormed s.params op = true) :
    (s.hostAccess op).answers = .err :: s.answers ↔ s.admits op = false := by
  refine ⟨fun herr => ?_, fun h => by rw [State.hostAccess_eq_refuse (.inr h), State.refuse_eq]⟩
  rcases s.hostAccess_cases op with ⟨h, -⟩ | ⟨-, -, r, -, ⟨a, n, -, e⟩ | ⟨a, n, v, -, -, e⟩⟩
  · simpa [hw] using h
  · simp [e] at herr
  · simp [e] at herr

/-! ### The control words (R55, R56) -/

/-- The row a well-formed access of a control word falls in. -/
theorem regionAt_ctlWord (p : Params) (c : CtlReg) :
    regionAt p (targetAddr (.ctl c)).toNat 4 = some (ctlRow (targetAddr (.ctl c)).toNat c (decide (c ≠ .outLen))) :=
  (regionAt_eq_some_iff (by decide)).mpr ⟨ctlRow_mem_addressMap p c, le_rfl, le_rfl⟩

/-- An admitted read of a control word answers its value and changes nothing else. -/
theorem State.hostAccess_readCtl {s : State} {c : CtlReg} (ha : s.admits (.read (targetAddr (.ctl c)) 4) = true) :
    s.hostAccess (.read (targetAddr (.ctl c)) 4) = s.answer (.data (s.ctlGet c)) := by
  have hw : accessWellFormed s.params (.read (targetAddr (.ctl c)) 4) = true :=
    (accessWellFormed_ctlWord_iff rfl rfl).mpr nofun
  simp [State.hostAccess, hw, ha, HostOp.addr, HostOp.size, regionAt_ctlWord, State.rowGet, ctlRow]

@[simp] theorem State.ctlSet_answers (s : State) (c : CtlReg) (v : Word) : (s.ctlSet c v).answers = s.answers := by
  cases c with
  | status => rw [State.ctlSet, State.writeStatus_eq]
  | cmd | ctrl | pwLen | inLen | outLen => rfl

/-- While idle a write of a control word other than `OUTLEN` does what the word says and answers `ok`. -/
theorem State.hostAccess_writeCtl {s : State} {c : CtlReg} (hidle : s.phase = .idle) (hc : c ≠ .outLen) (v : Word) :
    s.hostAccess (.write (targetAddr (.ctl c)) 4 v) = (s.ctlSet c v).answer .ok := by
  have hw : accessWellFormed s.params (.write (targetAddr (.ctl c)) 4 v) = true :=
    (accessWellFormed_ctlWord_iff rfl rfl).mpr fun _ => hc
  have ha : s.admits (.write (targetAddr (.ctl c)) 4 v) = true := State.admits_iff.mpr (.inl hidle)
  simp [State.hostAccess, hw, ha, HostOp.addr, HostOp.size, regionAt_ctlWord, State.rowSet, ctlRow]

/-- A write of `OUTLEN` is refused in every phase. -/
theorem State.hostAccess_writeOutLen (s : State) (v : Word) :
    s.hostAccess (.write (targetAddr (.ctl .outLen)) 4 v) = s.refuse :=
  State.hostAccess_eq_refuse (.inl (Bool.eq_false_iff.mpr fun hw =>
    (accessWellFormed_ctlWord_iff rfl rfl).mp hw rfl rfl))

/-- What a busy port does: the `STATUS` read is performed, everything else refused (R57). -/
theorem State.hostAccess_busy {s : State} (hbusy : s.isBusy = true) (op : HostOp) :
    s.hostAccess op = if op = .read 0x00004 4 then s.answer (.data s.statusWord) else s.refuse := by
  split
  case isTrue h => exact h ▸ s.hostAccess_statusRead
  case isFalse h =>
    exact State.hostAccess_eq_refuse (.inr (State.admits_eq_false_iff.mpr ⟨State.isBusy_iff.mp hbusy, h⟩))

theorem State.statusWord_flags (s : State) :
    s.statusWord.getLsbD 0 = s.isBusy ∧ s.statusWord.getLsbD 1 = s.done ∧ s.statusWord.getLsbD 2 = s.accErr ∧
      s.statusWord.getLsbD 3 = false := by
  simp only [State.statusWord, BitVec.getLsbD_append]
  simp

theorem State.statusWord_err (s : State) : s.statusWord.extractLsb' 4 4 = s.err := by
  refine BitVec.eq_of_getLsbD_eq fun i hi => ?_
  simp only [State.statusWord, BitVec.getLsbD_append, BitVec.getLsbD_extractLsb']
  simp [hi]

theorem State.statusWord_reserved (s : State) : s.statusWord.extractLsb' 8 24 = 0 := by
  refine BitVec.eq_of_getLsbD_eq fun i hi => ?_
  simp only [State.statusWord, BitVec.getLsbD_append, BitVec.getLsbD_extractLsb']
  simp [hi]

theorem State.ctrlWord_ie (s : State) : s.ctrlWord.getLsbD 0 = s.ie := by
  simp only [State.ctrlWord, BitVec.getLsbD_append]
  simp

theorem State.ctrlWord_reserved (s : State) : s.ctrlWord.extractLsb' 1 31 = 0 := by
  refine BitVec.eq_of_getLsbD_eq fun i hi => ?_
  simp only [State.ctrlWord, BitVec.getLsbD_append, BitVec.getLsbD_extractLsb']
  simp [hi]

/-! ### The statements -/

/-- Settles O27: the rows of the map, their order and bounds, and `CMD` as a control word that reads 0. -/
theorem addressMapRowsAreDisjoint : Obligations.AddressMapRowsAreDisjoint :=
  ⟨fun _ => rfl, fun p => ⟨addressMap_pairwise p, fun _ => addressMap_row_bounds⟩,
    fun _ hidle => State.hostAccess_readCtl (c := .cmd) (State.admits_iff.mpr (.inl hidle))⟩

/-- Settles O28: the four conditions, where the rows' disjointness makes the row unique, and the refusal. -/
theorem wellFormedAccessIsTheFourConditions : Obligations.WellFormedAccessIsTheFourConditions :=
  ⟨fun _ _ => accessWellFormed_iff, fun _ _ hw => State.hostAccess_eq_refuse (.inl hw)⟩

/-- Settles O29: both kinds of refused access, as a step. -/
theorem refusedAccessSetsAccErrOnly : Obligations.RefusedAccessSetsAccErrOnly := by
  intro s op rest hin hrefused
  have hport : s.popInput.hostAccess op = s.popInput.refuse :=
    State.hostAccess_eq_refuse (hrefused.imp id State.admits_eq_false_iff.mpr)
  rw [step_access hin, hport, State.refuse_eq, State.popInput, hin, List.tail_cons]

/-- Settles O30: a well-formed access is answered `err` only where it is not admitted. -/
theorem admittedExactlyWhenIdleOrStatusRead : Obligations.AdmittedExactlyWhenIdleOrStatusRead := by
  intro s t op rest hin hw hstep
  rw [step_access hin] at hstep
  cases hstep
  have herr := State.hostAccess_err_iff (s := s.popInput) hw
  exact (not_congr herr).trans (by rw [Bool.not_eq_false, State.admits_iff, State.popInput_phase])

/-- Settles O31: what a busy port answers depends on the operation and the `STATUS` word alone. -/
theorem busyPortShowsOnlyStatus : Obligations.BusyPortShowsOnlyStatus := by
  refine ⟨fun s op hbusy => State.hostAccess_busy hbusy op, fun s u op hs hu hstatus => ?_⟩
  rw [State.hostAccess_busy hs, State.hostAccess_busy hu, hstatus]
  by_cases hop : op = .read 0x00004 4
  · rw [if_pos hop, if_pos hop]
    exact ⟨.data u.statusWord, by simp [State.answer], by simp [State.answer]⟩
  · rw [if_neg hop, if_neg hop]
    exact ⟨.err, by simp [State.refuse_eq], by simp [State.refuse_eq]⟩

/-- Settles O35: each control word's read, and the bits of the two words put together from flags. -/
theorem controlWordReads : Obligations.ControlWordReads := by
  intro s reads
  obtain ⟨hbusy, hdone, haccErr, hzero⟩ := s.statusWord_flags
  refine ⟨⟨s.statusWord, s.hostAccess_statusRead, hbusy, hdone, haccErr, hzero, s.statusWord_err,
    s.statusWord_reserved⟩, fun hidle => ?_⟩
  have hread (c : CtlReg) : reads (targetAddr (.ctl c)) (s.ctlGet c) :=
    State.hostAccess_readCtl (State.admits_iff.mpr (.inl hidle))
  exact ⟨hread .cmd, hread .pwLen, hread .inLen, hread .outLen, s.ctrlWord, hread .ctrl, s.ctrlWord_ie,
    s.ctrlWord_reserved⟩

/-- Settles O36: each writable control word's effect, and the refusal of `OUTLEN`. -/
theorem controlWordWrites : Obligations.ControlWordWrites := by
  intro s v hidle writes
  have hwrite (c : CtlReg) (hc : c ≠ .outLen) : writes (targetAddr (.ctl c)) (s.ctlSet c v) :=
    (State.hostAccess_writeCtl hidle hc v).trans (by rw [State.answer, State.ctlSet_answers])
  have hstatus : s.ctlSet .status v =
      { s with
        done := s.done && !v.getLsbD 1, err := if v.getLsbD 1 then 0 else s.err
        accErr := s.accErr && !v.getLsbD 2 } := by
    rw [State.ctlSet, State.writeStatus_eq]
    cases v.getLsbD 1 <;> cases v.getLsbD 2 <;> simp
  refine ⟨hwrite .cmd nofun, ?_, hwrite .ctrl nofun, hwrite .pwLen nofun, hwrite .inLen nofun,
    s.hostAccess_writeOutLen v⟩
  rw [← hstatus]
  exact hwrite .status nofun

end Sys2Proof.Machine

/-! The command word (30_encoding.md rules R80 to R82): what `decode` asks of a word's two fields, what the bytes of a word
decode to, and what a write of a word to `CMD` does. -/

namespace Sys2Proof

/-! ### The decoder and the encoder, by the two fields of a word (R80, R82) -/

theorem eq_encode_iff {w : Word} {i : Instr} : w = encode i ↔ rsvField w = 0 ∧ opField w = opcode i := by
  constructor
  · rintro rfl
    exact ⟨BitVec.extractLsb'_append_eq_left, BitVec.extractLsb'_append_eq_right⟩
  · rintro ⟨hrsv, hop⟩
    have hfields : rsvField w ++ opField w = w := BitVec.extractLsb'_append_extractLsb'
    rw [← hfields, hrsv, hop, encode]

theorem decode_eq_ok_iff {w : Word} {i : Instr} : decode w = .ok i ↔ rsvField w = 0 ∧ opField w = opcode i := by
  constructor
  · intro h
    unfold decode at h
    split at h
    case isTrue => cases h
    case isFalse hrsv =>
      refine ⟨not_not.mp hrsv, ?_⟩
      split at h <;> cases h <;> next hop => exact BitVec.eq_of_toNat_eq hop
  · rintro ⟨hrsv, hop⟩
    rw [decode, if_neg (not_not.mpr hrsv), hop]
    cases i <;> rfl

theorem decode_eq_ok_iff_eq_encode {w : Word} {i : Instr} : decode w = .ok i ↔ w = encode i :=
  decode_eq_ok_iff.trans eq_encode_iff.symm

/-! ### The decoder of byte strings -/

theorem decodeBytes_cons4 (b0 b1 b2 b3 : Byte) (rest : Bytes) :
    decodeBytes (b0 :: b1 :: b2 :: b3 :: rest) =
      (decode (Machine.le32 [b0, b1, b2, b3])).map fun i => (i, rest) := by
  rw [decodeBytes]
  cases decode (Machine.le32 [b0, b1, b2, b3]) <;> rfl

/-- The four bytes of any word, legal or not, decode as the word itself, whatever follows them. -/
theorem decodeBytes_le32inv_append (w : Word) (rest : Bytes) :
    decodeBytes (Machine.le32inv w ++ rest) = (decode w).map fun i => (i, rest) :=
  calc decodeBytes (Machine.le32inv w ++ rest)
    _ = (decode (Machine.le32 (Machine.le32inv w))).map fun i => (i, rest) := decodeBytes_cons4 _ _ _ _ rest
    _ = (decode w).map fun i => (i, rest) := by rw [Machine.le32_le32inv]

end Sys2Proof

namespace Sys2Proof.Machine

/-! ### The statements -/

/-- Settles O1: both conditions on the word are what `decode` asks of its two fields, and its bytes carry the word. -/
theorem decodeSelectsExactlyTheCommandWord : Obligations.DecodeSelectsExactlyTheCommandWord := by
  refine ⟨fun _ _ => decode_eq_ok_iff_eq_encode, fun _ _ => decode_eq_ok_iff, fun i rest _ => ?_,
    rfl, rfl, rfl, rfl, rfl, rfl⟩
  have hdecode : decode (encode i) = .ok i := decode_eq_ok_iff_eq_encode.mpr rfl
  rw [encodeBytes, decodeBytes_le32inv_append, hdecode, Except.map]

/-- Settles O37: while idle the write of `CMD` accepts the word; while busy it is an access the port refuses. -/
theorem commandAcceptance : Obligations.CommandAcceptance := by
  intro s w rest hin
  refine ⟨fun hidle => ?_, fun w' hbusy => ?_⟩
  · have haccept : s.popInput.hostAccess (.write 0x00000 4 w) = (s.popInput.accept w).answer .ok :=
      State.hostAccess_writeCtl (s := s.popInput) (c := .cmd) hidle nofun w
    rw [step_access hin, haccept, State.popInput, hin, List.tail_cons]
    rfl
  · exact refusedAccessSetsAccErrOnly s _ rest hin (.inr ⟨⟨w', hbusy⟩, nofun⟩)

end Sys2Proof.Machine

/-! The MD5 primitive (40_md5.md): where the parts of the padded message stand, and the loop over its blocks read by index. -/

namespace Sys2Proof.Machine

/-! ### The padded message (R101) -/

/-- The padding: `80`, the zeros and the bit length. -/
theorem md5Pad_eq_append (m : Bytes) :
    md5Pad m = m ++ (0x80 :: (rep 0 (md5ZeroCount m.length) ++ le64inv (8 * m.length))) := by
  simp [md5Pad]

@[simp] theorem le64inv_length (n : Nat) : (le64inv n).length = 8 := leBytes_length 8 _

theorem leValue_le64inv (n : Nat) : leValue (le64inv n) = n % 2 ^ 64 := by
  rw [le64inv, leValue_leBytes]
  exact Nat.mod_mod n (2 ^ 64)

theorem md5Pad_length_eq_add (m : Bytes) : (md5Pad m).length = m.length + 1 + md5ZeroCount m.length + 8 := by
  simp only [md5Pad, List.length_append, List.length_singleton, rep_length, le64inv_length]

/-- The zeros fill up to the least multiple of 64. -/
theorem md5Pad_length (m : Bytes) : (md5Pad m).length = 64 * ((m.length + 8) / 64 + 1) := by
  rw [md5Pad_length_eq_add, md5ZeroCount]
  omega

theorem md5Pad_take_length (m : Bytes) : (md5Pad m).take m.length = m := by
  rw [md5Pad_eq_append, List.take_left]

theorem md5Pad_getD_length (m : Bytes) : (md5Pad m).getD m.length 0 = 0x80 := by
  rw [md5Pad_eq_append, List.getD_append_right _ _ _ _ le_rfl, Nat.sub_self, List.getD_cons_zero]

theorem md5Pad_getD_zero {m : Bytes} {k : Nat} (hlo : m.length < k) (hhi : k < (md5Pad m).length - 8) :
    (md5Pad m).getD k 0 = 0 := by
  rw [md5Pad_length_eq_add] at hhi
  obtain ⟨j, rfl⟩ : ∃ j, k = m.length + (j + 1) := ⟨k - m.length - 1, by omega⟩
  have hj : j < md5ZeroCount m.length := by omega
  rw [md5Pad_eq_append, List.getD_append_right _ _ _ _ (Nat.le_add_right _ _), Nat.add_sub_cancel_left,
    List.getD_cons_succ, List.getD_append _ _ _ _ (by simpa using hj), rep, List.getD_replicate _ hj]

theorem md5Pad_drop_last8 (m : Bytes) : (md5Pad m).drop ((md5Pad m).length - 8) = le64inv (8 * m.length) :=
  List.drop_left' (by simp only [md5Pad, List.length_append, le64inv_length, Nat.add_sub_cancel])

/-! ### Blocks and message words by index (R103, R106) -/

/-- Piece `q` begins at byte `size * q`. -/
theorem pieces_eq_map_range (size nb : Nat) (p : Bytes) :
    pieces size nb p = (List.range nb).map fun q => (p.drop (size * q)).take size := by
  induction nb generalizing p with
  | zero => rfl
  | succ nb ih =>
    rw [pieces, ih, List.range_succ_eq_map, List.map_cons, List.map_map, Nat.mul_zero, List.drop_zero]
    congr 2
    funext q
    rw [Function.comp_apply, List.drop_drop, Nat.mul_succ, Nat.add_comm]

/-- Message word `j` of block `q` of a string is read at byte `64 * q + 4 * j` of the string. -/
theorem md5Words_getD {j : Nat} (hj : j < 16) (p : Bytes) (q : Nat) :
    (md5Words ((p.drop (64 * q)).take 64)).getD j 0 =
      BitVec.ofNat 32 (leValue ((p.drop (64 * q + 4 * j)).take 4)) := by
  have hin : 4 ≤ 64 - 4 * j := by omega
  have hbytes : (((p.drop (64 * q)).take 64).drop (4 * j)).take 4 = (p.drop (64 * q + 4 * j)).take 4 := by
    rw [List.drop_take, List.take_take, min_eq_left hin, List.drop_drop]
  simp [md5Words, pieces_eq_map_range, hj, le32, hbytes, List.take_take]

theorem md5Index_lt {i : Nat} : md5Index i < 16 := by
  unfold md5Index
  split
  · assumption
  · split
    · omega
    · split <;> omega

/-- The four rows of rotation amounts, as one table. -/
theorem md5Rot_eq_getD : ∀ i < 64, md5Rot i =
    [7, 12, 17, 22, 5, 9, 14, 20, 4, 11, 16, 23, 6, 10, 15, 21].getD (4 * (i / 16) + i % 4) 0 := by
  decide

/-- A step on block `q` of a string, its message word read from the string. -/
theorem md5Step_block {i : Nat} (hi : i < 64) (p : Bytes) (q : Nat) (c : Md5Chain) :
    md5Step (md5Words ((p.drop (64 * q)).take 64)) c i =
      let t := c.a + md5Aux i c.b c.c c.d +
        BitVec.ofNat 32 (leValue ((p.drop (64 * q + 4 * md5Index i)).take 4)) + md5T.getD i 0
      let s := [7, 12, 17, 22, 5, 9, 14, 20, 4, 11, 16, 23, 6, 10, 15, 21].getD (4 * (i / 16) + i % 4) 0
      { a := c.d, b := c.b + ((t <<< s) ||| (t >>> (32 - s))), c := c.b, d := c.c } := by
  rw [md5Step, md5Words_getD md5Index_lt, md5Rot_eq_getD i hi]
  rfl

/-! ### The digest (R107, R108) -/

/-- The loop of R107 over block indices. -/
theorem md5Final_eq_foldl_range (m : Bytes) :
    md5Final m = (List.range ((md5Pad m).length / 64)).foldl
      (fun c q => md5Block c (((md5Pad m).drop (64 * q)).take 64)) md5Init := by
  rw [md5Final, pieces_eq_map_range, List.foldl_map]

theorem md5_toList (m : Bytes) :
    (md5 m).toList =
      le32inv (md5Final m).a ++ le32inv (md5Final m).b ++ le32inv (md5Final m).c ++ le32inv (md5Final m).d :=
  arrayOf_toList (by simp)

/-! ### The statement -/

/-- Settles O45: the parts of the padding by position, and the loops of the two sides agree step by step. -/
theorem md5PaddingLayout : Obligations.Md5PaddingLayout := by
  intro m p f g rot word steps final
  have hsteps (q : Nat) (c : Md5Chain) :
      (List.range 64).foldl (md5Step (md5Words ((p.drop (64 * q)).take 64))) c = steps q c :=
    List.foldl_ext _ _ _ fun c i hi => md5Step_block (List.mem_range.mp hi) p q c
  have hfinal : md5Final m = final := by
    rw [md5Final_eq_foldl_range]
    refine List.foldl_ext _ _ _ fun c q _ => ?_
    rw [md5Block, hsteps]
  refine ⟨⟨md5Pad_length m, md5Pad_take_length m, md5Pad_getD_length m, fun _ => md5Pad_getD_zero, ?_⟩, ?_⟩
  · rw [md5Pad_drop_last8, leValue_le64inv]
  · rw [md5_toList, hfinal]

end Sys2Proof.Machine

/-! Key derivation (41_kdf.md rule R123): the command DERIVE on either side of the capacity of `PW`, its completion written
out field by field. -/

namespace Sys2Proof.Machine

/-! ### The two completions, written out (60_exceptions.md rules R235, R236) -/

theorem State.complete_eq (s : State) (r : Bytes) :
    s.complete r = { s with
      out := Memory.ofBytes r, outLen := BitVec.ofNat 32 r.length, err := 0, done := true, phase := .idle } := rfl

theorem State.fail_eq (s : State) (e : ErrKind) :
    s.fail e = { s with out := Memory.zeros, outLen := 0, err := e.code, done := true, phase := .idle } := rfl

/-! ### DERIVE (41_kdf.md rule R123) -/

theorem State.passwordFits_iff {s : State} : s.passwordFits = true ↔ s.pwLen.toNat ≤ s.params.pwMax := decide_eq_true_iff

theorem exec_deriveCmd (s : State) : exec .deriveCmd s = execDerive s := rfl

theorem execDerive_of_fits {s : State} (h : s.passwordFits = true) :
    execDerive s = .next
      ((s.setKeyIv (deriveKeyIv s.password s.salt).1 (deriveKeyIv s.password s.salt).2).complete []) :=
  congrArg _ (if_pos h)

theorem execDerive_of_not_fits {s : State} (h : ¬ s.passwordFits = true) :
    execDerive s = .next (s.fail .lengthError) :=
  congrArg _ (if_neg h)

/-- Settles O10: `Derive` by definition, and DERIVE by whether the password fits: a success with no data output after the
write of `KEY` and `IV`, or the typed failure from the state as it stood. -/
theorem deriveWritesKeyAndIv : Obligations.DeriveWritesKeyAndIv := by
  refine ⟨fun _ _ => rfl, fun s => ⟨fun hfits => ?_, fun hlong => ?_⟩⟩
  · rw [exec_deriveCmd, execDerive_of_fits (State.passwordFits_iff.mpr hfits), State.complete_eq]
    rfl
  · have hno : ¬ s.passwordFits = true := mt State.passwordFits_iff.mp (Nat.not_le.mpr hlong)
    rw [exec_deriveCmd, execDerive_of_not_fits hno, State.fail_eq]
    rfl

end Sys2Proof.Machine

/-! Key expansion (42_aes128.md rules R145, R146): the loop over the words read by index, and the round keys as runs of
four words. -/

namespace Sys2Proof.Machine

/-! ### The round constants (R145) -/

theorem rcon_succ : ∀ j, 1 ≤ j → j < 10 → rcon (j + 1) = xtime (rcon j) := by decide

/-! ### The word a new word is built from (R146) -/

theorem keyMix_of_mod_ne_zero {i : Nat} (h : i % 4 ≠ 0) (t : Vector Byte 4) : keyMix i t = t := if_neg h

theorem keyMix_of_mod_eq_zero {i : Nat} (h : i % 4 = 0) (t : Vector Byte 4) :
    keyMix i t = #v[sbox t[1] ^^^ rcon (i / 4), sbox t[2], sbox t[3], sbox t[0]] := if_pos h

/-! ### The loop over the words (R146)

The loop holds the words newest first; read from the oldest on, it only appends. -/

@[simp] theorem keyWordsLoop_length (left i : Nat) (ws : List (Vector Byte 4)) :
    (keyWordsLoop left i ws).length = left + ws.length := by
  induction left generalizing i ws with
  | zero => simp [keyWordsLoop]
  | succ left ih => rw [keyWordsLoop, ih, List.length_cons]; omega

/-- The loop keeps the words it begins with. -/
theorem keyWordsLoop_reverse_getD_of_lt {ws : List (Vector Byte 4)} {k : Nat} (hk : k < ws.length) (left i : Nat)
    (d : Vector Byte 4) : (keyWordsLoop left i ws).reverse.getD k d = ws.reverse.getD k d := by
  induction left generalizing i ws with
  | zero => rfl
  | succ left ih =>
    rw [keyWordsLoop, ih (by rw [List.length_cons]; omega), List.reverse_cons,
      List.getD_append _ _ _ _ (by simpa using hk)]

/-- Counted back from the newest, a word the loop begins with stands where it stood. -/
theorem keyWordsLoop_reverse_getD_sub {ws : List (Vector Byte 4)} {j : Nat} (hj : j ≤ ws.length) (left i : Nat)
    (x d : Vector Byte 4) : (keyWordsLoop left i (x :: ws)).reverse.getD (ws.length - j) d = (x :: ws).getD j d := by
  have hlt : ws.length - j < (x :: ws).length := by rw [List.length_cons]; omega
  have hback : (x :: ws).length - 1 - (ws.length - j) = j := by rw [List.length_cons]; omega
  rw [keyWordsLoop_reverse_getD_of_lt hlt, List.getD_reverse _ hlt, hback]

/-- Every word the loop adds is made from the one four before it and the one just before it. The word added first is put
on top of those it is made from, and the loop keeps all of them; a later word is one that the rest of the loop adds. -/
theorem keyWordsLoop_recurrence {left i k : Nat} {ws : List (Vector Byte 4)} (hi : ws.length = i) (h4 : 4 ≤ i)
    (hlo : i ≤ k) (hhi : k < left + i) :
    let w := fun j => (keyWordsLoop left i ws).reverse.getD j (arrayOf 4 [])
    w k = xorArray (w (k - 4)) (keyMix k (w (k - 1))) := by
  induction left generalizing i ws with
  | zero => omega
  | succ left ih =>
    rcases hlo.eq_or_lt with rfl | hlt
    · subst hi
      simp only [keyWordsLoop]
      rw [keyWordsLoop_reverse_getD_sub h4, keyWordsLoop_reverse_getD_sub (by omega : 1 ≤ ws.length)]
      exact keyWordsLoop_reverse_getD_sub (Nat.zero_le _) left _ _ _
    · exact ih (by rw [List.length_cons, hi]) (by omega) hlt (by omega)

/-! ### The expanded key (R146) -/

/-- Word `w[i]` of the expanded key. -/
def keyWord (key : Block) (i : Nat) : Vector Byte 4 := (keyWords key).getD i (arrayOf 4 [])

@[simp] theorem keyWords_length (key : Block) : (keyWords key).length = 44 := by simp [keyWords]

@[simp] theorem keyExpansion_length (key : Block) : (keyExpansion key).length = 11 := by simp [keyExpansion]

theorem keyWord_toList_of_lt {i : Nat} (hi : i < 4) (key : Block) :
    (keyWord key i).toList = (key.toList.drop (4 * i)).take 4 := by
  have hpiece : keyWord key i = arrayOf 4 ((key.toList.drop (4 * i)).take 4) := by
    rw [keyWord, keyWords, keyWordsLoop_reverse_getD_of_lt (by simpa using hi), List.reverse_reverse,
      pieces_eq_map_range]
    simp [hi]
  rw [hpiece, arrayOf_toList (by simp; omega)]

theorem keyWord_recurrence {i : Nat} (hlo : 4 ≤ i) (hhi : i < 44) (key : Block) :
    keyWord key i = xorArray (keyWord key (i - 4)) (keyMix i (keyWord key (i - 1))) :=
  keyWordsLoop_recurrence (by simp) le_rfl hlo hhi

/-- A run of `n` elements that the list is long enough for, by index. -/
theorem take_drop_eq_map_range {α : Type} {l : List α} {k n : Nat} (h : k + n ≤ l.length) (d : α) :
    (l.drop k).take n = (List.range n).map fun j => l.getD (k + j) d := by
  refine List.ext_getElem (by simp; omega) fun j hj _ => ?_
  have hin : k + j < l.length := by rw [List.length_take] at hj; omega
  rw [List.getElem_take, List.getElem_drop, List.getElem_map, List.getElem_range, List.getD_eq_getElem _ _ hin]

theorem roundKey_toList {r : Nat} (hr : r < 11) (key : Block) :
    (roundKey (keyWords key) r).toList =
      (keyWord key (4 * r)).toList ++ (keyWord key (4 * r + 1)).toList ++ (keyWord key (4 * r + 2)).toList ++
        (keyWord key (4 * r + 3)).toList := by
  have hwords : ((keyWords key).drop (4 * r)).take 4 =
      [keyWord key (4 * r), keyWord key (4 * r + 1), keyWord key (4 * r + 2), keyWord key (4 * r + 3)] :=
    take_drop_eq_map_range (by rw [keyWords_length]; omega) _
  rw [roundKey, hwords, blockOf, arrayOf_toList (by simp)]
  simp

theorem keyExpansion_getD {r : Nat} (hr : r < 11) (key d : Block) :
    (keyExpansion key).getD r d = roundKey (keyWords key) r := by
  simp [keyExpansion, hr]

/-! ### The statement -/

/-- Settles O48: the constants by evaluation; the words by the recurrence of the loop, its two cases those of `keyMix`;
the round keys as four words each. -/
theorem keyExpansionRecurrence : Obligations.KeyExpansionRecurrence := by
  refine ⟨rfl, rcon_succ, fun key => ⟨keyWords_length key, keyExpansion_length key,
    fun i hi => keyWord_toList_of_lt hi key, fun i hlo hhi hmod => ?_, fun i hlo hhi hmod => ?_, fun r hr => ?_⟩⟩
  · exact (keyWord_recurrence hlo hhi key).trans (by rw [keyMix_of_mod_ne_zero hmod]; rfl)
  · exact (keyWord_recurrence hlo hhi key).trans (by rw [keyMix_of_mod_eq_zero hmod]; rfl)
  · rw [keyExpansion_getD hr]
    exact roundKey_toList hr key

end Sys2Proof.Machine

/-! Padding and CBC mode (43_cbc_pkcs7.md rules R165 to R173): the bytes that `pad` appends and `unpad` asks for, what
`decrypt` gives and how long it is, and the commands ENCRYPT and DECRYPT on either side of the capacity of `IN` and `OUT`. -/

namespace Sys2Proof

theorem Params.bufMax_mod (p : Params) : p.bufMax % 16 = 0 := Nat.mul_mod_right 16 _

end Sys2Proof

namespace Sys2Proof.Machine

/-! ### Padding (R165, R166) -/

theorem padLen_le_of_lt {len k : Nat} (hk : k % 16 = 0) (hlt : len < k) : padLen len ≤ k := by unfold padLen; omega

theorem rep_getD {n k : Nat} (hk : k < n) (v : Byte) : (rep v n).getD k 0 = v := List.getD_replicate _ hk

theorem pad_eq_append (m : Bytes) :
    pad m = m ++ rep (BitVec.ofNat 8 (16 - m.length % 16)) (16 - m.length % 16) := rfl

theorem pad_length_eq_add (m : Bytes) : (pad m).length = m.length + (16 - m.length % 16) := by
  rw [pad_eq_append, List.length_append, rep_length]

theorem pad_take_length (m : Bytes) : (pad m).take m.length = m := List.take_left

/-- Every byte of a padded string past the message holds the count. -/
theorem pad_getD_of_le {m : Bytes} {k : Nat} (hlo : m.length ≤ k) (hhi : k < (pad m).length) :
    ((pad m).getD k 0).toNat = 16 - m.length % 16 := by
  rw [pad_length_eq_add] at hhi
  rw [pad_eq_append, List.getD_append_right _ _ _ _ hlo, rep_getD (by omega), BitVec.toNat_ofNat]
  omega

/-! ### Removing the padding (R167) -/

/-- `Unpad` in terms of the count `n` that the string ends with. -/
theorem unpad_eq_some_iff {p r : Bytes} {n : Nat} (hn : (p.getLastD 0).toNat = n) :
    unpad p = some r ↔
      (1 ≤ n ∧ n ≤ 16) ∧ (∀ b ∈ p.drop (p.length - n), b.toNat = n) ∧ p.take (p.length - n) = r := by
  simp only [unpad, hn, Option.ite_none_left_eq_some, Option.ite_none_right_eq_some, Option.some_inj,
    List.all_eq_true, beq_iff_eq]
  exact and_congr_left fun _ => by omega

/-- The last `n` elements of a list, each by its distance from the end. -/
theorem forall_mem_drop_length_sub_iff {α : Type} {l : List α} {n : Nat} (hn : n ≤ l.length) (d : α) (P : α → Prop) :
    (∀ x ∈ l.drop (l.length - n), P x) ↔ ∀ j, 1 ≤ j → j ≤ n → P (l.getD (l.length - j) d) := by
  constructor
  · intro h j hj hjn
    have hlt : l.length - j < l.length := by omega
    rw [List.getD_eq_getElem _ _ hlt]
    exact h _ (List.mem_drop_iff_getElem.mpr ⟨n - j, by omega, by congr 1; omega⟩)
  · intro h x hx
    obtain ⟨i, hi, rfl⟩ := List.mem_drop_iff_getElem.mp hx
    have hat := h (n - i) (by omega) (Nat.sub_le _ _)
    have hidx : l.length - (n - i) = l.length - n + i := by omega
    rwa [hidx, List.getD_eq_getElem _ _ (by omega)] at hat

theorem getLastD_eq_getD (p : Bytes) : p.getLastD 0 = p.getD (p.length - 1) 0 := by
  rw [List.getLastD_eq_getLast?, List.getLast?_eq_getElem?, List.getD_eq_getElem?_getD]

/-- `Unpad` on at least one block, by the index of each byte it checks. -/
theorem unpad_eq_some_iff_getD {p r : Bytes} {n : Nat} (hlen : 16 ≤ p.length)
    (hn : (p.getD (p.length - 1) 0).toNat = n) :
    unpad p = some r ↔ 1 ≤ n ∧ n ≤ 16 ∧ (∀ j, 1 ≤ j → j ≤ n → (p.getD (p.length - j) 0).toNat = n) ∧
      r = p.take (p.length - n) := by
  rw [unpad_eq_some_iff (by rw [getLastD_eq_getD, hn]), and_assoc, eq_comm (b := r)]
  refine and_congr_right fun _ => and_congr_right fun hle => and_congr_left fun _ => ?_
  exact forall_mem_drop_length_sub_iff (by omega) 0 _

/-- `Unpad` undoes `Pad`. -/
theorem unpad_pad (m : Bytes) : unpad (pad m) = some m := by
  have hlen := pad_length_eq_add m
  have hbyte : ∀ j, 1 ≤ j → j ≤ 16 - m.length % 16 →
      ((pad m).getD ((pad m).length - j) 0).toNat = 16 - m.length % 16 := fun j hj hle =>
    pad_getD_of_le (by omega) (by omega)
  refine (unpad_eq_some_iff_getD (by omega) (hbyte 1 le_rfl (by omega))).mpr ⟨by omega, by omega, hbyte, ?_⟩
  rw [hlen, Nat.add_sub_cancel, pad_take_length]

/-- `Unpad` takes off 1 to 16 bytes. -/
theorem unpad_length_bounds {p r : Bytes} (hp : p ≠ []) (h : unpad p = some r) :
    p.length ≤ r.length + 16 ∧ r.length + 1 ≤ p.length := by
  obtain ⟨⟨hlo, hhi⟩, -, rfl⟩ := (unpad_eq_some_iff rfl).mp h
  have hpos := List.length_pos_of_ne_nil hp
  rw [List.length_take]
  omega

/-! ### Decryption (R171) -/

theorem decrypt_of_ragged {c : Bytes} (hc : c.length % 16 ≠ 0) (em : EmptyCt) (k v : Block) :
    decrypt em c k v = .error .paddingError := if_pos hc

theorem decrypt_nil_eq_ok_iff {em : EmptyCt} {k v : Block} {r : Bytes} :
    decrypt em [] k v = .ok r ↔ em = .empty ∧ r = [] := by
  cases em with
  | fault => exact iff_of_false nofun nofun
  | empty => exact ⟨fun h => ⟨rfl, (Except.ok.inj h).symm⟩, fun ⟨_, hr⟩ => congrArg Except.ok hr.symm⟩

theorem decrypt_blocks_eq_ok_iff {c : Bytes} (hc : c ≠ []) (hblocks : c.length % 16 = 0) {em : EmptyCt} {k v : Block}
    {r : Bytes} : decrypt em c k v = .ok r ↔ unpad (cbcDecryptRaw k v c) = some r := by
  unfold decrypt
  rw [if_neg (not_not.mpr hblocks), if_neg (mt List.length_eq_zero_iff.mp hc)]
  cases unpad (cbcDecryptRaw k v c) with
  | none => exact iff_of_false nofun nofun
  | some b => exact ⟨fun h => congrArg some (Except.ok.inj h), fun h => congrArg Except.ok (Option.some.inj h)⟩

/-- The inputs that decrypt: whole blocks with a right padding, or nothing under `EMPTY_CT = empty`. -/
theorem decrypt_eq_ok_iff {em : EmptyCt} {c r : Bytes} {k v : Block} :
    decrypt em c k v = .ok r ↔
      (c ≠ [] ∧ c.length % 16 = 0 ∧ unpad (cbcDecryptRaw k v c) = some r) ∨ (c = [] ∧ em = .empty ∧ r = []) := by
  by_cases hc : c = []
  · subst hc
    rw [decrypt_nil_eq_ok_iff]
    simp
  by_cases hblocks : c.length % 16 = 0
  · rw [decrypt_blocks_eq_ok_iff hc hblocks]
    simp [hc, hblocks]
  · rw [decrypt_of_ragged hblocks]
    simp [hc, hblocks]

theorem decrypt_eq_error {em : EmptyCt} {c : Bytes} {k v : Block} {e : ErrKind} (h : decrypt em c k v = .error e) :
    e = .paddingError := by
  rcases decrypt_cases em c k v with herr | ⟨r, hok, -⟩
  · exact (Except.error.inj (herr.symm.trans h)).symm
  · exact absurd (hok.symm.trans h) nofun

/-- A plaintext is 1 to 16 bytes shorter than its ciphertext, unless both are empty. -/
theorem decrypt_ok_length {em : EmptyCt} {c r : Bytes} {k v : Block} (h : decrypt em c k v = .ok r) :
    (c.length ≤ r.length + 16 ∧ r.length + 1 ≤ c.length) ∨ (c = [] ∧ r = [] ∧ em = .empty) := by
  rcases decrypt_eq_ok_iff.mp h with ⟨hc, hblocks, hunpad⟩ | ⟨hc, hem, hr⟩
  · have hlen : (cbcDecryptRaw k v c).length = c.length := by rw [cbcDecryptRaw_length]; omega
    have hraw : cbcDecryptRaw k v c ≠ [] := fun hnil => hc (List.length_eq_zero_iff.mp (by rw [← hlen, hnil]; rfl))
    exact .inl (hlen ▸ unpad_length_bounds hraw hunpad)
  · exact .inr ⟨hc, hr, hem⟩

/-! ### ENCRYPT and DECRYPT (R172, R173) -/

theorem exec_encryptCmd (s : State) : exec .encryptCmd s = execEncrypt s := rfl

theorem exec_decryptCmd (s : State) : exec .decryptCmd s = execDecrypt s := rfl

theorem State.dataFits_iff {s : State} : s.dataFits = true ↔ s.inLen.toNat ≤ s.params.bufMax := decide_eq_true_iff

theorem State.resultFits_iff {s : State} {n : Nat} : s.resultFits n = true ↔ n ≤ s.params.bufMax := decide_eq_true_iff

/-- Input and padded result fit exactly when the input is shorter than the capacity, itself a multiple of 16. -/
theorem State.encryptFits_iff {s : State} :
    (s.dataFits && s.resultFits (padLen s.inLen.toNat)) = true ↔ s.inLen.toNat < s.params.bufMax := by
  rw [Bool.and_eq_true, State.dataFits_iff, State.resultFits_iff]
  constructor
  · exact fun ⟨_, hresult⟩ => Nat.lt_of_lt_of_le (padLen_gt _) hresult
  · exact fun hlt => ⟨hlt.le, padLen_le_of_lt s.params.bufMax_mod hlt⟩

theorem execEncrypt_of_fits {s : State} (h : (s.dataFits && s.resultFits (padLen s.inLen.toNat)) = true) :
    execEncrypt s = .next (s.complete (encrypt s.dataIn s.key s.iv)) := congrArg _ (if_pos h)

theorem execEncrypt_of_not_fits {s : State} (h : ¬ (s.dataFits && s.resultFits (padLen s.inLen.toNat)) = true) :
    execEncrypt s = .next (s.fail .lengthError) := congrArg _ (if_neg h)

theorem execDecrypt_of_fits {s : State} (h : s.dataFits = true) :
    execDecrypt s = .next (s.finish (decrypt s.params.emptyCt s.dataIn s.key s.iv)) := congrArg _ (if_pos h)

theorem execDecrypt_of_not_fits {s : State} (h : ¬ s.dataFits = true) :
    execDecrypt s = .next (s.fail .lengthError) := congrArg _ (if_neg h)

/-! ### The statements -/

/-- Settles O51, from the three bounds of `padLen`. -/
theorem padLenIsTheLeastGreaterMultiple : Obligations.PadLenIsTheLeastGreaterMultiple := fun len =>
  ⟨padLen_dvd len, padLen_gt len, fun _ hk hlt => padLen_le_of_lt hk hlt⟩

/-- Settles O52, from the padded string read as the message and the repeated count after it. -/
theorem padAppendsTheCount : Obligations.PadAppendsTheCount := fun m =>
  ⟨by omega, by omega, pad_length_eq m, pad_take_length m, fun _ hlo hhi => pad_getD_of_le hlo hhi⟩

/-- Settles O53: a non-empty whole number of blocks holds the at most 16 bytes that `Unpad` checks. -/
theorem unpadChecksEveryByteAndInvertsPad : Obligations.UnpadChecksEveryByteAndInvertsPad := by
  refine ⟨fun p r hp hblocks => ?_, unpad_pad⟩
  have hpos := List.length_pos_of_ne_nil hp
  exact unpad_eq_some_iff_getD (by omega) rfl

/-- Settles O11: ENCRYPT by whether input and padded result fit. -/
theorem encryptWritesCiphertext : Obligations.EncryptWritesCiphertext := by
  refine fun s => ⟨fun hfits => ?_, fun hlong => ?_⟩
  · have hlen : (encrypt s.dataIn s.key s.iv).length = padLen s.inLen.toNat := by
      rw [encrypt_length, State.dataIn_length]
    rw [exec_encryptCmd, execEncrypt_of_fits (State.encryptFits_iff.mpr hfits), State.complete_eq, hlen]
    rfl
  · have hno := mt State.encryptFits_iff.mp (Nat.not_lt.mpr hlong)
    rw [exec_encryptCmd, execEncrypt_of_not_fits hno, State.fail_eq]
    rfl

/-- Settles O12: `Decrypt` by the kind of its input, and DECRYPT by whether the input fits and what `Decrypt` gives. -/
theorem decryptWritesPlaintext : Obligations.DecryptWritesPlaintext := by
  refine ⟨fun _ _ _ _ _ => decrypt_eq_ok_iff, fun _ _ _ _ _ => decrypt_eq_error, fun s =>
    ⟨fun r hfits hok => ⟨?_, ?_⟩, fun e hfits herr => ?_, fun hlong => ?_⟩⟩
  · have hdec : decrypt s.params.emptyCt s.dataIn s.key s.iv = .ok r := hok
    rw [exec_decryptCmd, execDecrypt_of_fits (State.dataFits_iff.mpr hfits), hdec, State.finish, State.complete_eq]
  · have hlen : s.dataIn.length = s.inLen.toNat := s.dataIn_length
    rcases decrypt_ok_length (c := s.dataIn) hok with hbounds | ⟨hnil, hr, hem⟩
    · exact .inl (hlen ▸ hbounds)
    · rw [hnil] at hlen
      exact .inr ⟨BitVec.eq_of_toNat_eq hlen.symm, hr, hem⟩
  · obtain rfl := decrypt_eq_error herr
    have hdec : decrypt s.params.emptyCt s.dataIn s.key s.iv = .error .paddingError := herr
    rw [exec_decryptCmd, execDecrypt_of_fits (State.dataFits_iff.mpr hfits), hdec, State.finish, State.fail_eq]
    rfl
  · rw [exec_decryptCmd, execDecrypt_of_not_fits (mt State.dataFits_iff.mp (Nat.not_le.mpr hlong)), State.fail_eq]
    rfl

end Sys2Proof.Machine

/-! The container (44_container.md rules R190 to R195): the parts of a sealed container, what opening checks before it
decrypts, the commands SEAL and OPEN on either side of the capacities, and that neither looks at `KEY`, `IV`, `SALT`. -/

namespace Sys2Proof.Machine

/-! ### A sealed container (R190, R191) -/

theorem sealBytes_eq (m p : Bytes) (x : Salt) :
    sealBytes m p x = header ++ x.toList ++ encrypt m (deriveKeyIv p x).1 (deriveKeyIv p x).2 := rfl

theorem sealBytes_take8 (m p : Bytes) (x : Salt) : (sealBytes m p x).take 8 = header := by
  rw [sealBytes_eq, List.append_assoc, List.take_left' header_length]

theorem sealBytes_salt (m p : Bytes) (x : Salt) : ((sealBytes m p x).drop 8).take 8 = x.toList := by
  rw [sealBytes_eq, List.append_assoc, List.drop_left' header_length, List.take_left' x.length_toList]

theorem sealBytes_drop16 (m p : Bytes) (x : Salt) :
    (sealBytes m p x).drop 16 = encrypt m (deriveKeyIv p x).1 (deriveKeyIv p x).2 := by
  have hfront : (header ++ x.toList).length = 16 := by rw [List.length_append, header_length, x.length_toList]
  rw [sealBytes_eq, List.drop_left' hfront]

/-! ### Opening (R194) -/

/-- The salt a container carries. -/
def embeddedSalt (c : Bytes) : Salt := arrayOf 8 ((c.drop 8).take 8)

/-- The decryption that opening a container comes to, past its two checks. -/
def openBody (params : Params) (c p : Bytes) : Except ErrKind Bytes :=
  decrypt params.emptyCt (c.drop 16) (deriveKeyIv p (embeddedSalt c)).1 (deriveKeyIv p (embeddedSalt c)).2

/-- The two checks of `Open`, in order, and the decryption past them. -/
theorem openBytes_eq (params : Params) (c p : Bytes) :
    openBytes params c p =
      if c.length < 16 then .error .malformedContainer
      else if params.strictHeader = true ∧ c.take 8 ≠ header then .error .malformedContainer
      else openBody params c p := by
  simp only [openBytes, Bool.and_eq_true, bne_iff_ne, openBody, embeddedSalt]

/-- The containers that open: long enough, the header right where it is asked for, and the rest decrypts. -/
theorem openBytes_eq_ok_iff {params : Params} {c p r : Bytes} :
    openBytes params c p = .ok r ↔
      16 ≤ c.length ∧ (params.strictHeader = true → c.take 8 = header) ∧ openBody params c p = .ok r := by
  rw [openBytes_eq]
  by_cases hshort : c.length < 16
  · rw [if_pos hshort]
    exact iff_of_false nofun fun ⟨hlong, _⟩ => absurd hshort (Nat.not_lt.mpr hlong)
  rw [if_neg hshort]
  by_cases hheader : params.strictHeader = true ∧ c.take 8 ≠ header
  · rw [if_pos hheader]
    exact iff_of_false nofun fun ⟨_, hright, _⟩ => hheader.2 (hright hheader.1)
  · rw [if_neg hheader]
    have hright : params.strictHeader = true → c.take 8 = header := fun hstrict =>
      of_not_not fun hne => hheader ⟨hstrict, hne⟩
    exact ⟨fun h => ⟨Nat.not_lt.mp hshort, hright, h⟩, fun ⟨_, _, h⟩ => h⟩

theorem openBytes_eq_error {params : Params} {c p : Bytes} {e : ErrKind} (h : openBytes params c p = .error e) :
    e = .malformedContainer ∨ e = .paddingError := by
  rcases openBytes_cases params c p with hmal | hpad | ⟨r, hok, -⟩
  · exact .inl (Except.error.inj (h.symm.trans hmal))
  · exact .inr (Except.error.inj (h.symm.trans hpad))
  · exact absurd (h.symm.trans hok) nofun

/-- A plaintext is 17 to 32 bytes shorter than its container, unless the container holds no ciphertext. -/
theorem openBytes_ok_length {params : Params} {c p r : Bytes} (h : openBytes params c p = .ok r) :
    (c.length ≤ r.length + 32 ∧ r.length + 17 ≤ c.length) ∨ (c.length = 16 ∧ r = [] ∧ params.emptyCt = .empty) := by
  obtain ⟨hlong, -, hbody⟩ := openBytes_eq_ok_iff.mp h
  have hrest : (c.drop 16).length = c.length - 16 := List.length_drop
  rcases decrypt_ok_length hbody with ⟨hhi, hlo⟩ | ⟨hnil, hr, hem⟩
  · exact .inl (by omega)
  · rw [hnil, List.length_nil] at hrest
    exact .inr ⟨by omega, hr, hem⟩

/-! ### SEAL and OPEN (R193, R195) -/

theorem exec_sealCmd (s : State) : exec .sealCmd s = execSeal s := rfl

theorem exec_openCmd (s : State) : exec .openCmd s = execOpen s := rfl

/-- The operands and the container fit exactly when the password does and the input leaves room for more than the 16 bytes
before the ciphertext; the capacity is a multiple of 16. -/
theorem State.sealFits_iff {s : State} :
    (s.passwordFits && s.dataFits && s.resultFits (16 + padLen s.inLen.toNat)) = true ↔
      s.pwLen.toNat ≤ s.params.pwMax ∧ s.inLen.toNat + 16 < s.params.bufMax := by
  rw [Bool.and_eq_true, Bool.and_eq_true, State.passwordFits_iff, State.dataFits_iff, State.resultFits_iff, and_assoc]
  refine and_congr_right fun _ => ?_
  have hgt := padLen_gt s.inLen.toNat
  have hmod := s.params.bufMax_mod
  constructor
  · exact fun ⟨_, hresult⟩ => by omega
  · intro hroom
    have hpad : padLen s.inLen.toNat ≤ s.params.bufMax - 16 := padLen_le_of_lt (by omega) (by omega)
    exact ⟨by omega, by omega⟩

theorem State.openFits_iff {s : State} :
    (s.passwordFits && s.dataFits) = true ↔ s.pwLen.toNat ≤ s.params.pwMax ∧ s.inLen.toNat ≤ s.params.bufMax := by
  rw [Bool.and_eq_true, State.passwordFits_iff, State.dataFits_iff]

theorem execSeal_of_fits {s : State}
    (h : (s.passwordFits && s.dataFits && s.resultFits (16 + padLen s.inLen.toNat)) = true) :
    execSeal s = .next (s.takeDraw.complete (sealBytes s.dataIn s.password s.nextDraw)) := congrArg _ (if_pos h)

theorem execSeal_of_not_fits {s : State}
    (h : ¬ (s.passwordFits && s.dataFits && s.resultFits (16 + padLen s.inLen.toNat)) = true) :
    execSeal s = .next (s.fail .lengthError) := congrArg _ (if_neg h)

theorem execOpen_of_fits {s : State} (h : (s.passwordFits && s.dataFits) = true) :
    execOpen s = .next (s.finish (openBytes s.params s.dataIn s.password)) := congrArg _ (if_pos h)

theorem execOpen_of_not_fits {s : State} (h : ¬ (s.passwordFits && s.dataFits) = true) :
    execOpen s = .next (s.fail .lengthError) := congrArg _ (if_neg h)

/-! ### The registers the two commands pass over (R192) -/

/-- The state with other contents in `KEY`, `IV` and `SALT`. -/
def State.withKeyIvSalt (k v : Block) (x : Salt) (s : State) : State := { s with key := k, iv := v, salt := x }

theorem State.finish_withKeyIvSalt (r : Except ErrKind Bytes) (k v : Block) (x : Salt) (s : State) :
    (s.withKeyIvSalt k v x).finish r = (s.finish r).withKeyIvSalt k v x := by
  cases r with
  | ok b => rfl
  | error e => rfl

/-- The operands, their tests and the draw are the same whatever the three registers hold. -/
theorem execSeal_withKeyIvSalt {s t : State} (h : execSeal s = .next t) (k v : Block) (x : Salt) :
    execSeal (s.withKeyIvSalt k v x) = .next (t.withKeyIvSalt k v x) := by
  rcases execSeal_cases h with ⟨hno, rfl⟩ | ⟨hfits, rfl⟩
  · exact execSeal_of_not_fits (s := s.withKeyIvSalt k v x) (Bool.eq_false_iff.mp hno)
  · exact execSeal_of_fits (s := s.withKeyIvSalt k v x) hfits

theorem execOpen_withKeyIvSalt {s t : State} (h : execOpen s = .next t) (k v : Block) (x : Salt) :
    execOpen (s.withKeyIvSalt k v x) = .next (t.withKeyIvSalt k v x) := by
  rcases execOpen_cases h with ⟨hno, rfl⟩ | ⟨hfits, rfl⟩
  · exact execOpen_of_not_fits (s := s.withKeyIvSalt k v x) (Bool.eq_false_iff.mp hno)
  · rw [← State.finish_withKeyIvSalt]
    exact execOpen_of_fits (s := s.withKeyIvSalt k v x) hfits

theorem State.key_iv_salt_of_eq_withKeyIvSalt {s t : State} (h : t = t.withKeyIvSalt s.key s.iv s.salt) :
    t.key = s.key ∧ t.iv = s.iv ∧ t.salt = s.salt := by
  rw [h]
  exact ⟨rfl, rfl, rfl⟩

/-! ### The statements -/

/-- Settles O57, part by part. -/
theorem containerLayout : Obligations.ContainerLayout := by
  refine fun m p x => ⟨sealBytes_length m p x, sealBytes_take8 m p x, sealBytes_salt m p x, sealBytes_drop16 m p x, ?_⟩
  rw [sealBytes_drop16, encrypt_length]
  exact padLen_dvd m.length

/-- Settles O13: SEAL by whether the operands and the container fit. -/
theorem sealWritesContainer : Obligations.SealWritesContainer := by
  rintro s _ rfl
  refine ⟨fun hpw hroom => ?_, fun hlong => ?_⟩
  · have hlen : (sealBytes s.dataIn s.password s.nextDraw).length = 16 + padLen s.inLen.toNat := by
      rw [sealBytes_length, State.dataIn_length]
    rw [exec_sealCmd, execSeal_of_fits (State.sealFits_iff.mpr ⟨hpw, hroom⟩), State.complete_eq, hlen]
    rfl
  · have hno := mt State.sealFits_iff.mp fun ⟨hpw, hroom⟩ => hlong.elim (Nat.not_lt.mpr hpw) (Nat.not_le.mpr hroom)
    rw [exec_sealCmd, execSeal_of_not_fits hno, State.fail_eq]
    rfl

/-- Settles O14: `Open` by its two checks, and OPEN by whether the operands fit and what `Open` gives. -/
theorem openWritesPlaintext : Obligations.OpenWritesPlaintext := by
  refine ⟨openBytes_eq, fun s => ⟨fun r hfits hok => ⟨?_, ?_⟩, fun e hfits herr => ?_, fun hlong => ?_⟩⟩
  · have hopen : openBytes s.params s.dataIn s.password = .ok r := hok
    rw [exec_openCmd, execOpen_of_fits (State.openFits_iff.mpr hfits), hopen, State.finish, State.complete_eq]
  · exact s.dataIn_length ▸ openBytes_ok_length (c := s.dataIn) hok
  · have hopen : openBytes s.params s.dataIn s.password = .error e := herr
    refine ⟨openBytes_eq_error hopen, ?_⟩
    rw [exec_openCmd, execOpen_of_fits (State.openFits_iff.mpr hfits), hopen, State.finish, State.fail_eq]
    rcases openBytes_eq_error hopen with rfl | rfl
    · rfl
    · rfl
  · rw [exec_openCmd, execOpen_of_not_fits (mt State.openFits_iff.mp hlong), State.fail_eq]
    rfl

/-- Settles O24: each of the two commands does the same under every content of the three registers; under their own
contents, this says that it writes none of them. -/
theorem compositeCommandsIgnoreTheKeyRegisters : Obligations.CompositeCommandsIgnoreTheKeyRegisters := by
  intro i s t k v x hi h
  have hother : ∀ k v x, exec i (s.withKeyIvSalt k v x) = .next (t.withKeyIvSalt k v x) := by
    rcases hi with rfl | rfl
    · exact execSeal_withKeyIvSalt h
    · exact execOpen_withKeyIvSalt h
  have hown : t = t.withKeyIvSalt s.key s.iv s.salt := Host.Outcome.next.inj (h.symm.trans (hother s.key s.iv s.salt))
  obtain ⟨hkey, hiv, hsalt⟩ := State.key_iv_salt_of_eq_withKeyIvSalt hown
  exact ⟨hkey, hiv, hsalt, hother k v x⟩

end Sys2Proof.Machine

/-! The command CLEAR and the host's Base64 (45_clear_and_host_framing.md rules R210, R212, R213): the state CLEAR leaves,
and that decoding a text recovers the bytes it encodes. -/

namespace Sys2Proof.Machine

/-! ### CLEAR (R210) -/

/-- Zeroizing gives every data-bearing input component its contents at reset. -/
theorem State.zeroizeInputs_eq (s : State) :
    s.zeroizeInputs = { s with
      key := State.reset.key, iv := State.reset.iv, salt := State.reset.salt, pw := State.reset.pw,
      pwLen := State.reset.pwLen, inp := State.reset.inp, inLen := State.reset.inLen } := by
  have hblock : blockOf [] = State.reset.key := by decide
  have hsalt : arrayOf 8 [] = State.reset.salt := by decide
  rw [State.zeroizeInputs, hblock, hsalt]
  rfl

theorem exec_clearCmd (s : State) : exec .clearCmd s = execClear s := rfl

/-! ### The Base64 alphabet (R212) -/

theorem base64Index_base64Char : ∀ n < 64, base64Index (base64Char n) = some n := by decide

theorem base64Char_ne_pad : ∀ n < 64, base64Char n ≠ '=' := by decide

theorem base64Index_mod (n : Nat) : base64Index (base64Char (n % 64)) = some (n % 64) :=
  base64Index_base64Char _ (Nat.mod_lt n (by decide))

theorem base64Char_mod_beq_pad (n : Nat) : (base64Char (n % 64) == '=') = false :=
  beq_eq_false_iff_ne.mpr (base64Char_ne_pad _ (Nat.mod_lt n (by decide)))

/-! ### One group: the digits to base 64 of a 24-bit number give its bytes (R212, R213) -/

theorem base64Group_two_pads {n : Nat} (hn : n < 2 ^ 24) :
    base64Group (base64Char (n / 2 ^ 18 % 64)) (base64Char (n / 2 ^ 12 % 64)) '=' '=' =
      some [BitVec.ofNat 8 (n / 65536)] := by
  have hx : (n / 2 ^ 18 % 64 * 64 + n / 2 ^ 12 % 64) / 16 = n / 65536 := by omega
  rw [← hx]
  simp [base64Group, base64Index_mod]

theorem base64Group_one_pad {n : Nat} (hn : n < 2 ^ 24) :
    base64Group (base64Char (n / 2 ^ 18 % 64)) (base64Char (n / 2 ^ 12 % 64)) (base64Char (n / 2 ^ 6 % 64)) '=' =
      some [BitVec.ofNat 8 (n / 65536), BitVec.ofNat 8 (n / 256)] := by
  have hx : (n / 2 ^ 18 % 64 * 64 + n / 2 ^ 12 % 64) / 16 = n / 65536 := by omega
  have hy : (n / 2 ^ 18 % 64 * 4096 + n / 2 ^ 12 % 64 * 64 + n / 2 ^ 6 % 64) / 4 = n / 256 := by omega
  rw [← hx, ← hy]
  simp [base64Group, base64Index_mod, base64Char_mod_beq_pad]

theorem base64Group_no_pad {n : Nat} (hn : n < 2 ^ 24) :
    base64Group (base64Char (n / 2 ^ 18 % 64)) (base64Char (n / 2 ^ 12 % 64)) (base64Char (n / 2 ^ 6 % 64))
        (base64Char (n % 64)) =
      some [BitVec.ofNat 8 (n / 65536), BitVec.ofNat 8 (n / 256), BitVec.ofNat 8 n] := by
  have hvalue : n / 2 ^ 18 % 64 * 262144 + n / 2 ^ 12 % 64 * 4096 + n / 2 ^ 6 % 64 * 64 + n % 64 = n := by omega
  simp only [base64Group, base64Index_mod, base64Char_mod_beq_pad, Option.pure_def, Option.bind_eq_bind,
    Option.bind_some, Bool.and_false, Bool.false_eq_true, if_false, hvalue]

/-! ### Decoding what encoding produces (R213) -/

theorem ofNat_eq_byte {m : Nat} {x : Byte} (h : m % 256 = x.toNat) : BitVec.ofNat 8 m = x :=
  BitVec.eq_of_toNat_eq ((BitVec.toNat_ofNat m 8).trans h)

theorem base64Groups_nil : base64Groups [] = some [] := rfl

theorem base64Groups_of_group {a b c d : Char} {rest : List Char} {x xs : Bytes} (hgroup : base64Group a b c d = some x)
    (hrest : base64Groups rest = some xs) : base64Groups (a :: b :: c :: d :: rest) = some (x ++ xs) := by
  rw [base64Groups, hgroup, hrest]
  rfl

/-- The groups of an encoding hold the bytes that were encoded: by three bytes at a time, then one or two left over. -/
theorem base64Groups_base64Encode : ∀ b : Bytes, base64Groups (base64Encode b) = some b
  | [] => rfl
  | [x] => by
    have hx := x.isLt
    rw [base64Encode, base64Groups_of_group (base64Group_two_pads (by omega)) base64Groups_nil,
      ofNat_eq_byte (x := x) (by omega), List.append_nil]
  | [x, y] => by
    have hx := x.isLt
    have hy := y.isLt
    rw [base64Encode, base64Groups_of_group (base64Group_one_pad (by omega)) base64Groups_nil,
      ofNat_eq_byte (x := x) (by omega), ofNat_eq_byte (x := y) (by omega), List.append_nil]
  | x :: y :: z :: rest => by
    have hx := x.isLt
    have hy := y.isLt
    have hz := z.isLt
    rw [base64Encode, base64Groups_of_group (base64Group_no_pad (by omega)) (base64Groups_base64Encode rest),
      ofNat_eq_byte (x := x) (by omega), ofNat_eq_byte (x := y) (by omega), ofNat_eq_byte (x := z) (by omega)]
    rfl

theorem base64Decode_of_groups {t : List Char} {c : Bytes} (h : base64Groups t = some c) :
    base64Decode t = if base64Encode c = t then some c else none := by
  rw [base64Decode, h]

/-- What decodes is the encoding of its result: the decoder checks it. -/
theorem base64Encode_of_base64Decode {t : List Char} {b : Bytes} (h : base64Decode t = some b) : base64Encode b = t := by
  cases hgroups : base64Groups t with
  | none =>
    rw [base64Decode, hgroups] at h
    exact nomatch h
  | some c =>
    rw [base64Decode_of_groups hgroups] at h
    obtain ⟨henc, hcb⟩ := Option.ite_none_right_eq_some.mp h
    exact Option.some.inj hcb ▸ henc

theorem base64Decode_base64Encode (b : Bytes) : base64Decode (base64Encode b) = some b :=
  (base64Decode_of_groups (base64Groups_base64Encode b)).trans (if_pos rfl)

/-! ### The statements -/

/-- Settles O15: the completion with no output, on the zeroized inputs. -/
theorem clearLeavesTheResetData : Obligations.ClearLeavesTheResetData := by
  refine ⟨rfl, fun s => ?_⟩
  rw [exec_clearCmd, execClear, State.complete_eq, State.zeroizeInputs_eq]
  rfl

/-- Settles O60: a text that decodes passed the decoder's check, and an encoding decodes to its bytes. -/
theorem base64DecodeInvertsEncode : Obligations.Base64DecodeInvertsEncode := by
  intro t b
  constructor
  · exact fun hdec => (base64Encode_of_base64Decode hdec).symm
  · rintro rfl
    exact base64Decode_base64Encode b

end Sys2Proof.Machine

/-! Typed failures (60_exceptions.md rules R231 to R238): the outcome of every command as one value, the three kinds of
failure a command can raise with the causes of each, and the code that a completion leaves in `ERR`. -/

namespace Sys2Proof

/-! ### Illegal words (R237) -/

theorem decode_eq_error_of_illegal {w : Word} (h : ∀ i, w ≠ encode i) : ∃ r, decode w = .error r := by
  cases hw : decode w with
  | ok i => exact absurd (decode_eq_ok_iff_eq_encode.mp hw) (h i)
  | error r => exact ⟨r, rfl⟩

end Sys2Proof

namespace Sys2Proof.Machine

theorem completionStep_of_decode_ok {w : Word} {i : Instr} (h : decode w = .ok i) (s : State) :
    completionStep w s = exec i s := by
  rw [completionStep, h]

theorem completionStep_of_decode_error {w : Word} {r : Reject} (h : decode w = .error r) (s : State) :
    completionStep w s = .next (s.fail .illegalCommand) := by
  rw [completionStep, h]

theorem completionStep_of_illegal {w : Word} (h : ∀ i, w ≠ encode i) (s : State) :
    completionStep w s = .next (s.fail .illegalCommand) := by
  obtain ⟨r, hr⟩ := decode_eq_error_of_illegal h
  exact completionStep_of_decode_error hr s

theorem step_of_busy {s : State} {w : Word} (hbusy : s.phase = .busy w) (hcore : s.coreNext) :
    step s = completionStep w s.popInput := by
  rw [step_coreNext hcore, coreTurn, State.popInput_phase, hbusy]

/-! ### The codes (R230) -/

theorem ErrKind.code_inj {e e' : ErrKind} : e.code = e'.code ↔ e = e' := by
  cases e <;> cases e' <;> decide

theorem ErrKind.code_ne_zero (e : ErrKind) : e.code ≠ 0 := by cases e <;> decide

/-- The code that a completion with a given result leaves in `ERR` (R235, R236). -/
def errCode : Except ErrKind Bytes → BitVec 4
  | .ok _ => 0
  | .error e => e.code

theorem State.finish_err (r : Except ErrKind Bytes) (s : State) : (s.finish r).err = errCode r := by
  cases r with
  | ok b => rfl
  | error e => rfl

theorem errCode_eq_code_iff {r : Except ErrKind Bytes} {e : ErrKind} : errCode r = e.code ↔ r = .error e := by
  cases r with
  | ok b => exact iff_of_false e.code_ne_zero.symm nofun
  | error e' => exact ErrKind.code_inj.trans ⟨congrArg _, Except.error.inj⟩

/-! ### The outcome of a command (R231, R239) -/

/-- The command's row in the table of R231 is met: its operands and its result fit. CLEAR has no row. -/
def State.operandsFit (s : State) : Instr → Bool
  | .deriveCmd => s.passwordFits
  | .encryptCmd => s.dataFits && s.resultFits (padLen s.inLen.toNat)
  | .decryptCmd => s.dataFits
  | .sealCmd => s.passwordFits && s.dataFits && s.resultFits (16 + padLen s.inLen.toNat)
  | .openCmd => s.passwordFits && s.dataFits
  | .clearCmd => true

/-- What the command's pure function gives on operands that fit: the data output, or the failure it raises. -/
def State.contract (s : State) : Instr → Except ErrKind Bytes
  | .deriveCmd => .ok []
  | .encryptCmd => .ok (encrypt s.dataIn s.key s.iv)
  | .decryptCmd => decrypt s.params.emptyCt s.dataIn s.key s.iv
  | .sealCmd => .ok (sealBytes s.dataIn s.password s.nextDraw)
  | .openCmd => openBytes s.params s.dataIn s.password
  | .clearCmd => .ok []

/-- The command's data output or its failure, the length check of R231 first. -/
def State.outcome (s : State) (i : Instr) : Except ErrKind Bytes :=
  if s.operandsFit i then s.contract i else .error .lengthError

/-- The state whose completion a command on fitting operands is: the registers it writes are written. -/
def State.prepared (s : State) : Instr → State
  | .deriveCmd => s.setKeyIv (deriveKeyIv s.password s.salt).1 (deriveKeyIv s.password s.salt).2
  | .sealCmd => s.takeDraw
  | .clearCmd => s.zeroizeInputs
  | .encryptCmd | .decryptCmd | .openCmd => s

theorem exec_of_fits {s : State} {i : Instr} (h : s.operandsFit i = true) :
    exec i s = .next ((s.prepared i).finish (s.contract i)) := by
  cases i with
  | deriveCmd => exact execDerive_of_fits h
  | encryptCmd => exact execEncrypt_of_fits h
  | decryptCmd => exact execDecrypt_of_fits h
  | sealCmd => exact execSeal_of_fits h
  | openCmd => exact execOpen_of_fits h
  | clearCmd => rfl

theorem exec_of_not_fits {s : State} {i : Instr} (h : ¬ s.operandsFit i = true) :
    exec i s = .next (s.fail .lengthError) := by
  cases i with
  | deriveCmd => exact execDerive_of_not_fits h
  | encryptCmd => exact execEncrypt_of_not_fits h
  | decryptCmd => exact execDecrypt_of_not_fits h
  | sealCmd => exact execSeal_of_not_fits h
  | openCmd => exact execOpen_of_not_fits h
  | clearCmd => exact absurd rfl h

theorem State.outcome_of_fits {s : State} {i : Instr} (h : s.operandsFit i = true) : s.outcome i = s.contract i :=
  if_pos h

theorem State.outcome_of_not_fits {s : State} {i : Instr} (h : ¬ s.operandsFit i = true) :
    s.outcome i = .error .lengthError := if_neg h

/-- Every command answers a next state, whose `ERR` is the code of its outcome. -/
theorem exec_err (i : Instr) (s : State) : ∃ t, exec i s = .next t ∧ t.err = errCode (s.outcome i) := by
  by_cases hfits : s.operandsFit i = true
  · exact ⟨_, exec_of_fits hfits, by rw [State.finish_err, State.outcome_of_fits hfits]⟩
  · exact ⟨_, exec_of_not_fits hfits, by rw [State.outcome_of_not_fits hfits]; rfl⟩

theorem err_of_exec {i : Instr} {s t : State} (h : exec i s = .next t) : t.err = errCode (s.outcome i) := by
  obtain ⟨t', ht', herr⟩ := exec_err i s
  rwa [Host.Outcome.next.inj (h.symm.trans ht')]

/-- A command reports the code of a kind exactly when its outcome is that failure. -/
theorem exec_reports_iff {i : Instr} {s : State} {e : ErrKind} :
    (∃ t, exec i s = .next t ∧ t.err = e.code) ↔ s.outcome i = .error e := by
  rw [← errCode_eq_code_iff]
  constructor
  · exact fun ⟨t, ht, herr⟩ => (err_of_exec ht).symm.trans herr
  · intro h
    obtain ⟨t, ht, herr⟩ := exec_err i s
    exact ⟨t, ht, herr.trans h⟩

/-! ### What the pure functions raise (R233, R234) -/

/-- The three causes of `PaddingError` (R233), in the order that R238 checks them. -/
def PaddingFault (em : EmptyCt) (c : Bytes) (k v : Block) : Prop :=
  c.length % 16 ≠ 0 ∨ (c = [] ∧ em = .fault) ∨ (c ≠ [] ∧ unpad (cbcDecryptRaw k v c) = none)

theorem decrypt_blocks_eq_error_iff {c : Bytes} (hc : c ≠ []) (hblocks : c.length % 16 = 0) {em : EmptyCt}
    {k v : Block} : decrypt em c k v = .error .paddingError ↔ unpad (cbcDecryptRaw k v c) = none := by
  rcases decrypt_cases em c k v with herr | ⟨r, hok, -⟩
  · refine iff_of_true herr (Option.eq_none_iff_forall_ne_some.mpr fun r hr => ?_)
    exact absurd (herr.symm.trans ((decrypt_blocks_eq_ok_iff hc hblocks).mpr hr)) nofun
  · have hsome := (decrypt_blocks_eq_ok_iff hc hblocks).mp hok
    rw [hok, hsome]
    exact iff_of_false nofun nofun

theorem decrypt_eq_paddingError_iff {em : EmptyCt} {c : Bytes} {k v : Block} :
    decrypt em c k v = .error .paddingError ↔ PaddingFault em c k v := by
  unfold PaddingFault
  by_cases hblocks : c.length % 16 = 0
  case neg => exact iff_of_true (decrypt_of_ragged hblocks em k v) (.inl hblocks)
  by_cases hc : c = []
  · subst hc
    cases em with
    | fault => exact iff_of_true rfl (.inr (.inl ⟨rfl, rfl⟩))
    | empty => exact iff_of_false nofun (by simp)
  · rw [decrypt_blocks_eq_error_iff hc hblocks]
    simp [hc, hblocks]

/-- The causes told apart by the length alone, as R233 lists them. -/
theorem paddingFault_iff_length {em : EmptyCt} {c : Bytes} {k v : Block} :
    PaddingFault em c k v ↔
      c.length % 16 ≠ 0 ∨ (c.length % 16 = 0 ∧ c.length ≠ 0 ∧ unpad (cbcDecryptRaw k v c) = none) ∨
        (c.length = 0 ∧ em = .fault) := by
  rw [PaddingFault, ne_eq c [], ← List.length_eq_zero_iff, or_comm (a := c.length = 0 ∧ _)]
  refine or_congr_right' fun hblocks => or_congr_left ?_
  rw [and_iff_right (not_not.mp hblocks)]

theorem openBytes_eq_malformed_iff {params : Params} {c p : Bytes} :
    openBytes params c p = .error .malformedContainer ↔
      c.length < 16 ∨ (params.strictHeader = true ∧ c.take 8 ≠ header) := by
  rw [openBytes_eq]
  split_ifs with hshort hheader
  · exact iff_of_true rfl (.inl hshort)
  · exact iff_of_true rfl (.inr hheader)
  · refine iff_of_false (fun h => ?_) (not_or.mpr ⟨hshort, hheader⟩)
    exact absurd (decrypt_eq_error h) nofun

theorem openBytes_eq_paddingError_iff {params : Params} {c p : Bytes} :
    openBytes params c p = .error .paddingError ↔
      16 ≤ c.length ∧ (params.strictHeader = true → c.take 8 = header) ∧
        openBody params c p = .error .paddingError := by
  rw [openBytes_eq]
  split_ifs with hshort hheader
  · exact iff_of_false nofun fun ⟨hlong, _⟩ => absurd hshort (Nat.not_lt.mpr hlong)
  · exact iff_of_false nofun fun ⟨_, hright, _⟩ => hheader.2 (hright hheader.1)
  · have hright : params.strictHeader = true → c.take 8 = header := by simpa using hheader
    exact ⟨fun h => ⟨Nat.not_lt.mp hshort, hright, h⟩, fun ⟨_, _, h⟩ => h⟩

/-! ### Which command raises what -/

theorem State.contract_ne_lengthError (s : State) (i : Instr) : s.contract i ≠ .error .lengthError := by
  cases i with
  | deriveCmd | encryptCmd | sealCmd | clearCmd => nofun
  | decryptCmd => exact fun h => nomatch decrypt_eq_error h
  | openCmd => exact fun h => (openBytes_eq_error h).elim nofun nofun

theorem State.outcome_eq_lengthError_iff {s : State} {i : Instr} :
    s.outcome i = .error .lengthError ↔ ¬ s.operandsFit i = true := by
  constructor
  · exact fun h hfits => s.contract_ne_lengthError i ((State.outcome_of_fits hfits).symm.trans h)
  · exact State.outcome_of_not_fits

/-- Every other failure is raised past the length check. -/
theorem State.outcome_eq_error_iff {s : State} {i : Instr} {e : ErrKind} (he : e ≠ .lengthError) :
    s.outcome i = .error e ↔ s.operandsFit i = true ∧ s.contract i = .error e := by
  by_cases hfits : s.operandsFit i = true
  · rw [State.outcome_of_fits hfits, and_iff_right hfits]
  · rw [State.outcome_of_not_fits hfits]
    exact iff_of_false (fun h => he (Except.error.inj h).symm) fun h => hfits h.1

theorem exec_reports_past_length_iff {i : Instr} {s : State} {e : ErrKind} (he : e ≠ .lengthError) :
    (∃ t, exec i s = .next t ∧ t.err = e.code) ↔ s.operandsFit i = true ∧ s.contract i = .error e :=
  exec_reports_iff.trans (State.outcome_eq_error_iff he)

/-- Past the length check, only the two commands that decrypt can fail, DECRYPT in one way and OPEN in two. -/
theorem State.contract_eq_error {s : State} {i : Instr} {e : ErrKind} (h : s.contract i = .error e) :
    (i = .decryptCmd ∧ e = .paddingError) ∨ (i = .openCmd ∧ (e = .malformedContainer ∨ e = .paddingError)) := by
  cases i with
  | deriveCmd | encryptCmd | sealCmd | clearCmd => exact nomatch h
  | decryptCmd => exact .inl ⟨rfl, decrypt_eq_error h⟩
  | openCmd => exact .inr ⟨rfl, openBytes_eq_error h⟩

/-- A failed command has written nothing before its completion: only those that write no register can fail past the
length check. -/
theorem exec_of_outcome_error {s : State} {i : Instr} {e : ErrKind} (h : s.outcome i = .error e) :
    exec i s = .next (s.fail e) := by
  by_cases hfits : s.operandsFit i = true
  · rw [State.outcome_of_fits hfits] at h
    rw [exec_of_fits hfits, h]
    rcases State.contract_eq_error h with ⟨rfl, -⟩ | ⟨rfl, -⟩
    · rfl
    · rfl
  · rw [State.outcome_of_not_fits hfits] at h
    cases h
    exact exec_of_not_fits hfits

theorem State.outcome_eq_error_kind {s : State} {i : Instr} {e : ErrKind} (h : s.outcome i = .error e) :
    e = .paddingError ∨ e = .malformedContainer ∨ e = .lengthError := by
  by_cases he : e = .lengthError
  · exact .inr (.inr he)
  · obtain ⟨-, hraised⟩ := (State.outcome_eq_error_iff he).mp h
    rcases State.contract_eq_error hraised with ⟨-, rfl⟩ | ⟨-, rfl | rfl⟩
    · exact .inl rfl
    · exact .inr (.inl rfl)
    · exact .inl rfl

/-- The kinds a completion can report, and that reporting one is the failed completion of R236. -/
theorem completionStep_eq_fail_of_err_ne_zero {w : Word} {s t : State} (h : completionStep w s = .next t)
    (herr : t.err ≠ 0) :
    ∃ e, t = s.fail e ∧ (e = .paddingError ∨ e = .malformedContainer ∨ e = .illegalCommand ∨ e = .lengthError) := by
  cases hw : decode w with
  | error r =>
    rw [completionStep_of_decode_error hw] at h
    exact ⟨.illegalCommand, (Host.Outcome.next.inj h).symm, .inr (.inr (.inl rfl))⟩
  | ok i =>
    rw [completionStep_of_decode_ok hw] at h
    cases hout : s.outcome i with
    | ok r => exact absurd ((err_of_exec h).trans (congrArg errCode hout)) herr
    | error e =>
      rw [exec_of_outcome_error hout] at h
      refine ⟨e, (Host.Outcome.next.inj h).symm, ?_⟩
      rcases State.outcome_eq_error_kind hout with rfl | rfl | rfl <;> decide

/-! ### The conditions of the table (R231) -/

/-- One row of the table: the failed completion on its condition `P`, no code 5 otherwise. -/
theorem exec_ite_lengthError {s : State} {i : Instr} {P : Prop} [Decidable P]
    (hfits : s.operandsFit i = true ↔ ¬ P) :
    if P then exec i s = .next (s.fail .lengthError) else ¬ ∃ t, exec i s = .next t ∧ t.err = 5 := by
  have hreports : (∃ t, exec i s = .next t ∧ t.err = 5) ↔ ¬ s.operandsFit i = true :=
    (exec_reports_iff (e := .lengthError)).trans State.outcome_eq_lengthError_iff
  split_ifs with hP
  · exact exec_of_not_fits fun h => hfits.mp h hP
  · exact fun h => hreports.mp h (hfits.mpr hP)

theorem State.operandsFit_deriveCmd {s : State} :
    s.operandsFit .deriveCmd = true ↔ s.pwLen.toNat ≤ s.params.pwMax := State.passwordFits_iff

/-- The padded result, which is longer than the input, decides. -/
theorem State.operandsFit_encryptCmd {s : State} :
    s.operandsFit .encryptCmd = true ↔ padLen s.inLen.toNat ≤ s.params.bufMax := by
  have hgt := padLen_gt s.inLen.toNat
  rw [State.operandsFit, Bool.and_eq_true, State.dataFits_iff, State.resultFits_iff]
  exact and_iff_right_of_imp fun hresult => by omega

theorem State.operandsFit_decryptCmd {s : State} :
    s.operandsFit .decryptCmd = true ↔ s.inLen.toNat ≤ s.params.bufMax := State.dataFits_iff

theorem State.operandsFit_sealCmd {s : State} :
    s.operandsFit .sealCmd = true ↔
      s.pwLen.toNat ≤ s.params.pwMax ∧ 16 + padLen s.inLen.toNat ≤ s.params.bufMax := by
  have hgt := padLen_gt s.inLen.toNat
  rw [State.operandsFit, Bool.and_eq_true, Bool.and_eq_true, State.passwordFits_iff, State.dataFits_iff,
    State.resultFits_iff, and_assoc]
  exact and_congr_right fun _ => and_iff_right_of_imp fun hresult => by omega

theorem State.operandsFit_openCmd {s : State} :
    s.operandsFit .openCmd = true ↔ s.pwLen.toNat ≤ s.params.pwMax ∧ s.inLen.toNat ≤ s.params.bufMax :=
  State.openFits_iff

theorem State.operandsFit_clearCmd (s : State) : s.operandsFit .clearCmd = true := rfl

/-! ### The order of the checks, by the code each leaves (R238) -/

theorem errCode_decrypt (em : EmptyCt) (c : Bytes) (k v : Block) :
    errCode (decrypt em c k v) =
      if c.length % 16 ≠ 0 then 1
      else if c = [] ∧ em = .fault then 1
      else if c ≠ [] ∧ unpad (cbcDecryptRaw k v c) = none then 1
      else 0 := by
  have hcauses : errCode (decrypt em c k v) = 1 ↔ PaddingFault em c k v :=
    (errCode_eq_code_iff (e := .paddingError)).trans decrypt_eq_paddingError_iff
  split_ifs with hragged hempty hpadding
  · exact hcauses.mpr (.inl hragged)
  · exact hcauses.mpr (.inr (.inl hempty))
  · exact hcauses.mpr (.inr (.inr hpadding))
  · rcases decrypt_cases em c k v with herr | ⟨r, hok, -⟩
    · exact absurd (decrypt_eq_paddingError_iff.mp herr) (not_or.mpr ⟨hragged, not_or.mpr ⟨hempty, hpadding⟩⟩)
    · rw [hok, errCode]

theorem errCode_openBytes (params : Params) (c p : Bytes) :
    errCode (openBytes params c p) =
      if c.length < 16 then 2
      else if params.strictHeader = true ∧ c.take 8 ≠ header then 2
      else errCode (openBody params c p) := by
  rw [openBytes_eq, apply_ite errCode, apply_ite errCode]
  rfl

theorem State.dataIn_take {s : State} {n : Nat} (h : n ≤ s.inLen.toNat) : s.dataIn.take n = s.inp.slice n := by
  rw [State.dataIn, Memory.slice, ← List.map_take, List.take_range, min_eq_left h, Memory.slice]

/-! ### The statements -/

/-- Settles O5: the sequencer's turn is the completion step of the pending word, which fails. -/
theorem illegalWordCompletesWithIllegalCommand : Obligations.IllegalWordCompletesWithIllegalCommand := by
  intro s w hbusy hillegal hcore
  rw [step_of_busy hbusy hcore, completionStep_of_illegal hillegal, State.fail_eq]
  rfl

/-- Settles O16: each command's row of the table says when its operands fit. -/
theorem lengthErrorExactlyWhenItDoesNotFit : Obligations.LengthErrorExactlyWhenItDoesNotFit := by
  intro s
  refine ⟨exec_ite_lengthError ?_, exec_ite_lengthError ?_, exec_ite_lengthError ?_, exec_ite_lengthError ?_,
    exec_ite_lengthError ?_, ?_, ?_⟩
  · exact State.operandsFit_deriveCmd.trans not_lt.symm
  · exact State.encryptFits_iff.trans not_le.symm
  · exact State.operandsFit_decryptCmd.trans not_lt.symm
  · rw [not_or, not_lt, not_le, Nat.lt_sub_iff_add_lt]
    exact State.sealFits_iff
  · rw [not_or, not_lt, not_lt]
    exact State.operandsFit_openCmd
  · intro hreports
    have hlong := (exec_reports_iff (e := .lengthError)).mp hreports
    exact State.outcome_eq_lengthError_iff.mp hlong s.operandsFit_clearCmd
  · rintro w hillegal ⟨t, ht, herr⟩
    rw [completionStep_of_illegal hillegal] at ht
    cases ht
    exact nomatch ErrKind.code_inj.mp (show ErrKind.illegalCommand.code = ErrKind.lengthError.code from herr)

/-- Settles O17: past the length check, by what `Decrypt` and `Open` raise. -/
theorem paddingErrorExactlyForItsCauses : Obligations.PaddingErrorExactlyForItsCauses := by
  have hreports (i : Instr) (s : State) : (∃ t, exec i s = .next t ∧ t.err = 1) ↔
      s.operandsFit i = true ∧ s.contract i = .error .paddingError :=
    exec_reports_past_length_iff (e := .paddingError) nofun
  refine ⟨fun s => ?_, fun s => ?_, fun s t i h herr => ?_⟩
  · rw [hreports]
    exact and_congr State.operandsFit_decryptCmd (decrypt_eq_paddingError_iff.trans paddingFault_iff_length)
  · have hrest : (s.dataIn.drop 16).length = s.inLen.toNat - 16 := by rw [List.length_drop, State.dataIn_length]
    rw [hreports, ← and_assoc, State.contract, openBytes_eq_paddingError_iff, State.dataIn_length]
    refine and_congr State.operandsFit_openCmd (and_congr_right fun _ => and_congr_right fun _ => ?_)
    exact (decrypt_eq_paddingError_iff.trans paddingFault_iff_length).trans (and_iff_right hrest).symm
  · obtain ⟨-, hraised⟩ := (hreports i s).mp ⟨t, h, herr⟩
    exact (State.contract_eq_error hraised).imp And.left And.left

/-- Settles O18: past the length check, by what `Open` raises before it decrypts. -/
theorem malformedContainerExactlyForItsCauses : Obligations.MalformedContainerExactlyForItsCauses := by
  have hreports (i : Instr) (s : State) : (∃ t, exec i s = .next t ∧ t.err = 2) ↔
      s.operandsFit i = true ∧ s.contract i = .error .malformedContainer :=
    exec_reports_past_length_iff (e := .malformedContainer) nofun
  refine ⟨fun s => ?_, fun s t i h herr => ?_⟩
  · rw [hreports, ← and_assoc, State.contract, openBytes_eq_malformed_iff, State.dataIn_length]
    refine and_congr State.operandsFit_openCmd (or_congr_right' fun hlong => ?_)
    rw [State.dataIn_take (by omega)]
    rfl
  · obtain ⟨-, hraised⟩ := (hreports i s).mp ⟨t, h, herr⟩
    rcases State.contract_eq_error hraised with ⟨-, hkind⟩ | ⟨hopen, -⟩
    · exact nomatch hkind
    · exact hopen

/-- Settles O19: the length check is the table's row; past it, the codes of `Decrypt` and `Open` in their order. -/
theorem firstFailingCheckIsReported : Obligations.FirstFailingCheckIsReported := by
  intro w s usesPassword tooLong kv cipher raw
  have htooLong (i : Instr) : tooLong i ↔ ¬ s.operandsFit i = true := by
    cases i with
    | deriveCmd => simp [tooLong, usesPassword, State.operandsFit_deriveCmd]
    | encryptCmd => simp [tooLong, usesPassword, State.operandsFit_encryptCmd]
    | decryptCmd => simp [tooLong, usesPassword, State.operandsFit_decryptCmd]
    | sealCmd => simp [tooLong, usesPassword, State.operandsFit_sealCmd, imp_iff_not_or]
    | openCmd => simp [tooLong, usesPassword, State.operandsFit_openCmd, imp_iff_not_or]
    | clearCmd => simp [tooLong, usesPassword, State.operandsFit_clearCmd]
  cases hw : decode w with
  | error r =>
    rw [completionStep_of_decode_error hw]
    exact ⟨_, rfl, fun i => ⟨nofun, fun _ => rfl⟩⟩
  | ok i =>
    obtain ⟨t, ht, herr⟩ := exec_err i s
    refine ⟨t, (completionStep_of_decode_ok hw s).trans ht, fun j => ⟨?_, fun hillegal => absurd rfl (hillegal i)⟩⟩
    rintro ⟨⟩
    rw [herr]
    by_cases hfits : s.operandsFit i = true
    · rw [if_neg fun h => (htooLong i).mp h hfits, State.outcome_of_fits hfits]
      cases i with
      | deriveCmd | encryptCmd | sealCmd | clearCmd => simp [State.contract, errCode]
      | decryptCmd => simp [State.contract, errCode_decrypt, cipher, raw]
      | openCmd => simp [State.contract, errCode_openBytes, openBody, errCode_decrypt, cipher, raw, kv, embeddedSalt]
    · rw [if_pos ((htooLong i).mpr hfits), State.outcome_of_not_fits hfits]
      rfl

/-- Settles O20: the completion that fails is `State.fail`, of one of four kinds. -/
theorem failureChangesNothingButTheOutput : Obligations.FailureChangesNothingButTheOutput := by
  intro w s t h herr
  obtain ⟨e, rfl, hkind⟩ := completionStep_eq_fail_of_err_ne_zero h herr
  refine ⟨rfl, ?_, Memory.get_zeros⟩
  rw [State.fail_err]
  rcases hkind with rfl | rfl | rfl | rfl <;> decide

end Sys2Proof.Machine

/-! Byte arrays at the host port (20_memory.md rules R51, R54, R59): the row of an array, what an access inside it reads or
stores, and the byte string of an `RDB`. -/

namespace Sys2Proof.Machine

/-! ### The rows of the byte arrays (R51) -/

/-- The number of bytes of an array (R51). -/
def arraySize (p : Params) : ByteArr → Nat
  | .key | .iv => 16
  | .salt => 8
  | .pw => p.pwMax
  | .inp | .out => p.bufMax

/-- An array's row starts at its address in the map and is read-only for `OUT` alone. -/
theorem addressMap_arr {p : Params} {r : Region} {x : ByteArr} (hr : r ∈ addressMap p) (hx : r.target = .arr x) :
    r = arrRow (targetAddr (.arr x)).toNat (arraySize p x) x (decide (x ≠ .out)) := by
  simp only [addressMap, List.mem_cons, List.not_mem_nil, or_false] at hr
  rcases hr with rfl | rfl | rfl | rfl | rfl | rfl | rfl | rfl | rfl | rfl | rfl | rfl <;> cases hx <;> rfl

/-- No array reaches the end of the address space, so the address after an array's last byte does not wrap. -/
theorem arrayEnd_lt {p : Params} {r : Region} {x : ByteArr} (hr : r ∈ addressMap p) (hx : r.target = .arr x) :
    r.base + r.size < 2 ^ 18 := by
  have hpw := p.pwMax_le
  have hbuf := p.bufMax_le
  obtain rfl := addressMap_arr hr hx
  cases x <;> simp [arrRow, targetAddr, arraySize] <;> omega

/-- An aligned access of 1, 2 or 4 bytes inside the row of a byte array. -/
structure InArray (p : Params) (r : Region) (x : ByteArr) (addr : BitVec 18) (n : Nat) : Prop where
  row : r ∈ addressMap p
  array : r.target = .arr x
  size : n = 1 ∨ n = 2 ∨ n = 4
  aligned : addr.toNat % n = 0
  low : r.base ≤ addr.toNat
  high : addr.toNat + n ≤ r.base + r.size

section
variable {s : State} {p : Params} {r : Region} {x : ByteArr} {addr : BitVec 18} {n : Nat}

theorem InArray.regionAt (h : InArray p r x addr n) : regionAt p addr.toNat n = some r :=
  (regionAt_eq_some_iff (by have := h.size; omega)).mpr ⟨h.row, h.low, h.high⟩

theorem InArray.wellFormed {op : HostOp} (h : InArray p r x op.addr op.size)
    (hdir : op.isWrite = true → r.writable = true) : accessWellFormed p op = true := by
  have hsizes : r.sizes = [1, 2, 4] := by rw [addressMap_arr h.row h.array]; rfl
  exact accessWellFormed_iff.mpr
    ⟨h.size, h.aligned, r, h.row, h.low, h.high, by simpa [hsizes] using h.size, hdir⟩

/-- A single byte inside an array is always aligned. -/
theorem InArray.byte (hr : r ∈ addressMap p) (hx : r.target = .arr x) (hlo : r.base ≤ addr.toNat)
    (hhi : addr.toNat < r.base + r.size) : InArray p r x addr 1 :=
  ⟨hr, hx, .inl rfl, Nat.mod_one _, hlo, hhi⟩

/-- An admitted read of an array answers its bytes, the lowest address least significant, and changes nothing else. -/
theorem State.hostAccess_readArr (hidle : s.phase = .idle) (h : InArray s.params r x addr n) :
    s.hostAccess (.read addr n) = s.answer (.data
      (BitVec.ofNat 32 (leValue ((List.range n).map fun j => s.arrayGet x (addr.toNat - r.base + j))))) := by
  have hw : accessWellFormed s.params (.read addr n) = true := h.wellFormed nofun
  have ha : s.admits (.read addr n) = true := State.admits_iff.mpr (.inl hidle)
  simp [State.hostAccess, hw, ha, HostOp.addr, HostOp.size, h.regionAt, State.rowGet, h.array]

/-- An admitted write of an array stores the value's bytes and answers `ok`. -/
theorem State.hostAccess_writeArr (hidle : s.phase = .idle) (h : InArray s.params r x addr n)
    (hwr : r.writable = true) (v : Word) :
    s.hostAccess (.write addr n v) = (s.arraySet x (addr.toNat - r.base) (leBytes n v.toNat)).answer .ok := by
  have hw : accessWellFormed s.params (.write addr n v) = true := h.wellFormed fun _ => hwr
  have ha : s.admits (.write addr n v) = true := State.admits_iff.mpr (.inl hidle)
  simp [State.hostAccess, hw, ha, HostOp.addr, HostOp.size, h.regionAt, State.rowSet, h.array]

end

/-! ### Little-endian values (R11, R54) -/

theorem leValue_lt (b : Bytes) : leValue b < 256 ^ b.length := by
  induction b with
  | nil => exact Nat.one_pos
  | cons x xs ih =>
    have hx := x.isLt
    rw [leValue, List.length_cons, pow_succ]
    omega

theorem leValue_map_range (f : Nat → Byte) (n : Nat) :
    leValue ((List.range n).map f) = ((List.range n).map fun j => (f j).toNat * 256 ^ j).sum := by
  induction n generalizing f with
  | zero => rfl
  | succ n ih =>
    have hshift : ∀ l : List Nat, (l.map fun j => (f (j + 1)).toNat * 256 ^ (j + 1)).sum =
        256 * (l.map fun j => (f (j + 1)).toNat * 256 ^ j).sum := fun l => by
      rw [← List.sum_map_mul_left]
      congr 2
      funext j
      rw [pow_succ]
      ring
    rw [List.range_succ_eq_map, List.map_cons, List.map_map, leValue, ih]
    simp only [List.map_cons, List.map_map, List.sum_cons, pow_zero, mul_one, Function.comp_def, Nat.succ_eq_add_one]
    rw [hshift]

/-- The word that holds up to four bytes. -/
theorem toNat_ofNat_leValue {b : Bytes} (h : b.length ≤ 4) : (BitVec.ofNat 32 (leValue b)).toNat = leValue b := by
  rw [BitVec.toNat_ofNat]
  exact Nat.mod_eq_of_lt ((leValue_lt b).trans_le (Nat.pow_le_pow_right (by decide : 0 < 256) h))

/-! ### The byte string of an `RDB` (30_encoding.md rule R86) -/

@[simp] theorem State.answer_arrayGet (s : State) (a : Answer) (x : ByteArr) (k : Nat) :
    (s.answer a).arrayGet x k = s.arrayGet x k := by cases x <;> rfl

/-- One byte read inside an array. -/
theorem State.hostAccess_rd8 {s : State} {r : Region} {x : ByteArr} {addr : BitVec 18} (hidle : s.phase = .idle)
    (h : InArray s.params r x addr 1) :
    s.hostAccess (rd8 addr) = s.answer (.data ((s.arrayGet x (addr.toNat - r.base)).setWidth 32)) := by
  rw [rd8, State.hostAccess_readArr hidle h]
  simp [leValue, BitVec.ofNat_toNat]

theorem readValue_rd8 {s : State} {r : Region} {x : ByteArr} {addr : BitVec 18} (hidle : s.phase = .idle)
    (h : InArray s.params r x addr 1) :
    readValue (rd8 addr) s = some ((s.arrayGet x (addr.toNat - r.base)).setWidth 32,
      s.answer (.data ((s.arrayGet x (addr.toNat - r.base)).setWidth 32))) := by
  simp [readValue, State.hostAccess_rd8 hidle h]

/-- `RDB` inside an array, by the number of bytes: the first is read, and the rest start one address on. -/
theorem rdbRun_of_inside {s : State} {r : Region} {x : ByteArr} {addr : BitVec 18} {n : Nat} (hidle : s.phase = .idle)
    (hr : r ∈ addressMap s.params) (hx : r.target = .arr x) (hlo : r.base ≤ addr.toNat)
    (hhi : addr.toNat + n ≤ r.base + r.size) :
    ∃ a, rdbRun addr n s =
      some ((List.range n).map fun j => s.arrayGet x (addr.toNat - r.base + j), { s with answers := a }) := by
  induction n generalizing s addr with
  | zero => exact ⟨s.answers, rfl⟩
  | succ n ih =>
    have hend := arrayEnd_lt hr hx
    have hnext : (addr + 1).toNat = addr.toNat + 1 := by rw [BitVec.toNat_add]; simp; omega
    have hfirst : InArray s.params r x addr 1 := .byte hr hx hlo (by omega)
    obtain ⟨a, hrest⟩ := ih (s := s.answer (.data ((s.arrayGet x (addr.toNat - r.base)).setWidth 32))) (addr := addr + 1)
      hidle hr (by omega) (by omega)
    refine ⟨a, ?_⟩
    have hidx : ∀ j, addr.toNat + 1 - r.base + j = addr.toNat - r.base + (j + 1) := by omega
    simp only [hnext, hidx, State.answer_arrayGet] at hrest
    rw [rdbRun, readValue_rd8 hidle hfirst, Option.bind_some, hrest, Option.map_some, List.range_succ_eq_map]
    simp [State.answer, Function.comp_def]

/-! ### What a write of an array stores (R54) -/

theorem arraySetBytes_getD {m : Nat} (x : Vector Byte m) (i k : Nat) (b : Bytes) (h : i + b.length ≤ m) :
    (arraySetBytes x i b).toList.getD k 0 =
      if i ≤ k ∧ k < i + b.length then b.getD (k - i) 0 else x.toList.getD k 0 := by
  induction b generalizing x i with
  | nil => simp [arraySetBytes, show ¬ (i ≤ k ∧ k < i) by omega]
  | cons v bs ih =>
    rw [List.length_cons] at h
    have hset : (x.setIfInBounds i v).toList.getD k 0 = if k = i then v else x.toList.getD k 0 := by
      rcases eq_or_ne k i with rfl | hne
      · simp [List.getD_eq_getElem?_getD, show k < m by omega]
      · simp [List.getD_eq_getElem?_getD, hne, Ne.symm hne]
    rw [arraySetBytes, ih _ _ (by omega), hset, List.length_cons]
    rcases lt_trichotomy k i with hk | rfl | hk
    · rw [if_neg (by omega), if_neg (by omega), if_neg (by omega)]
    · simp
    · obtain ⟨d, rfl⟩ : ∃ d, k = i + 1 + d := ⟨k - (i + 1), by omega⟩
      have hd : i + 1 + d - i = d + 1 := by omega
      by_cases hin : d < bs.length
      · rw [if_pos (by omega), if_pos (by omega), hd]
        simp
      · rw [if_neg (by omega), if_neg (by omega), if_neg (by omega)]

/-- Read after write at the port, for the arrays the host can write. -/
theorem State.arrayGet_arraySet {s : State} {x : ByteArr} {i : Nat} {b : Bytes} (hx : x ≠ .out) (hpw : s.pw.wf = true)
    (hinp : s.inp.wf = true) (h : i + b.length ≤ arraySize s.params x) (k : Nat) :
    (s.arraySet x i b).arrayGet x k = if i ≤ k ∧ k < i + b.length then b.getD (k - i) 0 else s.arrayGet x k := by
  cases x with
  | key | iv | salt => exact arraySetBytes_getD _ i k b h
  | pw => exact Memory.get_setBytes hpw i k b
  | inp => exact Memory.get_setBytes hinp i k b
  | out => exact absurd rfl hx

theorem State.arrayGet_arraySet_of_ne {s : State} {x y : ByteArr} (h : y ≠ x) (i : Nat) (b : Bytes) (k : Nat) :
    (s.arraySet x i b).arrayGet y k = s.arrayGet y k := by
  cases x <;> cases y <;> simp [State.arraySet, State.arrayGet] at h ⊢

/-- Outside the five arrays that the host can write, a write of an array changes nothing. -/
theorem State.arraySet_frame (s : State) (x : ByteArr) (i : Nat) (b : Bytes) :
    { s.arraySet x i b with key := s.key, iv := s.iv, salt := s.salt, pw := s.pw, inp := s.inp } = s := by
  cases x <;> rfl

@[simp] theorem State.arraySet_params (s : State) (x : ByteArr) (i : Nat) (b : Bytes) :
    (s.arraySet x i b).params = s.params := by cases x <;> rfl

@[simp] theorem State.arraySet_answers (s : State) (x : ByteArr) (i : Nat) (b : Bytes) :
    (s.arraySet x i b).answers = s.answers := by cases x <;> rfl

theorem InArray.ne_out {p : Params} {r : Region} {x : ByteArr} {addr : BitVec 18} {n : Nat} (h : InArray p r x addr n)
    (hwr : r.writable = true) : x ≠ .out := by
  rw [addressMap_arr h.row h.array] at hwr
  exact of_decide_eq_true hwr

theorem InArray.offset_le {p : Params} {r : Region} {x : ByteArr} {addr : BitVec 18} {n : Nat} (h : InArray p r x addr n) :
    addr.toNat - r.base + n ≤ arraySize p x := by
  have hlo := h.low
  have hhi := h.high
  have hsize : r.size = arraySize p x := by rw [addressMap_arr h.row h.array]; rfl
  omega

/-- What a byte of the written array holds after an admitted write. -/
theorem State.arrayGet_hostAccess_write {s : State} {r : Region} {x : ByteArr} {addr : BitVec 18} {n : Nat}
    (hidle : s.phase = .idle) (hpw : s.pw.wf = true) (hinp : s.inp.wf = true) (h : InArray s.params r x addr n)
    (hwr : r.writable = true) (v : Word) (k : Nat) :
    (s.hostAccess (.write addr n v)).arrayGet x k =
      if addr.toNat - r.base ≤ k ∧ k < addr.toNat - r.base + n
      then BitVec.ofNat 8 (v.toNat / 256 ^ (k - (addr.toNat - r.base))) else s.arrayGet x k := by
  rw [State.hostAccess_writeArr hidle h hwr, State.answer_arrayGet,
    State.arrayGet_arraySet (h.ne_out hwr) hpw hinp (by simpa using h.offset_le), leBytes_length]
  refine ite_congr rfl (fun hin => leBytes_getD _ (by omega)) fun _ => rfl

/-! ### The statements -/

/-- Settles O32: one read of the row's bytes, and `RDB` by the number of bytes. -/
theorem byteArrayReadIsLittleEndian : Obligations.ByteArrayReadIsLittleEndian := by
  refine ⟨fun s r x addr n hidle hr hx hn halign hlo hhi => ?_, fun s r x addr n hidle hr hx hlo hhi =>
    rdbRun_of_inside hidle hr hx hlo hhi⟩
  refine ⟨_, State.hostAccess_readArr hidle ⟨hr, hx, hn, halign, hlo, hhi⟩, ?_⟩
  rw [toNat_ofNat_leValue (by rw [List.length_map, List.length_range]; omega), leValue_map_range]

/-- Settles O33: the write is `arraySet` of the value's bytes, read back array by array. -/
theorem byteArrayWriteStoresItsBytesOnly : Obligations.ByteArrayWriteStoresItsBytesOnly := by
  intro s r x addr n v hidle hpw hinp hr hx hwr hn halign hlo hhi i t
  have hin : InArray s.params r x addr n := ⟨hr, hx, hn, halign, hlo, hhi⟩
  have ht : t = (s.arraySet x i (leBytes n v.toNat)).answer .ok := State.hostAccess_writeArr hidle hin hwr v
  refine ⟨?_, State.arrayGet_hostAccess_write hidle hpw hinp hin hwr v, fun y hy k => ?_, ?_⟩
  · rw [ht, State.answer_answers, State.arraySet_answers]
  · rw [ht, State.answer_arrayGet, State.arrayGet_arraySet_of_ne hy]
  · rw [ht]
    refine Eq.trans ?_ (s.arraySet_frame x i (leBytes n v.toNat))
    cases x <;> rfl

/-- Settles O34: each byte read is one of the bytes the word's write stored. -/
theorem mixedWidthAccessSeesTheSameBytes : Obligations.MixedWidthAccessSeesTheSameBytes := by
  intro s r x addr v hidle hpw hinp hr hx hwr halign hlo hhi t j hj
  have hin : InArray s.params r x addr 4 := ⟨hr, hx, .inr (.inr rfl), halign, hlo, hhi⟩
  have ht : t = (s.arraySet x (addr.toNat - r.base) (leBytes 4 v.toNat)).answer .ok :=
    State.hostAccess_writeArr hidle hin hwr v
  have hend := arrayEnd_lt hr hx
  have haddr : (addr + BitVec.ofNat 18 j).toNat = addr.toNat + j := by
    rw [BitVec.toNat_add, BitVec.toNat_ofNat]; omega
  have htidle : t.phase = .idle := by rw [ht, State.answer_phase, State.arraySet_phase, hidle]
  have htparams : t.params = s.params := by rw [ht, State.answer_params, State.arraySet_params]
  have hbyte : InArray t.params r x (addr + BitVec.ofNat 18 j) 1 :=
    .byte (htparams ▸ hr) hx (by omega) (by omega)
  have hstored : t.arrayGet x (addr.toNat + j - r.base) = v.extractLsb' (8 * j) 8 := by
    have hoff : addr.toNat + j - r.base - (addr.toNat - r.base) = j := by omega
    rw [State.arrayGet_hostAccess_write hidle hpw hinp hin hwr, if_pos (by omega), hoff]
    refine BitVec.eq_of_toNat_eq ?_
    rw [BitVec.toNat_ofNat, BitVec.extractLsb'_toNat, Nat.shiftRight_eq_div_pow, pow_mul]
    rfl
  have hread := State.hostAccess_rd8 htidle hbyte
  rw [rd8] at hread
  rw [hread, haddr, hstored, State.answer_answers]

end Sys2Proof.Machine

/-! What a step keeps (10_state.md rule R34, 60_exceptions.md rule R239): the invariant through every operation on the state,
and the frames of a completion and of a host access. -/

namespace Sys2Proof.Machine

/-! ### The result of a command (60_exceptions.md rules R231, R235) -/

theorem outLenShape_zero (bufMax : Nat) : outLenShape bufMax 0 := .inl rfl

theorem outLenShape_of_mod {bufMax n : Nat} (h : n % 16 = 0) : outLenShape bufMax n := by
  rcases Nat.eq_zero_or_pos n with hn | hn
  · exact .inl hn
  · exact .inr (.inl ⟨hn, h⟩)

theorem outLenShape_of_lt {bufMax n : Nat} (h : n ≤ bufMax - 1) : outLenShape bufMax n := .inr (.inr (.inr h))

/-- On operands that fit, a data output fits `OUT` and has one of the lengths of R34 (d): none, the padded length, the
container's, or less than the input's. -/
theorem State.contract_length {s : State} {i : Instr} {r : Bytes} (hfits : s.operandsFit i = true)
    (h : s.contract i = .ok r) : r.length ≤ s.params.bufMax ∧ outLenShape s.params.bufMax r.length := by
  cases i with
  | deriveCmd | clearCmd =>
    cases h
    exact ⟨Nat.zero_le _, outLenShape_zero _⟩
  | encryptCmd =>
    cases h
    rw [encrypt_length, State.dataIn_length]
    exact ⟨State.operandsFit_encryptCmd.mp hfits, outLenShape_of_mod (padLen_dvd _)⟩
  | sealCmd =>
    cases h
    have hmod := padLen_dvd s.inLen.toNat
    rw [sealBytes_length, State.dataIn_length]
    exact ⟨(State.operandsFit_sealCmd.mp hfits).2, outLenShape_of_mod (by omega)⟩
  | decryptCmd =>
    have hin := State.operandsFit_decryptCmd.mp hfits
    rw [← s.dataIn_length] at hin
    rcases decrypt_ok_length h with ⟨-, hlt⟩ | ⟨-, rfl, -⟩
    · exact ⟨by omega, outLenShape_of_lt (by omega)⟩
    · exact ⟨Nat.zero_le _, outLenShape_zero _⟩
  | openCmd =>
    have hin := (State.operandsFit_openCmd.mp hfits).2
    rw [← s.dataIn_length] at hin
    rcases openBytes_ok_length h with ⟨-, hlt⟩ | ⟨-, rfl, -⟩
    · exact ⟨by omega, outLenShape_of_lt (by omega)⟩
    · exact ⟨Nat.zero_le _, outLenShape_zero _⟩

/-- A length that fits `OUT` is held in `OUTLEN` as it is. -/
theorem toNat_ofNat_of_le_bufMax {p : Params} {n : Nat} (h : n ≤ p.bufMax) : (BitVec.ofNat 32 n).toNat = n := by
  have hbuf := p.bufMax_le
  rw [BitVec.toNat_ofNat]
  omega

/-! ### The invariant through each operation (R34) -/

theorem ErrKind.code_produced {e : ErrKind} (h : e ≠ .invalidKeyMaterial) : producedCode e.code = true := by
  cases e with
  | invalidKeyMaterial => exact absurd rfl h
  | paddingError | malformedContainer | illegalCommand | lengthError => rfl

section
variable {s : State}

theorem Inv.complete (h : Inv s) {r : Bytes} (hle : r.length ≤ s.params.bufMax)
    (hshape : outLenShape s.params.bufMax r.length) : Inv (s.complete r) := by
  have hlen : (s.complete r).outLen.toNat = r.length := toNat_ofNat_of_le_bufMax hle
  exact { h with
    out_wf := Memory.wf_ofBytes r
    out_zero := fun i hi => by
      rw [hlen] at hi
      exact (Memory.get_ofBytes r i).trans (List.getD_eq_default _ _ hi)
    outLen_le := hlen ▸ hle
    err_done := fun herr => absurd rfl herr
    outLen_shape := hlen ▸ hshape
    err_produced := rfl
    busy_clear := nofun }

theorem Inv.fail (h : Inv s) {e : ErrKind} (he : e ≠ .invalidKeyMaterial) : Inv (s.fail e) :=
  { h with
    out_wf := Memory.wf_zeros
    out_zero := fun i _ => Memory.get_zeros i
    outLen_le := Nat.zero_le _
    err_done := fun _ => ⟨rfl, rfl⟩
    outLen_shape := outLenShape_zero _
    err_produced := ErrKind.code_produced he
    busy_clear := nofun }

theorem Inv.answer (h : Inv s) (a : Answer) : Inv (s.answer a) := { h with }

theorem Inv.popInput (h : Inv s) : Inv s.popInput := { h with }

theorem Inv.refuse (h : Inv s) : Inv s.refuse := { h with }

theorem Inv.setKeyIv (h : Inv s) (k v : Block) : Inv (s.setKeyIv k v) := { h with }

/-- Whatever was in the buffers, the reset event empties them; its parameters are any. -/
theorem inv_resetEvent (s : State) : Inv s.resetEvent where
  pw_wf := rfl
  inp_wf := rfl
  out_wf := rfl
  pw_within := rfl
  inp_within := rfl
  out_zero := fun i _ => Memory.get_zeros i
  outLen_le := Nat.zero_le _
  err_done := fun herr => absurd rfl herr
  outLen_shape := outLenShape_zero _
  err_produced := rfl
  busy_clear := nofun

/-- The registers a command writes before its completion: only CLEAR touches a buffer, which it empties. -/
theorem Inv.prepared (h : Inv s) (i : Instr) : Inv (s.prepared i) := by
  cases i with
  | encryptCmd | decryptCmd | openCmd => exact h
  | deriveCmd => exact h.setKeyIv _ _
  | sealCmd => exact { h with }
  | clearCmd => exact { h with pw_wf := rfl, inp_wf := rfl, pw_within := rfl, inp_within := rfl }

@[simp] theorem State.prepared_params (s : State) (i : Instr) : (s.prepared i).params = s.params := by cases i <;> rfl

/-- A command on fitting operands completes with its output, or with one of the failures a pure function raises. -/
theorem Inv.exec {i : Instr} {t : State} (h : Inv s) (ht : exec i s = .next t) : Inv t := by
  by_cases hfits : s.operandsFit i = true
  · rw [exec_of_fits hfits] at ht
    cases ht
    cases hc : s.contract i with
    | ok r =>
      have hlen := State.contract_length hfits hc
      rw [← s.prepared_params i] at hlen
      obtain ⟨hle, hshape⟩ := hlen
      exact (h.prepared i).complete hle hshape
    | error e =>
      refine (h.prepared i).fail ?_
      rcases State.contract_eq_error hc with ⟨-, rfl⟩ | ⟨-, rfl | rfl⟩ <;> nofun
  · rw [exec_of_not_fits hfits] at ht
    cases ht
    exact h.fail nofun

theorem Inv.completionStep {w : Word} {t : State} (h : Inv s) (ht : completionStep w s = .next t) : Inv t := by
  cases hw : decode w with
  | ok i =>
    rw [completionStep_of_decode_ok hw] at ht
    exact h.exec ht
  | error r =>
    rw [completionStep_of_decode_error hw] at ht
    cases ht
    exact h.fail nofun

/-- A write of a control word: acceptance and acknowledgement clear `DONE` and `ERR` together, the rest is no part of the
invariant. -/
theorem Inv.ctlSet (h : Inv s) (c : CtlReg) (v : Word) : Inv (s.ctlSet c v) := by
  cases c with
  | cmd =>
    exact { h with err_done := fun herr => absurd rfl herr, err_produced := rfl, busy_clear := fun _ => ⟨rfl, rfl⟩ }
  | ctrl | pwLen | inLen => exact { h with }
  | outLen => exact h
  | status =>
    rw [State.ctlSet, State.writeStatus_eq]
    cases hv : v.getLsbD 1 with
    | false => exact { h with }
    | true =>
      exact { h with err_done := fun herr => absurd rfl herr, err_produced := rfl, busy_clear := fun _ => ⟨rfl, rfl⟩ }

/-- A write inside an array keeps the form and the capacity of the buffers. -/
theorem Inv.arraySet (h : Inv s) {x : ByteArr} {i : Nat} {b : Bytes} (hb : i + b.length ≤ arraySize s.params x) :
    Inv (s.arraySet x i b) := by
  cases x with
  | key | iv | salt | out => exact { h with }
  | pw => exact { h with pw_wf := Memory.wf_setBytes h.pw_wf i b, pw_within := Memory.within_setBytes h.pw_within hb }
  | inp => exact { h with inp_wf := Memory.wf_setBytes h.inp_wf i b, inp_within := Memory.within_setBytes h.inp_within hb }

/-- A write of a row keeps the invariant, because the row holds all its bytes. -/
theorem Inv.rowSet (h : Inv s) {r : Region} {a n : Nat} (hr : regionAt s.params a n = some r) (v : Word) :
    Inv (s.rowSet r a n v) := by
  obtain ⟨hmem, hlo, hhi⟩ := regionAt_some hr
  rcases s.rowSet_cases r a n v with ⟨c, -, e⟩ | ⟨x, hx, e⟩
  · exact e ▸ h.ctlSet c v
  · have hsize : r.size = arraySize s.params x := by rw [addressMap_arr hmem hx]; rfl
    exact e ▸ h.arraySet (by rw [leBytes_length]; omega)

theorem Inv.hostAccess (h : Inv s) (op : HostOp) : Inv (s.hostAccess op) := by
  rcases s.hostAccess_cases op with ⟨-, e⟩ | ⟨-, -, r, hr, ⟨a, n, -, e⟩ | ⟨a, n, v, rfl, -, e⟩⟩
  · exact e ▸ h.refuse
  · exact e ▸ h.answer _
  · exact e ▸ (h.rowSet hr v).answer .ok

end

/-! ### The statements about the invariant -/

/-- Settles O44, by whose move the step is. -/
theorem everyStepKeepsInv : Obligations.EveryStepKeepsInv := by
  intro s t h hstep
  rcases step_cases s with ⟨op, rest, -, e⟩ | ⟨rest, -, e⟩ | ⟨-, -, e⟩ | ⟨-, w, -, e⟩ <;> rw [e] at hstep
  case inl =>
    cases hstep
    exact h.popInput.hostAccess op
  case inr.inl =>
    cases hstep
    exact inv_resetEvent _
  case inr.inr.inl =>
    cases hstep
    exact h.popInput
  case inr.inr.inr => exact h.popInput.completionStep hstep

/-- Settles O43: the reset state is what the reset event makes of itself. -/
theorem resetSatisfiesInv : Obligations.ResetSatisfiesInv := inv_resetEvent State.reset

end Sys2Proof.Machine

/-! Steps (60_exceptions.md rule R239, 70_reset_and_hazards.md rules R260, R261, R268): that every state has a next one, that
a pending word completes, at once or after the accesses before it, and how a `POLL` sees it (30_encoding.md rule R86). -/

namespace Sys2Proof.Machine

/-! ### What a completion and a host access leave alone -/

/-- Every completion step answers a next state. -/
theorem completionStep_next (w : Word) (s : State) : ∃ t, completionStep w s = .next t := by
  cases hw : decode w with
  | ok i =>
    obtain ⟨t, ht, -⟩ := exec_err i s
    exact ⟨t, (completionStep_of_decode_ok hw s).trans ht⟩
  | error r => exact ⟨_, completionStep_of_decode_error hw s⟩

/-- A completion step leaves the model's own fields alone, but for the draws, and the two bits it does not own. -/
theorem completionStep_frame {w : Word} {s t : State} (h : completionStep w s = .next t) :
    t.inputs = s.inputs ∧ t.params = s.params ∧ t.answers = s.answers ∧ t.accErr = s.accErr := by
  obtain ⟨s₀, r, rfl, -, haccErr, hparams, hinputs, hanswers⟩ := completionStep_finish h
  obtain ⟨o, l, e, hfin⟩ := s₀.finish_frame r
  rw [hfin]
  exact ⟨hinputs, hparams, hanswers, haccErr⟩

theorem State.ctlSet_inputs_params (s : State) (c : CtlReg) (v : Word) :
    (s.ctlSet c v).inputs = s.inputs ∧ (s.ctlSet c v).params = s.params := by
  cases c with
  | status => rw [State.ctlSet, State.writeStatus_eq]; exact ⟨rfl, rfl⟩
  | cmd | ctrl | pwLen | inLen | outLen => exact ⟨rfl, rfl⟩

/-- A host access leaves the list of moves and the parameters alone. -/
theorem State.hostAccess_inputs_params (s : State) (op : HostOp) :
    (s.hostAccess op).inputs = s.inputs ∧ (s.hostAccess op).params = s.params := by
  rcases s.hostAccess_effect op with e | ⟨a, e⟩ | ⟨-, c, v, -, e⟩ | ⟨-, x, i, b, e⟩ <;> rw [e]
  · exact ⟨rfl, rfl⟩
  · exact ⟨rfl, rfl⟩
  · exact s.ctlSet_inputs_params c v
  · cases x <;> exact ⟨rfl, rfl⟩

/-- A host access that clears `ACCERR` is the write of 1 to its bit, while idle (R28). -/
theorem State.hostAccess_accErr_falls {s : State} {op : HostOp} (h : s.accErr = true)
    (h' : (s.hostAccess op).accErr = false) : s.phase = .idle ∧ ∃ v, op = .write 0x00004 4 v ∧ v.getLsbD 2 = true := by
  rcases s.hostAccess_effect op with e | ⟨a, e⟩ | ⟨hidle, c, v, rfl, e⟩ | ⟨-, x, i, b, e⟩ <;> rw [e] at h'
  · exact nomatch h'
  · exact absurd (h.symm.trans h') nofun
  · cases c with
    | status => exact ⟨hidle, v, rfl, by simpa [State.ctlSet, State.writeStatus_eq, h] using h'⟩
    | cmd | ctrl | pwLen | inLen | outLen => exact absurd (h.symm.trans h') nofun
  · have hkeep : ((s.arraySet x i b).answer .ok).accErr = s.accErr := by cases x <;> rfl
    exact absurd (h.symm.trans (hkeep.symm.trans h')) nofun

/-! ### The sequencer's turn (R239) -/

theorem step_of_idle {s : State} (hidle : s.phase = .idle) (hcore : s.coreNext) : step s = .next s.popInput := by
  rw [step_coreNext hcore, coreTurn, State.popInput_phase, hidle]

/-- With the sequencer to move, a pending word of any value completes. -/
theorem step_completes {s : State} {w : Word} (hbusy : s.phase = .busy w) (hcore : s.coreNext) :
    ∃ t, step s = .next t ∧ completionStep w s.popInput = .next t ∧ t.phase = .idle ∧ t.done = true ∧
      t.inputs = s.inputs.tail := by
  obtain ⟨t, ht⟩ := completionStep_next w s.popInput
  obtain ⟨hidle, hdone, -⟩ := completionStep_idle_done_ie ht
  exact ⟨t, (step_of_busy hbusy hcore).trans ht, ht, hidle, hdone, (completionStep_frame ht).1⟩

/-! ### Several steps -/

theorem hostCoreRun_succ {M : Host.Core} {s t : M.State} (h : M.step s = .next t) (k : Nat) : M.run (k + 1) s = M.run k t := by
  rw [Host.Core.run, h]

theorem run_succ_of_step {s t : State} (h : step s = .next t) (k : Nat) : core.run (k + 1) s = core.run k t :=
  hostCoreRun_succ (M := core) h k

theorem run_zero (s : State) : core.run 0 s = .next s := rfl

/-- While a command is pending an access leaves at most an answer and `ACCERR` behind (R57). -/
theorem step_access_of_busy {s : State} {w : Word} {op : HostOp} {rest : List Input} (hbusy : s.phase = .busy w)
    (hin : s.inputs = .access op :: rest) :
    ∃ a, step s = .next { s with
      inputs := rest, answers := a :: s.answers, accErr := s.accErr || a == .err } := by
  have hpop : s.popInput.isBusy = true := State.isBusy_busy hbusy
  obtain ⟨a, ha, -⟩ := busyPortShowsOnlyStatus.2 s.popInput s.popInput op hpop hpop rfl
  exact ⟨a, by rw [step_access hin, ha, State.popInput, hin, List.tail_cons]⟩

/-- A bounded number of steps leads to the completion step of a word, from the state with that many moves made and with
other answers and `ACCERR` at most (R268). -/
def CompletesWithinInputs (s : State) (w : Word) : Prop :=
  ∃ k ≤ s.inputs.length + 1, ∃ (a : List Answer) (e : Bool) (t : State),
    core.run k s = .next t ∧ t.phase = .idle ∧ t.done = true ∧ (s.accErr = true → e = true) ∧
    completionStep w { s with inputs := s.inputs.drop k, answers := a, accErr := e } = .next t

theorem completesWithinInputs_of_coreNext {s : State} {w : Word} (hbusy : s.phase = .busy w) (hcore : s.coreNext) :
    CompletesWithinInputs s w := by
  obtain ⟨t, hstep, hcomp, hidle, hdone, -⟩ := step_completes hbusy hcore
  refine ⟨1, by omega, s.answers, s.accErr, t, (run_succ_of_step hstep 0).trans (run_zero t), hidle, hdone, id, ?_⟩
  rwa [List.drop_one]

/-- An access before the completion adds one step and at most an answer and `ACCERR`. -/
theorem completesWithinInputs_of_access {s : State} {w : Word} {rest : List Input} {a : List Answer} {e : Bool}
    (hrest : s.inputs.drop 1 = rest) (hpos : s.inputs ≠ []) (he : s.accErr = true → e = true)
    (hstep : step s = .next { s with inputs := rest, answers := a, accErr := e })
    (h : CompletesWithinInputs { s with inputs := rest, answers := a, accErr := e } w) : CompletesWithinInputs s w := by
  obtain ⟨k, hk, a', e', t, hrun, hidle, hdone, he', hcomp⟩ := h
  subst hrest
  have hlength := List.length_pos_of_ne_nil hpos
  simp only [List.length_drop, List.drop_drop] at hk hcomp
  rw [Nat.add_comm] at hcomp
  exact ⟨k + 1, by omega, a', e', t, (run_succ_of_step hstep k).trans hrun, hidle, hdone, he' ∘ he, hcomp⟩

/-- By the listed moves: an access leaves the word pending, and the sequencer's turn, listed or not, completes it. -/
theorem completesWithinInputs {s : State} {w : Word} {moves : List Input} (hin : s.inputs = moves)
    (hbusy : s.phase = .busy w) (hreset : Input.reset ∉ moves) : CompletesWithinInputs s w := by
  induction moves generalizing s with
  | nil => exact completesWithinInputs_of_coreNext hbusy (.inl hin)
  | cons m rest ih =>
    cases m with
    | core => exact completesWithinInputs_of_coreNext hbusy (.inr ⟨rest, hin⟩)
    | reset => simp at hreset
    | access op =>
      obtain ⟨a, hstep⟩ := step_access_of_busy hbusy hin
      refine completesWithinInputs_of_access (by simp [hin]) (by simp [hin]) (fun h => by simp [h]) hstep ?_
      exact ih rfl hbusy (by simpa using hreset)

/-! ### Polling (R86) -/

@[simp] theorem State.answer_statusWord (s : State) (a : Answer) : (s.answer a).statusWord = s.statusWord := rfl

@[simp] theorem State.popInput_statusWord (s : State) : s.popInput.statusWord = s.statusWord := rfl

/-- A step whose move is a `STATUS` read answers the `STATUS` word. -/
theorem step_statusRead {s : State} {rest : List Input} (hin : s.inputs = .access statusRead :: rest) :
    step s = .next (s.popInput.answer (.data s.statusWord)) := by
  rw [step_access hin, State.hostAccess_statusRead, State.popInput_statusWord]

/-- The moves of a `POLL`: each busy read adds the same answer, then the completion step and the last read follow. -/
theorem run_pollMoves {s : State} {w : Word} {n : Nat} (hbusy : s.phase = .busy w) (hin : s.inputs = pollMoves n) :
    ∃ t, core.run (n + 2) s = .next t ∧ t.inputs = [] ∧ t.phase = .idle ∧ t.done = true ∧
      t.answers = .data t.statusWord :: (List.replicate n (.data s.statusWord) ++ s.answers) := by
  induction n generalizing s with
  | zero =>
    have hcore : s.inputs = .core :: [.access statusRead] := hin
    obtain ⟨t, hstep, hcomp, hidle, hdone, hrest⟩ := step_completes hbusy (.inr ⟨_, hcore⟩)
    rw [hcore, List.tail_cons] at hrest
    obtain ⟨-, -, hanswers, -⟩ := completionStep_frame hcomp
    refine ⟨t.popInput.answer (.data t.statusWord), ?_, ?_, hidle, hdone, ?_⟩
    · rw [run_succ_of_step hstep, run_succ_of_step (step_statusRead hrest), run_zero]
    · simp [hrest]
    · simp [hanswers]
  | succ n ih =>
    have hcons : s.inputs = .access statusRead :: pollMoves n := hin
    obtain ⟨t, hrun, hempty, hidle, hdone, hanswers⟩ :=
      ih (s := s.popInput.answer (.data s.statusWord)) hbusy (by simp [hcons])
    refine ⟨t, (run_succ_of_step (step_statusRead hcons) _).trans hrun, hempty, hidle, hdone, ?_⟩
    rw [hanswers, List.replicate_succ']
    simp

/-- On an idle DCC the first read ends the `POLL`, whether or not the sequencer has a turn before it. -/
theorem pollRun_of_idle {s : State} (hidle : s.phase = .idle) (turn : Bool) (turns : List Bool) :
    pollRun (turn :: turns) s = some (s.statusWord, s.answer (.data s.statusWord)) := by
  cases turn with
  | false => rw [pollRun_false, State.isBusy_idle hidle]; rfl
  | true => simp [pollRun, State.move_core_idle hidle, State.isBusy_idle hidle]

/-- A read before the sequencer's turn leaves the command pending, and the `POLL` goes on. -/
theorem pollRun_false_of_busy {s : State} {w : Word} (hbusy : s.phase = .busy w) (turns : List Bool) :
    pollRun (false :: turns) s = pollRun turns (s.answer (.data s.statusWord)) := by
  rw [pollRun_false, State.isBusy_busy hbusy]
  rfl

/-- A read after the sequencer's turn sees the completed command and ends the `POLL`. -/
theorem pollRun_true_of_busy {s t : State} {w : Word} (hbusy : s.phase = .busy w) (h : completionStep w s = .next t)
    (turns : List Bool) : pollRun (true :: turns) s = some (t.statusWord, t.answer (.data t.statusWord)) := by
  have hidle := (completionStep_idle_done_ie h).1
  simp [pollRun, State.move_core_busy hbusy h, State.isBusy_idle hidle]

/-- Along the schedule, up to its first turn of the sequencer. -/
theorem pollRun_completes {s : State} {w : Word} {turns : List Bool} (hbusy : s.phase = .busy w) (hturn : true ∈ turns) :
    ∃ t, pollRun turns s = some (t.statusWord, t) ∧ t.phase = .idle ∧ t.done = true ∧ t.inputs = s.inputs := by
  induction turns generalizing s with
  | nil => cases hturn
  | cons turn turns ih =>
    cases turn with
    | true =>
      obtain ⟨t, ht⟩ := completionStep_next w s
      obtain ⟨hidle, hdone, -⟩ := completionStep_idle_done_ie ht
      exact ⟨t.answer (.data t.statusWord), pollRun_true_of_busy hbusy ht turns, hidle, hdone, (completionStep_frame ht).1⟩
    | false =>
      rw [pollRun_false_of_busy hbusy]
      exact ih (s := s.answer (.data s.statusWord)) hbusy (by simpa using hturn)

/-- Without a turn of the sequencer every read sees the command pending. -/
theorem pollRun_eq_none {s : State} {w : Word} {turns : List Bool} (hbusy : s.phase = .busy w) (hturn : true ∉ turns) :
    pollRun turns s = none := by
  induction turns generalizing s with
  | nil => rfl
  | cons turn turns ih =>
    cases turn with
    | true => simp at hturn
    | false =>
      rw [pollRun_false_of_busy hbusy]
      exact ih (s := s.answer (.data s.statusWord)) hbusy (by simpa using hturn)

theorem State.statusWord_bit0 (s : State) : s.statusWord.getLsbD 0 = s.isBusy := s.statusWord_flags.1

/-! ### The statements -/

/-- Settles O4: the sequencer's turn is the completion step, which is the decoded command. -/
theorem stepRunsTheDecodedCommand : Obligations.StepRunsTheDecodedCommand := by
  intro s w i hbusy hdecode _ hcore
  rw [step_of_busy hbusy hcore, completionStep_of_decode_ok hdecode, State.popInput]

/-- Settles O6: the completion step, and the idle turn. -/
theorem everyPendingWordCompletesInOneStep : Obligations.EveryPendingWordCompletesInOneStep := by
  refine ⟨fun s w hbusy hcore => ?_, fun s hidle hcore => step_of_idle hidle hcore⟩
  obtain ⟨t, hstep, -, hidle, hdone, hinputs⟩ := step_completes hbusy hcore
  exact ⟨t, hstep, hidle, hdone, hinputs⟩

/-- Settles O7, by whose move the step is. -/
theorem everyStateHasANextState : Obligations.EveryStateHasANextState := by
  intro s
  rcases step_cases s with ⟨op, rest, -, e⟩ | ⟨rest, -, e⟩ | ⟨-, -, e⟩ | ⟨-, w, -, e⟩
  · obtain ⟨hinputs, hparams⟩ := s.popInput.hostAccess_inputs_params op
    exact ⟨_, e, hinputs, hparams⟩
  · exact ⟨_, e, rfl, rfl⟩
  · exact ⟨_, e, rfl, rfl⟩
  · obtain ⟨t, ht⟩ := completionStep_next w s.popInput
    obtain ⟨hinputs, hparams, -⟩ := completionStep_frame ht
    exact ⟨t, e.trans ht, hinputs, hparams⟩

/-- Settles O8, by the listed moves before the sequencer's turn. -/
theorem pendingCommandCompletesWithinTheInputs : Obligations.PendingCommandCompletesWithinTheInputs :=
  fun _ _ hbusy hreset => completesWithinInputs rfl hbusy hreset

/-- Settles O9: the listed moves, and `POLL` by its schedule; bit 0 of every value read is whether the DCC is busy. -/
theorem pollReturnsTheCompletedStatus : Obligations.PollReturnsTheCompletedStatus := by
  refine ⟨fun s w n hbusy hin => ?_, fun s w turns hbusy hturn => ?_, fun s w turns => pollRun_eq_none,
    fun s turn turns hidle => pollRun_of_idle hidle turn turns⟩
  · obtain ⟨t, hrun, hempty, hidle, hdone, hanswers⟩ := run_pollMoves hbusy hin
    exact ⟨t, hrun, hempty, hidle, hdone, hanswers, t.statusWord_bit0.trans (State.isBusy_idle hidle),
      s.statusWord_bit0.trans (State.isBusy_busy hbusy)⟩
  · obtain ⟨t, hpoll, hidle, hdone, hinputs⟩ := pollRun_completes hbusy hturn
    exact ⟨t, hpoll, hidle, hdone, hinputs, t.statusWord_bit0.trans (State.isBusy_idle hidle)⟩

/-- Settles O38: neither a completion nor an idle turn touches `ACCERR`. -/
theorem accErrIsSticky : Obligations.AccErrIsSticky := by
  intro s t hstep hset hclear
  rcases step_cases s with ⟨op, rest, hin, e⟩ | ⟨rest, hin, e⟩ | ⟨-, -, e⟩ | ⟨-, w, -, e⟩ <;> rw [e] at hstep
  case inl =>
    cases hstep
    obtain ⟨hidle, v, rfl, hv⟩ := State.hostAccess_accErr_falls (s := s.popInput) hset hclear
    exact .inr ⟨v, rest, hin, hv, hidle⟩
  case inr.inl => exact .inl ⟨rest, hin⟩
  case inr.inr.inl =>
    cases hstep
    exact absurd (hset.symm.trans hclear) nofun
  case inr.inr.inr =>
    obtain ⟨-, -, -, hkeep⟩ := completionStep_frame hstep
    exact absurd (hset.symm.trans (hkeep.symm.trans hclear)) nofun

/-- Settles O42: the reset event leaves the DCC idle, so the sequencer's next turn completes nothing. -/
theorem resetAbandonsThePendingCommand : Obligations.ResetAbandonsThePendingCommand := by
  intro s rest hin
  have hpop : s.popInput.inputs = rest := by rw [State.popInput_inputs, hin, List.tail_cons]
  refine ⟨s.popInput.resetEvent, step_reset hin, ?_, fun hcore => ?_⟩
  · rw [State.resetEvent, hpop]
    rfl
  · rw [step_of_idle rfl hcore, State.popInput, State.resetEvent_inputs, hpop]

end Sys2Proof.Machine

/-! What a command leaves and what it reads (10_state.md rules R25 to R29, R36, 20_memory.md rule R68, 60_exceptions.md rule
R235): its result in `OUT`, its frame, and the components it never looks at; and the words that `decode` refuses
(30_encoding.md rules R83, R84). -/

namespace Sys2Proof

/-! ### Decoding by the value of the word (R84) -/

theorem opField_toNat (w : Word) : (opField w).toNat = w.toNat % 256 := by
  rw [opField, BitVec.extractLsb'_toNat, Nat.shiftRight_zero]

theorem rsvField_eq_zero_iff {w : Word} : rsvField w = 0 ↔ w.toNat < 256 := by
  have hw := w.isLt
  rw [← BitVec.toNat_inj, rsvField, BitVec.extractLsb'_toNat, Nat.shiftRight_eq_div_pow]
  change w.toNat / 2 ^ 8 % 2 ^ 24 = 0 ↔ _
  omega

theorem eq_encode_iff_toNat {w : Word} {i : Instr} : w = encode i ↔ w.toNat = (opcode i).toNat := by
  have hsmall : (opcode i).toNat < 256 := (opcode i).isLt
  rw [eq_encode_iff, rsvField_eq_zero_iff, ← BitVec.toNat_inj (x := opField w), opField_toNat]
  omega

theorem encode_inj {i j : Instr} : encode i = encode j ↔ i = j :=
  ⟨fun h => Except.ok.inj ((decode_eq_ok_iff_eq_encode.mpr rfl).symm.trans (decode_eq_ok_iff_eq_encode.mpr h)),
    congrArg _⟩

theorem decode_of_toNat {w : Word} {i : Instr} (h : w.toNat = (opcode i).toNat) : decode w = .ok i :=
  decode_eq_ok_iff_eq_encode.mpr (eq_encode_iff_toNat.mpr h)

theorem decode_of_reserved {w : Word} (h : 256 ≤ w.toNat) : decode w = .error .reservedBits :=
  if_pos (mt rsvField_eq_zero_iff.mp (Nat.not_lt.mpr h))

/-- A word without reserved bits that is no command has an unassigned operation code. -/
theorem decode_of_unassigned {w : Word} (hsmall : w.toNat < 256) (h : ∀ i, w.toNat ≠ (opcode i).toNat) :
    decode w = .error .unassignedOp := by
  cases hw : decode w with
  | ok i => exact absurd (eq_encode_iff_toNat.mp (decode_eq_ok_iff_eq_encode.mp hw)) (h i)
  | error r =>
    rw [decode, if_neg (not_not.mpr (rsvField_eq_zero_iff.mpr hsmall))] at hw
    split at hw <;> cases hw
    rfl

end Sys2Proof

namespace Sys2Proof.Machine

/-! ### The frame of a command (R36) -/

/-- A completion leaves alone what it does not write. -/
theorem State.finish_registers (r : Except ErrKind Bytes) (s : State) :
    (s.finish r).key = s.key ∧ (s.finish r).iv = s.iv ∧ (s.finish r).salt = s.salt ∧ (s.finish r).pw = s.pw ∧
      (s.finish r).pwLen = s.pwLen ∧ (s.finish r).inp = s.inp ∧ (s.finish r).inLen = s.inLen ∧
      (s.finish r).entropy = s.entropy ∧ (s.finish r).draws = s.draws := by
  obtain ⟨o, l, e, h⟩ := s.finish_frame r
  rw [h]
  exact ⟨rfl, rfl, rfl, rfl, rfl, rfl, rfl, rfl, rfl⟩

/-- A command's next state is a completion of the state as it stood, or of the one with the command's registers written. -/
theorem exec_eq_finish {i : Instr} {s t : State} (h : exec i s = .next t) :
    ∃ s₀ r, (s₀ = s ∨ s₀ = s.prepared i) ∧ t = s₀.finish r := by
  by_cases hfits : s.operandsFit i = true
  · exact ⟨_, _, .inr rfl, Host.Outcome.next.inj (h.symm.trans (exec_of_fits hfits))⟩
  · exact ⟨s, .error .lengthError, .inl rfl, Host.Outcome.next.inj (h.symm.trans (exec_of_not_fits hfits))⟩

theorem State.prepared_operands {i : Instr} (h : i ≠ .clearCmd) (s : State) :
    (s.prepared i).salt = s.salt ∧ (s.prepared i).pw = s.pw ∧ (s.prepared i).pwLen = s.pwLen ∧
      (s.prepared i).inp = s.inp ∧ (s.prepared i).inLen = s.inLen := by
  cases i with
  | clearCmd => exact absurd rfl h
  | deriveCmd => simp [State.prepared]
  | encryptCmd | decryptCmd | sealCmd | openCmd => exact ⟨rfl, rfl, rfl, rfl, rfl⟩

theorem State.prepared_key_iv {i : Instr} (hc : i ≠ .clearCmd) (hd : i ≠ .deriveCmd) (s : State) :
    (s.prepared i).key = s.key ∧ (s.prepared i).iv = s.iv := by
  cases i with
  | clearCmd => exact absurd rfl hc
  | deriveCmd => exact absurd rfl hd
  | encryptCmd | decryptCmd | sealCmd | openCmd => exact ⟨rfl, rfl⟩

theorem State.prepared_draws {i : Instr} (h : i ≠ .sealCmd) (s : State) :
    (s.prepared i).entropy = s.entropy ∧ (s.prepared i).draws = s.draws := by
  cases i with
  | sealCmd => exact absurd rfl h
  | deriveCmd => simp [State.prepared]
  | encryptCmd | decryptCmd | openCmd | clearCmd => exact ⟨rfl, rfl⟩

/-! ### Two runs from states that differ where no command looks -/

/-- The state with other contents in `OUT`, `OUTLEN`, `CTRL`, the flags and `PHASE`. -/
def State.withOutputFlags (o : Memory) (l : Word) (b d a : Bool) (e : BitVec 4) (ph : Phase) (s : State) : State :=
  { s with out := o, outLen := l, ie := b, done := d, accErr := a, err := e, phase := ph }

/-- A completion overwrites all of them but `IE` and `ACCERR`. -/
theorem State.finish_withOutputFlags (r : Except ErrKind Bytes) (o : Memory) (l : Word) (b d a : Bool) (e : BitVec 4)
    (ph : Phase) (s : State) :
    (s.withOutputFlags o l b d a e ph).finish r = { s.finish r with ie := b, accErr := a } := by
  cases r with
  | ok x => rfl
  | error x => rfl

theorem State.operandsFit_withOutputFlags (o : Memory) (l : Word) (b d a : Bool) (e : BitVec 4) (ph : Phase) (s : State)
    (i : Instr) : (s.withOutputFlags o l b d a e ph).operandsFit i = s.operandsFit i := by cases i <;> rfl

theorem State.contract_withOutputFlags (o : Memory) (l : Word) (b d a : Bool) (e : BitVec 4) (ph : Phase) (s : State)
    (i : Instr) : (s.withOutputFlags o l b d a e ph).contract i = s.contract i := by cases i <;> rfl

theorem State.prepared_withOutputFlags (o : Memory) (l : Word) (b d a : Bool) (e : BitVec 4) (ph : Phase) (s : State)
    (i : Instr) : (s.withOutputFlags o l b d a e ph).prepared i = (s.prepared i).withOutputFlags o l b d a e ph := by
  cases i <;> rfl

/-- The state with other contents in `PW` and `IN`. -/
def State.withBuffers (pw inp : Memory) (s : State) : State := { s with pw := pw, inp := inp }

/-- The two buffers agree with a state's below the lengths. -/
def AgreeBelowLengths (s : State) (pw inp : Memory) : Prop :=
  (∀ a, a < s.pwLen.toNat → pw.get a = s.pw.get a) ∧ ∀ a, a < s.inLen.toNat → inp.get a = s.inp.get a

theorem State.finish_withBuffers (r : Except ErrKind Bytes) (pw inp : Memory) (s : State) :
    (s.withBuffers pw inp).finish r = (s.finish r).withBuffers pw inp := by
  cases r with
  | ok x => rfl
  | error x => rfl

theorem State.operandsFit_withBuffers (pw inp : Memory) (s : State) (i : Instr) :
    (s.withBuffers pw inp).operandsFit i = s.operandsFit i := by cases i <;> rfl

section
variable {s : State} {pw inp : Memory}

theorem State.password_withBuffers (h : AgreeBelowLengths s pw inp) : (s.withBuffers pw inp).password = s.password :=
  Memory.slice_congr h.1

theorem State.dataIn_withBuffers (h : AgreeBelowLengths s pw inp) : (s.withBuffers pw inp).dataIn = s.dataIn :=
  Memory.slice_congr h.2

/-- A pure function takes the buffers only as the two operands. -/
theorem State.contract_withBuffers (h : AgreeBelowLengths s pw inp) (i : Instr) :
    (s.withBuffers pw inp).contract i = s.contract i := by
  have hpw := State.password_withBuffers h
  have hin := State.dataIn_withBuffers h
  cases i with
  | deriveCmd | clearCmd => rfl
  | encryptCmd | decryptCmd | sealCmd | openCmd =>
    simp only [State.contract, hpw, hin]
    rfl

theorem State.prepared_withBuffers (h : AgreeBelowLengths s pw inp) {i : Instr} (hi : i ≠ .clearCmd) :
    (s.withBuffers pw inp).prepared i = (s.prepared i).withBuffers pw inp := by
  cases i with
  | clearCmd => exact absurd rfl hi
  | deriveCmd =>
    simp only [State.prepared, State.password_withBuffers h]
    rfl
  | encryptCmd | decryptCmd | sealCmd | openCmd => rfl

theorem State.prepared_clear_withBuffers (s : State) (pw inp : Memory) :
    (s.withBuffers pw inp).prepared .clearCmd = s.prepared .clearCmd := rfl

/-- A command on buffers that agree below the lengths does the same, and leaves those buffers unless it zeroes them. -/
theorem exec_withBuffers {i : Instr} {t : State} (h : AgreeBelowLengths s pw inp) (ht : exec i s = .next t) :
    exec i (s.withBuffers pw inp) = .next (if i = .clearCmd then t else t.withBuffers pw inp) := by
  by_cases hfits : s.operandsFit i = true
  · obtain rfl := Host.Outcome.next.inj (ht.symm.trans (exec_of_fits hfits))
    rw [exec_of_fits ((State.operandsFit_withBuffers pw inp s i).trans hfits), State.contract_withBuffers h]
    split_ifs with hi
    · subst hi
      rw [State.prepared_clear_withBuffers]
    · rw [State.prepared_withBuffers h hi, State.finish_withBuffers]
  · obtain rfl := Host.Outcome.next.inj (ht.symm.trans (exec_of_not_fits hfits))
    have hi : i ≠ .clearCmd := fun hc => hfits (hc ▸ s.operandsFit_clearCmd)
    rw [if_neg hi]
    exact exec_of_not_fits (s := s.withBuffers pw inp) (State.operandsFit_withBuffers pw inp s i ▸ hfits)

end

/-! ### The result of a successful completion (R235) -/

/-- A completion without a failure code is a command whose operands fit and whose pure function gives a result. -/
theorem completionStep_success {w : Word} {s t : State} (h : completionStep w s = .next t) (herr : t.err = 0) :
    ∃ i r, w = encode i ∧ s.operandsFit i = true ∧ s.contract i = .ok r ∧ t = (s.prepared i).complete r := by
  cases hw : decode w with
  | error e =>
    rw [completionStep_of_decode_error hw] at h
    cases h
    exact absurd ((State.fail_err s .illegalCommand).symm.trans herr) (ErrKind.code_ne_zero _)
  | ok i =>
    rw [completionStep_of_decode_ok hw] at h
    rw [err_of_exec h] at herr
    cases hout : s.outcome i with
    | error e =>
      rw [hout] at herr
      exact absurd herr e.code_ne_zero
    | ok r =>
      have hfits : s.operandsFit i = true := by
        by_contra hno
        exact nomatch hout.symm.trans (State.outcome_of_not_fits hno)
      have hcontract := (State.outcome_of_fits hfits).symm.trans hout
      rw [exec_of_fits hfits, hcontract] at h
      exact ⟨i, r, decode_eq_ok_iff_eq_encode.mp hw, hfits, hcontract, (Host.Outcome.next.inj h).symm⟩

/-- A byte string laid down reads as itself, then zeros. -/
theorem Memory.get_ofBytes_ite (r : Bytes) (k : Nat) :
    (Memory.ofBytes r).get k = if k < r.length then r.getD k 0 else 0 := by
  rw [Memory.get_ofBytes]
  split_ifs with hk
  · rfl
  · exact List.getD_eq_default _ _ (Nat.not_lt.mp hk)

/-! ### The statements -/

/-- Settles O2: a word that is a command's, a word with reserved bits, and the rest. -/
theorem decodeIsTotalOnWords : Obligations.DecodeIsTotalOnWords := by
  intro w
  split_ifs with h1 h2 h3 h4 h5 h6 hrsv
  · exact decode_of_toNat h1
  · exact decode_of_toNat h2
  · exact decode_of_toNat h3
  · exact decode_of_toNat h4
  · exact decode_of_toNat h5
  · exact decode_of_toNat h6
  · exact decode_of_reserved hrsv
  · refine decode_of_unassigned (Nat.not_le.mp hrsv) fun i => ?_
    cases i <;> assumption

/-- Settles O3, by evaluation of the nine words. -/
theorem tableWordsDecode : Obligations.TableWordsDecode := by
  unfold Obligations.TableWordsDecode
  decide

/-- Settles O21: the result is the command's, which fits; the two commands without data output give none. -/
theorem successLeavesTheResultZeroFilled : Obligations.SuccessLeavesTheResultZeroFilled := by
  intro w s t h herr
  obtain ⟨i, r, rfl, hfits, hcontract, rfl⟩ := completionStep_success h herr
  have hlen := (State.contract_length hfits hcontract).1
  refine ⟨rfl, rfl, r, hlen, toNat_ofNat_of_le_bufMax hlen, Memory.get_ofBytes_ite r, ?_⟩
  rintro (hw | hw)
  · obtain rfl := encode_inj.mp hw
    exact (Except.ok.inj hcontract).symm
  · obtain rfl := encode_inj.mp hw
    exact (Except.ok.inj hcontract).symm

/-- Settles O22: a completion touches the outputs and flags only, and before it a command writes only its own registers. -/
theorem commandsKeepWhatTheyDoNotWrite : Obligations.CommandsKeepWhatTheyDoNotWrite := by
  intro i s t h
  obtain ⟨s₁, r₁, rfl, hie, haccErr, hparams, hinputs, hanswers⟩ := exec_finish h
  obtain ⟨o, l, e, hfin⟩ := s₁.finish_frame r₁
  obtain ⟨s₀, r, hs₀, ht⟩ := exec_eq_finish h
  obtain ⟨hkey, hiv, hsalt, hpw, hpwLen, hinp, hinLen, hentropy, hdraws⟩ := s₀.finish_registers r
  rw [ht, hkey, hiv, hsalt, hpw, hpwLen, hinp, hinLen, hentropy, hdraws, ← ht, hfin]
  refine ⟨hie, haccErr, fun hc => ?_, fun hc hd => ?_, fun hs => ?_, hparams, hinputs, hanswers⟩ <;>
    rcases hs₀ with rfl | rfl
  · exact ⟨rfl, rfl, rfl, rfl, rfl⟩
  · exact s.prepared_operands hc
  · exact ⟨rfl, rfl⟩
  · exact s.prepared_key_iv hc hd
  · exact ⟨rfl, rfl⟩
  · exact s.prepared_draws hs

/-- Settles O23: the length check, the pure function and the registers written are the same in both runs, and the
completion overwrites the rest. -/
theorem commandsReadNoOutputAndNoFlag : Obligations.CommandsReadNoOutputAndNoFlag := by
  intro i s t o l b d a e ph h
  have hfit := State.operandsFit_withOutputFlags o l b d a e ph s i
  change exec i (s.withOutputFlags o l b d a e ph) = _
  by_cases hfits : s.operandsFit i = true
  · obtain rfl := Host.Outcome.next.inj (h.symm.trans (exec_of_fits hfits))
    rw [exec_of_fits (hfit.trans hfits), State.contract_withOutputFlags, State.prepared_withOutputFlags,
      State.finish_withOutputFlags]
  · obtain rfl := Host.Outcome.next.inj (h.symm.trans (exec_of_not_fits hfits))
    exact exec_of_not_fits (hfit ▸ hfits)

/-- Settles O25: the operands are the same strings. -/
theorem bytesBeyondTheLengthsAreIgnored : Obligations.BytesBeyondTheLengthsAreIgnored :=
  fun _ _ _ _ _ h hpw hinp => exec_withBuffers ⟨hpw, hinp⟩ h

/-- Settles O26, by the laws of the buffers. -/
theorem buffersAreUsedFromZero : Obligations.BuffersAreUsedFromZero :=
  ⟨fun s _ hk => s.pw.slice_getD hk, fun s _ hk => s.inp.slice_getD hk, Memory.get_ofBytes_ite, Memory.slice_ofBytes⟩

end Sys2Proof.Machine

/-! The AES-128 block functions (42_aes128.md rules R136 to R149): multiplication by the coefficients as repeated doubling,
the transformations by row and column, and that the rounds of decryption take back those of encryption. -/

namespace Sys2Proof.Machine

/-! ### The field (R136) -/

theorem xor_left_comm (a b c : Byte) : a ^^^ (b ^^^ c) = b ^^^ (a ^^^ c) := by
  rw [← BitVec.xor_assoc, BitVec.xor_comm a, BitVec.xor_assoc]

/-- Doubling is additive. -/
theorem xtime_xor (a b : Byte) : xtime (a ^^^ b) = xtime a ^^^ xtime b := by
  simp only [xtime, BitVec.getLsbD_xor, BitVec.shiftLeft_xor_distrib]
  cases a.getLsbD 7 <;> cases b.getLsbD 7 <;>
    simp [BitVec.xor_assoc, BitVec.xor_comm, xor_left_comm]

/-- Doubling as a number, with the reduction by `11B` where it overflows. -/
theorem xtime_eq (a : Byte) : xtime a =
    if 128 ≤ a.toNat then BitVec.ofNat 8 (2 * a.toNat) ^^^ 0x1B else BitVec.ofNat 8 (2 * a.toNat) := by
  have hbit : a.getLsbD 7 = true ↔ 128 ≤ a.toNat := by
    have ha := a.isLt
    rw [BitVec.getLsbD, Nat.testBit_eq_decide_div_mod_eq, decide_eq_true_iff]
    omega
  have hshift : a <<< 1 = BitVec.ofNat 8 (2 * a.toNat) := by
    refine BitVec.eq_of_toNat_eq ?_
    rw [BitVec.toNat_shiftLeft, BitVec.toNat_ofNat, Nat.shiftLeft_eq, Nat.mul_comm]
  simp only [xtime, hbit, hshift]

theorem gmulLoop_xor (k : Byte) (left j : Nat) (a b r t : Byte) :
    gmulLoop k left j (a ^^^ b) (r ^^^ t) = gmulLoop k left j a r ^^^ gmulLoop k left j b t := by
  induction left generalizing j a b r t with
  | zero => rfl
  | succ left ih =>
    have hsum : r ^^^ t ^^^ (a ^^^ b) = (r ^^^ a) ^^^ (t ^^^ b) := by ac_rfl
    cases hk : k.getLsbD j <;> simp [gmulLoop, hk, xtime_xor, hsum, ih]

theorem gmulLoop_xtime (k : Byte) (left j : Nat) (a r : Byte) :
    gmulLoop k left j (xtime a) (xtime r) = xtime (gmulLoop k left j a r) := by
  induction left generalizing j a r with
  | zero => rfl
  | succ left ih => cases hk : k.getLsbD j <;> simp [gmulLoop, hk, ← xtime_xor, ih]

/-- Multiplication is additive in the shifted factor. -/
theorem gmul_xor (a b k : Byte) : gmul (a ^^^ b) k = gmul a k ^^^ gmul b k := gmulLoop_xor k 8 0 a b 0 0

theorem gmul_xtime (a k : Byte) : gmul (xtime a) k = xtime (gmul a k) := gmulLoop_xtime k 8 0 a 0

/-! The multiples by the coefficients of the two matrices: the loop adds the doublings at the coefficient's bits. -/

theorem gmul_01 (a : Byte) : gmul a 0x01 = a := by simp [gmul, gmulLoop]

theorem gmul_02 (a : Byte) : gmul a 0x02 = xtime a := by simp [gmul, gmulLoop]

theorem gmul_03 (a : Byte) : gmul a 0x03 = a ^^^ xtime a := by simp [gmul, gmulLoop]

theorem gmul_09 (a : Byte) : gmul a 0x09 = a ^^^ xtime (xtime (xtime a)) := by simp [gmul, gmulLoop]

theorem gmul_0B (a : Byte) : gmul a 0x0B = a ^^^ xtime a ^^^ xtime (xtime (xtime a)) := by simp [gmul, gmulLoop]

theorem gmul_0D (a : Byte) : gmul a 0x0D = a ^^^ xtime (xtime a) ^^^ xtime (xtime (xtime a)) := by simp [gmul, gmulLoop]

theorem gmul_0E (a : Byte) : gmul a 0x0E = xtime a ^^^ xtime (xtime a) ^^^ xtime (xtime (xtime a)) := by
  simp [gmul, gmulLoop]

/-- A coefficient may stand on either side; one byte against each, so the 256 bytes are checked. -/
theorem gmul_coefficient_comm : ∀ a : Byte,
    gmul 0x02 a = gmul a 0x02 ∧ gmul 0x03 a = gmul a 0x03 ∧ gmul 0x09 a = gmul a 0x09 ∧ gmul 0x0B a = gmul a 0x0B ∧
      gmul 0x0D a = gmul a 0x0D ∧ gmul 0x0E a = gmul a 0x0E := by
  decide +kernel

/-- The multiples in the terms of R136, from the double on. -/
theorem gmul_multiples {a x : Byte} (hx : xtime a = x) :
    xtime a = x ∧ gmul 0x02 a = x ∧ gmul 0x03 a = x ^^^ a ∧ gmul 0x09 a = xtime (xtime x) ^^^ a ∧
      gmul 0x0B a = xtime (xtime x) ^^^ a ^^^ x ∧ gmul 0x0D a = xtime (xtime x) ^^^ a ^^^ xtime x ∧
      gmul 0x0E a = xtime (xtime x) ^^^ xtime x ^^^ x := by
  obtain ⟨h02, h03, h09, h0B, h0D, h0E⟩ := gmul_coefficient_comm a
  rw [h02, h03, h09, h0B, h0D, h0E, gmul_02, gmul_03, gmul_09, gmul_0B, gmul_0D, gmul_0E, hx]
  exact ⟨rfl, rfl, by ac_rfl, by ac_rfl, by ac_rfl, by ac_rfl, by ac_rfl⟩

/-! ### The substitution tables (R138, R139) -/

theorem invSbox_sbox : ∀ b : Byte, invSbox (sbox b) = b := by decide +kernel

theorem sbox_invSbox : ∀ b : Byte, sbox (invSbox b) = b := by decide +kernel

/-- The affine map taken back: the byte that `SBOX[b]` is the affine image of. -/
def sboxInverse (b : Byte) : Byte :=
  let y := sbox b ^^^ 0x63
  y.rotateLeft 1 ^^^ y.rotateLeft 3 ^^^ y.rotateLeft 6

theorem sboxInverse_spec : ∀ b : Byte, (gmul b (sboxInverse b) = 1 ∨ (b = 0 ∧ sboxInverse b = 0)) ∧
    sbox b = sboxInverse b ^^^ (sboxInverse b).rotateLeft 1 ^^^ (sboxInverse b).rotateLeft 2 ^^^
      (sboxInverse b).rotateLeft 3 ^^^ (sboxInverse b).rotateLeft 4 ^^^ 0x63 := by
  decide +kernel

/-! ### The state by row and column (R137) -/

/-- The byte at row `r`, column `c`, both modulo 4. -/
def cell (s : Block) (r c : Nat) : Byte := s.toList.getD (r % 4 + 4 * (c % 4)) 0

theorem cell_of_lt {r c : Nat} (hr : r < 4) (hc : c < 4) (s : Block) : cell s r c = s.toList.getD (r + 4 * c) 0 := by
  rw [cell, Nat.mod_eq_of_lt hr, Nat.mod_eq_of_lt hc]

/-- The byte at an index, named by any row and column that stand for it. -/
theorem getElem_eq_cell {s : Block} {i r c : Nat} (hi : i < 16) (h : i = r % 4 + 4 * (c % 4)) : s[i] = cell s r c := by
  subst h
  simp [cell, hi]

theorem cell_row_mod (s : Block) (r c : Nat) : cell s (r % 4) c = cell s r c := by
  rw [cell, Nat.mod_mod, cell]

theorem cell_add_four (s : Block) (r c : Nat) : cell s (r + 4) c = cell s r c := by
  rw [cell, Nat.add_mod_right, cell]

theorem cell_ofFn (f : Fin 16 → Byte) (r c : Nat) :
    cell (Vector.ofFn f) r c = f ⟨r % 4 + 4 * (c % 4), by omega⟩ := by
  have hi : r % 4 + 4 * (c % 4) < 16 := by omega
  simp [cell, hi]

theorem block_ext_cell {s t : Block} (h : ∀ r c, cell s r c = cell t r c) : s = t := by
  refine Vector.ext fun i hi => ?_
  have hidx : i = i % 4 + 4 * (i / 4 % 4) := by omega
  rw [getElem_eq_cell hi hidx, getElem_eq_cell hi hidx, h]

/-! ### ShiftRows (R141) -/

theorem cell_shiftRows (s : Block) (r c : Nat) : cell (shiftRows s) r c = cell s r (c + r) := by
  rw [shiftRows, cell_ofFn]
  exact getElem_eq_cell _ (by simp only; omega)

theorem cell_invShiftRows (s : Block) (r c : Nat) : cell (invShiftRows s) r c = cell s r (c + 4 - r % 4) := by
  rw [invShiftRows, cell_ofFn]
  exact getElem_eq_cell _ (by simp only; omega)

theorem cell_congr_col {s : Block} {r c c' : Nat} (h : c % 4 = c' % 4) : cell s r c = cell s r c' := by
  rw [cell, h, cell]

theorem invShiftRows_shiftRows (s : Block) : invShiftRows (shiftRows s) = s :=
  block_ext_cell fun r c => by
    rw [cell_invShiftRows, cell_shiftRows]
    exact cell_congr_col (by omega)

theorem shiftRows_invShiftRows (s : Block) : shiftRows (invShiftRows s) = s :=
  block_ext_cell fun r c => by
    rw [cell_shiftRows, cell_invShiftRows]
    exact cell_congr_col (by omega)

/-! ### MixColumns (R142, R143) -/

/-- One row of a circulant applied to a column that begins at that row. -/
def mixRow (m : Vector Byte 4) (a b c d : Byte) : Byte := gmul a m[0] ^^^ gmul b m[1] ^^^ gmul c m[2] ^^^ gmul d m[3]

/-- Row `r` of a column product reads the column from row `r` on. -/
theorem cell_mix (m : Vector Byte 4) (s : Block) (r c : Nat) :
    cell (Vector.ofFn (mixEntry m s)) r c =
      mixRow m (cell s r c) (cell s (r + 1) c) (cell s (r + 2) c) (cell s (r + 3) c) := by
  rw [cell_ofFn, mixEntry, mixRow, getElem_eq_cell (r := r) (c := c) _ (by simp only; omega),
    getElem_eq_cell (r := r + 1) (c := c) _ (by simp only; omega),
    getElem_eq_cell (r := r + 2) (c := c) _ (by simp only; omega),
    getElem_eq_cell (r := r + 3) (c := c) _ (by simp only; omega)]

/-- The row of `MixColumns`. -/
def mixRowEnc (a b c d : Byte) : Byte := gmul a 0x02 ^^^ gmul b 0x03 ^^^ c ^^^ d

/-- The row of `InvMixColumns`. -/
def mixRowDec (a b c d : Byte) : Byte := gmul a 0x0E ^^^ gmul b 0x0B ^^^ gmul c 0x0D ^^^ gmul d 0x09

theorem cell_mixColumns (s : Block) (r c : Nat) :
    cell (mixColumns s) r c = mixRowEnc (cell s r c) (cell s (r + 1) c) (cell s (r + 2) c) (cell s (r + 3) c) := by
  rw [mixColumns, cell_mix]
  simp only [mixRow, mixRowEnc, Vector.getElem_mk, List.getElem_toArray, List.getElem_cons_zero,
    List.getElem_cons_succ, gmul_01]

theorem cell_invMixColumns (s : Block) (r c : Nat) :
    cell (invMixColumns s) r c = mixRowDec (cell s r c) (cell s (r + 1) c) (cell s (r + 2) c) (cell s (r + 3) c) := by
  rw [invMixColumns, cell_mix]
  simp [mixRow, mixRowDec]

/-! The first row of the product of the two matrices, entry by entry: one, and three zeros. The product has degree below 8,
so nothing is reduced, and every multiple but `a` itself comes up an even number of times. -/

theorem mixProduct_diagonal (a : Byte) :
    xtime (gmul a 0x0E) ^^^ (gmul a 0x09 ^^^ xtime (gmul a 0x09)) ^^^ gmul a 0x0D ^^^ gmul a 0x0B = a := by
  simp only [gmul_0E, gmul_09, gmul_0D, gmul_0B, xtime_xor]
  simp [BitVec.xor_assoc, BitVec.xor_comm, xor_left_comm]

theorem mixProduct_second (b : Byte) :
    xtime (gmul b 0x0B) ^^^ (gmul b 0x0E ^^^ xtime (gmul b 0x0E)) ^^^ gmul b 0x09 ^^^ gmul b 0x0D = 0 := by
  simp only [gmul_0E, gmul_09, gmul_0D, gmul_0B, xtime_xor]
  simp [BitVec.xor_assoc, BitVec.xor_comm, xor_left_comm]

theorem mixProduct_third (c : Byte) :
    xtime (gmul c 0x0D) ^^^ (gmul c 0x0B ^^^ xtime (gmul c 0x0B)) ^^^ gmul c 0x0E ^^^ gmul c 0x09 = 0 := by
  simp only [gmul_0E, gmul_09, gmul_0D, gmul_0B, xtime_xor]
  simp [BitVec.xor_assoc, xor_left_comm]

theorem mixProduct_fourth (d : Byte) :
    xtime (gmul d 0x09) ^^^ (gmul d 0x0D ^^^ xtime (gmul d 0x0D)) ^^^ gmul d 0x0B ^^^ gmul d 0x0E = 0 := by
  simp only [gmul_0E, gmul_09, gmul_0D, gmul_0B, xtime_xor]
  simp [BitVec.xor_assoc, xor_left_comm]

/-- The terms of a row of the product, gathered by the byte of the column. -/
theorem mixProduct_row (a b c d : Byte) :
    (xtime (gmul a 0x0E) ^^^ (gmul a 0x09 ^^^ xtime (gmul a 0x09)) ^^^ gmul a 0x0D ^^^ gmul a 0x0B) ^^^
      (xtime (gmul b 0x0B) ^^^ (gmul b 0x0E ^^^ xtime (gmul b 0x0E)) ^^^ gmul b 0x09 ^^^ gmul b 0x0D) ^^^
      (xtime (gmul c 0x0D) ^^^ (gmul c 0x0B ^^^ xtime (gmul c 0x0B)) ^^^ gmul c 0x0E ^^^ gmul c 0x09) ^^^
      (xtime (gmul d 0x09) ^^^ (gmul d 0x0D ^^^ xtime (gmul d 0x0D)) ^^^ gmul d 0x0B ^^^ gmul d 0x0E) = a := by
  rw [mixProduct_diagonal, mixProduct_second, mixProduct_third, mixProduct_fourth]
  simp

theorem mixRowDec_mixRowEnc (a b c d : Byte) :
    mixRowDec (mixRowEnc a b c d) (mixRowEnc b c d a) (mixRowEnc c d a b) (mixRowEnc d a b c) = a := by
  refine Eq.trans ?_ (mixProduct_row a b c d)
  simp only [mixRowDec, mixRowEnc, gmul_02, gmul_03, gmul_xor, gmul_xtime]
  ac_rfl

theorem mixRowEnc_mixRowDec (a b c d : Byte) :
    mixRowEnc (mixRowDec a b c d) (mixRowDec b c d a) (mixRowDec c d a b) (mixRowDec d a b c) = a := by
  refine Eq.trans ?_ (mixProduct_row a b c d)
  simp only [mixRowDec, mixRowEnc, gmul_02, gmul_03, xtime_xor]
  ac_rfl

theorem invMixColumns_mixColumns (s : Block) : invMixColumns (mixColumns s) = s :=
  block_ext_cell fun r c => by
    simp only [cell_invMixColumns, cell_mixColumns, Nat.add_assoc, Nat.reduceAdd, cell_add_four, mixRowDec_mixRowEnc]

theorem mixColumns_invMixColumns (s : Block) : mixColumns (invMixColumns s) = s :=
  block_ext_cell fun r c => by
    simp only [cell_invMixColumns, cell_mixColumns, Nat.add_assoc, Nat.reduceAdd, cell_add_four, mixRowEnc_mixRowDec]

theorem cell_eq_getD_column {r c : Nat} (hr : r < 4) (hc : c < 4) (s : Block) :
    cell s r c = s.toList.getD (4 * c + r) 0 := by
  rw [cell_of_lt hr hc, Nat.add_comm]

/-- Column `c` of a state. -/
theorem column_eq {c : Nat} (hc : c < 4) (s : Block) :
    (s.toList.drop (4 * c)).take 4 = [cell s 0 c, cell s 1 c, cell s 2 c, cell s 3 c] := by
  rw [take_drop_eq_map_range (by simp; omega) 0, cell_eq_getD_column (by omega) hc, cell_eq_getD_column (by omega) hc,
    cell_eq_getD_column (by omega) hc, cell_eq_getD_column (by omega) hc]
  rfl

/-- The column formulas of R142 and R143, the coefficients on the left. -/
theorem mixColumns_column {c : Nat} (hc : c < 4) {s : Block} {a : Nat → Byte} (ha : ∀ k < 4, cell s k c = a k) :
    ((mixColumns s).toList.drop (4 * c)).take 4 =
      [gmul 0x02 (a 0) ^^^ gmul 0x03 (a 1) ^^^ a 2 ^^^ a 3, a 0 ^^^ gmul 0x02 (a 1) ^^^ gmul 0x03 (a 2) ^^^ a 3,
       a 0 ^^^ a 1 ^^^ gmul 0x02 (a 2) ^^^ gmul 0x03 (a 3), gmul 0x03 (a 0) ^^^ a 1 ^^^ a 2 ^^^ gmul 0x02 (a 3)] := by
  have hcoeff (x : Byte) : gmul 0x02 x = gmul x 0x02 ∧ gmul 0x03 x = gmul x 0x03 := by
    obtain ⟨h02, h03, -⟩ := gmul_coefficient_comm x
    exact ⟨h02, h03⟩
  have hcell (k : Nat) : cell s k c = a (k % 4) := (cell_row_mod s k c).symm.trans (ha _ (Nat.mod_lt k (by decide)))
  rw [column_eq hc]
  simp only [cell_mixColumns, hcell, Nat.reduceAdd, Nat.reduceMod, mixRowEnc, hcoeff, List.cons.injEq,
    and_true, true_and]
  exact ⟨by ac_rfl, by ac_rfl, by ac_rfl⟩

theorem invMixColumns_column {c : Nat} (hc : c < 4) {s : Block} {a : Nat → Byte} (ha : ∀ k < 4, cell s k c = a k) :
    ((invMixColumns s).toList.drop (4 * c)).take 4 =
      [gmul 0x0E (a 0) ^^^ gmul 0x0B (a 1) ^^^ gmul 0x0D (a 2) ^^^ gmul 0x09 (a 3),
       gmul 0x09 (a 0) ^^^ gmul 0x0E (a 1) ^^^ gmul 0x0B (a 2) ^^^ gmul 0x0D (a 3),
       gmul 0x0D (a 0) ^^^ gmul 0x09 (a 1) ^^^ gmul 0x0E (a 2) ^^^ gmul 0x0B (a 3),
       gmul 0x0B (a 0) ^^^ gmul 0x0D (a 1) ^^^ gmul 0x09 (a 2) ^^^ gmul 0x0E (a 3)] := by
  have hcoeff (x : Byte) : gmul 0x09 x = gmul x 0x09 ∧ gmul 0x0B x = gmul x 0x0B ∧ gmul 0x0D x = gmul x 0x0D ∧
      gmul 0x0E x = gmul x 0x0E := by
    obtain ⟨-, -, hinv⟩ := gmul_coefficient_comm x
    exact hinv
  have hcell (k : Nat) : cell s k c = a (k % 4) := (cell_row_mod s k c).symm.trans (ha _ (Nat.mod_lt k (by decide)))
  rw [column_eq hc]
  simp only [cell_invMixColumns, hcell, Nat.reduceAdd, Nat.reduceMod, mixRowDec, hcoeff, List.cons.injEq,
    and_true, true_and]
  exact ⟨by ac_rfl, by ac_rfl, by ac_rfl⟩

/-! ### SubBytes and AddRoundKey (R140, R144) -/

theorem subBytes_toList (s : Block) : (subBytes s).toList = s.toList.map sbox := by
  refine List.ext_getElem (by simp) fun i h1 h2 => ?_
  simp [subBytes]

theorem invSubBytes_toList (s : Block) : (invSubBytes s).toList = s.toList.map invSbox := by
  refine List.ext_getElem (by simp) fun i h1 h2 => ?_
  simp [invSubBytes]

theorem invSubBytes_subBytes (s : Block) : invSubBytes (subBytes s) = s := by
  ext i hi
  simp [invSubBytes, subBytes, invSbox_sbox]

theorem subBytes_invSubBytes (s : Block) : subBytes (invSubBytes s) = s := by
  ext i hi
  simp [invSubBytes, subBytes, sbox_invSbox]

theorem addRoundKey_addRoundKey (s k : Block) : addRoundKey (addRoundKey s k) k = s := xorArray_self_cancel s k

/-! ### The rounds (R147, R148)

The inverse cipher runs on the states that encryption has between `ShiftRows` and `MixColumns` of each round. -/

/-- The first half of an encryption round. -/
def subShift (s : Block) : Block := shiftRows (subBytes s)

/-- The first half of a decryption round. -/
def unsubShift (s : Block) : Block := invSubBytes (invShiftRows s)

theorem unsubShift_subShift (s : Block) : unsubShift (subShift s) = s := by
  rw [unsubShift, subShift, invShiftRows_shiftRows, invSubBytes_subBytes]

theorem subShift_unsubShift (s : Block) : subShift (unsubShift s) = s := by
  rw [unsubShift, subShift, subBytes_invSubBytes, shiftRows_invShiftRows]

theorem encryptRound_eq (s k : Block) : encryptRound s k = addRoundKey (mixColumns (subShift s)) k := rfl

theorem decryptRound_eq (s k : Block) : decryptRound s k = invMixColumns (addRoundKey (unsubShift s) k) := rfl

theorem decryptRound_encryptRound (s k : Block) : decryptRound (subShift (encryptRound s k)) k = subShift s := by
  rw [decryptRound_eq, unsubShift_subShift, encryptRound_eq, addRoundKey_addRoundKey, invMixColumns_mixColumns]

theorem encryptRound_decryptRound (s k : Block) : encryptRound (unsubShift (decryptRound s k)) k = unsubShift s := by
  rw [encryptRound_eq, subShift_unsubShift, decryptRound_eq, mixColumns_invMixColumns, addRoundKey_addRoundKey]

/-- The rounds of decryption under the keys in reverse take back the rounds of encryption, the last round first. -/
theorem foldl_decryptRound_encryptRound (ks : List Block) (s : Block) :
    ks.reverse.foldl decryptRound (subShift (ks.foldl encryptRound s)) = subShift s := by
  induction ks generalizing s with
  | nil => rfl
  | cons k ks ih =>
    rw [List.reverse_cons, List.foldl_append, List.foldl_cons (f := encryptRound), ih, List.foldl_cons, List.foldl_nil,
      decryptRound_encryptRound]

theorem foldl_encryptRound_decryptRound (ks : List Block) (s : Block) :
    ks.foldl encryptRound (unsubShift (ks.reverse.foldl decryptRound s)) = unsubShift s := by
  induction ks generalizing s with
  | nil => rfl
  | cons k ks ih =>
    rw [List.reverse_cons, List.foldl_append, List.foldl_cons, List.foldl_cons, List.foldl_nil,
      encryptRound_decryptRound, ih]

theorem encryptWith_eq (rk : List Block) (blk : Block) :
    encryptWith rk blk = addRoundKey (subShift (((rk.drop 1).take 9).foldl encryptRound
      (addRoundKey blk (rk.getD 0 (blockOf []))))) (rk.getD 10 (blockOf [])) := rfl

theorem decryptWith_eq (rk : List Block) (blk : Block) :
    decryptWith rk blk = addRoundKey (unsubShift (((rk.drop 1).take 9).reverse.foldl decryptRound
      (addRoundKey blk (rk.getD 10 (blockOf []))))) (rk.getD 0 (blockOf [])) := rfl

theorem decryptWith_encryptWith (rk : List Block) (blk : Block) : decryptWith rk (encryptWith rk blk) = blk := by
  rw [decryptWith_eq, encryptWith_eq, addRoundKey_addRoundKey, foldl_decryptRound_encryptRound, unsubShift_subShift,
    addRoundKey_addRoundKey]

theorem encryptWith_decryptWith (rk : List Block) (blk : Block) : encryptWith rk (decryptWith rk blk) = blk := by
  rw [encryptWith_eq, decryptWith_eq, addRoundKey_addRoundKey, foldl_encryptRound_decryptRound, subShift_unsubShift,
    addRoundKey_addRoundKey]

theorem aesDecryptBlock_aesEncryptBlock (key blk : Block) : aesDecryptBlock key (aesEncryptBlock key blk) = blk :=
  decryptWith_encryptWith _ blk

theorem aesEncryptBlock_aesDecryptBlock (key blk : Block) : aesEncryptBlock key (aesDecryptBlock key blk) = blk :=
  encryptWith_decryptWith _ blk

/-- The keys of the nine full rounds, by index. -/
theorem keyExpansion_inner (key : Block) :
    ((keyExpansion key).drop 1).take 9 =
      [1, 2, 3, 4, 5, 6, 7, 8, 9].map fun r => (keyExpansion key).getD r (blockOf []) :=
  take_drop_eq_map_range (by simp) (blockOf [])

/-! ### The statements -/

/-- Settles O47: each table byte by byte, and the field inverse as the affine map taken back. -/
theorem substitutionTablesAreInverse : Obligations.SubstitutionTablesAreInverse :=
  fun b => ⟨invSbox_sbox b, sbox_invSbox b, sboxInverse b, sboxInverse_spec b⟩

/-- Settles O49: the multiples as doublings, and the transformations by row and column. -/
theorem inverseTransformationsUndo : Obligations.InverseTransformationsUndo := by
  refine ⟨fun a => gmul_multiples (xtime_eq a), fun s => ⟨invShiftRows_shiftRows s, shiftRows_invShiftRows s,
    invMixColumns_mixColumns s, mixColumns_invMixColumns s⟩, fun s r c hr hc => ⟨?_, ?_⟩, fun s c hc => ?_⟩
  · rw [← cell_of_lt hr hc, cell_shiftRows, cell, Nat.mod_eq_of_lt hr]
  · rw [← cell_of_lt hr hc, cell_invShiftRows, cell, Nat.mod_eq_of_lt hr]
  · have hcol : ∀ k < 4, cell s k c = s.toList.getD (4 * c + k) 0 := fun k hk => cell_eq_getD_column hk hc s
    exact ⟨mixColumns_column (a := fun k => s.toList.getD (4 * c + k) 0) hc hcol,
      invMixColumns_column (a := fun k => s.toList.getD (4 * c + k) 0) hc hcol⟩

/-- Settles O50: the rounds taken back one by one; the keys of the expansion by index. -/
theorem aesDecryptInvertsEncrypt : Obligations.AesDecryptInvertsEncrypt := by
  refine ⟨fun key blk => ⟨aesDecryptBlock_aesEncryptBlock key blk, aesEncryptBlock_aesDecryptBlock key blk⟩,
    fun s => ⟨subBytes_toList s, invSubBytes_toList s⟩, fun key blk => ⟨?_, ?_⟩⟩
  · rw [aesEncryptBlock, encryptWith_eq, keyExpansion_inner, List.foldl_map]
    rfl
  · rw [aesDecryptBlock, decryptWith_eq, keyExpansion_inner, ← List.map_reverse, List.foldl_map]
    rfl

end Sys2Proof.Machine

/-! The round trips (43_cbc_pkcs7.md rules R168 to R174, 44_container.md rule R196): CBC block by block, `Decrypt` after
`Encrypt`, `Open` after `Seal`, and the commands with `OUT` copied to `IN` in between; and the worked digests of MD5. -/

namespace Sys2Proof.Machine

/-! ### CBC by block (R168, R169) -/

/-- Block `j` of a byte string. -/
def blockAt (p : Bytes) (j : Nat) : Block := blockOf ((p.drop (16 * j)).take 16)

/-- The block that block `j` is chained to: the one before it, and the IV before the first. -/
def chainedTo (iv : Block) (p : Bytes) (j : Nat) : Block := if j = 0 then iv else blockAt p (j - 1)

theorem blocksOf_getD {p : Bytes} {j : Nat} (hj : 16 * j + 16 ≤ p.length) (d : Block) :
    (blocksOf p).getD j d = blockAt p j := by
  have hlt : j < p.length / 16 := by omega
  simp [blocksOf, pieces_eq_map_range, hlt, blockAt]

/-- The block before block `j` of a list, and a given one before the first. -/
def previous (d prev : Block) (bs : List Block) (j : Nat) : Block := if j = 0 then prev else bs.getD (j - 1) d

theorem previous_succ (d prev b : Block) (bs : List Block) (j : Nat) :
    previous d prev (b :: bs) (j + 1) = previous d b bs j := by
  cases j <;> rfl

theorem cbcEncryptBlocks_getD (key prev d : Block) {ps : List Block} {j : Nat} (hj : j < ps.length) :
    (cbcEncryptBlocks key prev ps).getD j d =
      aesEncryptBlock key (xorArray (ps.getD j d) (previous d prev (cbcEncryptBlocks key prev ps) j)) := by
  induction ps generalizing prev j with
  | nil => exact absurd hj (Nat.not_lt_zero j)
  | cons p ps ih =>
    cases j with
    | zero => rfl
    | succ j =>
      rw [cbcEncryptBlocks, previous_succ]
      exact ih _ (Nat.lt_of_succ_lt_succ hj)

theorem cbcDecryptBlocks_getD (key prev d : Block) {cs : List Block} {j : Nat} (hj : j < cs.length) :
    (cbcDecryptBlocks key prev cs).getD j d =
      xorArray (aesDecryptBlock key (cs.getD j d)) (previous d prev cs j) := by
  induction cs generalizing prev j with
  | nil => exact absurd hj (Nat.not_lt_zero j)
  | cons c cs ih =>
    cases j with
    | zero => rfl
    | succ j =>
      rw [cbcDecryptBlocks, previous_succ]
      exact ih _ (Nat.lt_of_succ_lt_succ hj)

/-- Each block is decrypted and freed of the ciphertext block that it was chained to. -/
theorem cbcDecryptBlocks_cbcEncryptBlocks (key prev : Block) (ps : List Block) :
    cbcDecryptBlocks key prev (cbcEncryptBlocks key prev ps) = ps := by
  induction ps generalizing prev with
  | nil => rfl
  | cons p ps ih => rw [cbcEncryptBlocks, cbcDecryptBlocks, aesDecryptBlock_aesEncryptBlock, xorArray_self_cancel, ih]

theorem cbcDecryptRaw_cbcEncrypt {p : Bytes} (h : p.length % 16 = 0) (key iv : Block) :
    cbcDecryptRaw key iv (cbcEncrypt key iv p) = p := by
  rw [cbcDecryptRaw, cbcEncrypt, blocksOf_bytesOf, cbcDecryptBlocks_cbcEncryptBlocks, bytesOf_blocksOf h]

theorem previous_blocksOf {p : Bytes} {j : Nat} (hj : 16 * j ≤ p.length) (d iv : Block) :
    previous d iv (blocksOf p) j = chainedTo iv p j := by
  rw [previous, chainedTo]
  refine ite_congr rfl (fun _ => rfl) fun hne => blocksOf_getD (by omega) d

/-- The chaining of encryption, in the bytes of plaintext and ciphertext. -/
theorem blockAt_cbcEncrypt {p : Bytes} {j : Nat} (hj : 16 * j + 16 ≤ p.length) (key iv : Block) :
    blockAt (cbcEncrypt key iv p) j =
      aesEncryptBlock key (xorArray (blockAt p j) (chainedTo iv (cbcEncrypt key iv p) j)) := by
  have hlen := cbcEncrypt_length key iv p
  have hblocks : blocksOf (cbcEncrypt key iv p) = cbcEncryptBlocks key iv (blocksOf p) := blocksOf_bytesOf _
  rw [← blocksOf_getD (by omega) (blockOf []), ← blocksOf_getD hj (blockOf []),
    ← previous_blocksOf (by omega) (blockOf []), hblocks]
  exact cbcEncryptBlocks_getD key iv _ (by rw [blocksOf_length]; omega)

theorem blockAt_cbcDecryptRaw {c : Bytes} {j : Nat} (hj : 16 * j + 16 ≤ c.length) (key iv : Block) :
    blockAt (cbcDecryptRaw key iv c) j = xorArray (aesDecryptBlock key (blockAt c j)) (chainedTo iv c j) := by
  have hlen := cbcDecryptRaw_length key iv c
  have hblocks : blocksOf (cbcDecryptRaw key iv c) = cbcDecryptBlocks key iv (blocksOf c) := blocksOf_bytesOf _
  rw [← blocksOf_getD (by omega) (blockOf []), ← blocksOf_getD hj (blockOf []),
    ← previous_blocksOf (by omega) (blockOf []), hblocks]
  exact cbcDecryptBlocks_getD key iv _ (by rw [blocksOf_length]; omega)

/-! ### The contracts (R174, R196) -/

theorem encrypt_ne_nil (m : Bytes) (key iv : Block) : encrypt m key iv ≠ [] := by
  have hlen := encrypt_length m key iv
  have hgt := padLen_gt m.length
  intro hnil
  rw [hnil, List.length_nil] at hlen
  omega

/-- A ciphertext is a non-empty whole number of blocks, so `EMPTY_CT` plays no part. -/
theorem decrypt_encrypt (em : EmptyCt) (m : Bytes) (key iv : Block) : decrypt em (encrypt m key iv) key iv = .ok m := by
  have hblocks : (encrypt m key iv).length % 16 = 0 := by rw [encrypt_length]; exact padLen_dvd _
  have hpad : (pad m).length % 16 = 0 := by rw [pad_length_eq]; exact padLen_dvd _
  rw [decrypt_blocks_eq_ok_iff (encrypt_ne_nil m key iv) hblocks, encrypt, cbcDecryptRaw_cbcEncrypt hpad, unpad_pad]

/-- A sealed container carries the constant header and its own salt, so `STRICT_HEADER` plays no part. -/
theorem openBytes_sealBytes (params : Params) (m p : Bytes) (x : Salt) :
    openBytes params (sealBytes m p x) p = .ok m := by
  have hsalt : embeddedSalt (sealBytes m p x) = x := by rw [embeddedSalt, sealBytes_salt, arrayOf_of_toList]
  refine openBytes_eq_ok_iff.mpr ⟨?_, fun _ => sealBytes_take8 m p x, ?_⟩
  · rw [sealBytes_length]
    omega
  · rw [openBody, hsalt, sealBytes_drop16, decrypt_encrypt]

/-! ### The commands, with `OUT` copied to `IN` (R174, R196) -/

/-- The host copies the data output to the data input, with its length. -/
def State.outToIn (t : State) : State := { t with inp := t.out, inLen := t.outLen }

/-- After a completion the copied input is the result. -/
theorem State.dataIn_outToIn_complete {s : State} {r : Bytes} (h : r.length ≤ s.params.bufMax) :
    (s.complete r).outToIn.dataIn = r ∧ (s.complete r).outToIn.inLen.toNat = r.length := by
  have hlen : (s.complete r).outToIn.inLen.toNat = r.length := toNat_ofNat_of_le_bufMax h
  refine ⟨?_, hlen⟩
  rw [State.dataIn, hlen]
  exact Memory.slice_ofBytes r

/-- A completion with a state's data input as the result holds that input in `OUT`, zeros after it. -/
theorem State.complete_dataIn (s u : State) :
    (u.complete s.dataIn).err = 0 ∧ (u.complete s.dataIn).outLen = s.inLen ∧
      ∀ i, (u.complete s.dataIn).out.get i = if i < s.inLen.toNat then s.inp.get i else 0 := by
  have hlen : BitVec.ofNat 32 s.dataIn.length = s.inLen := by rw [s.dataIn_length, BitVec.ofNat_toNat, BitVec.setWidth_eq]
  refine ⟨rfl, hlen, fun i => ?_⟩
  have hget : (u.complete s.dataIn).out.get i = if i < s.dataIn.length then s.dataIn.getD i 0 else 0 :=
    Memory.get_ofBytes_ite _ i
  rw [hget, s.dataIn_length]
  exact ite_congr rfl (fun hi => s.inp.slice_getD hi) fun _ => rfl

/-- A command that reports no failure is the completion with its pure function's result. -/
theorem exec_success {i : Instr} {s t : State} (h : exec i s = .next t) (herr : t.err = 0) :
    ∃ r, s.operandsFit i = true ∧ s.contract i = .ok r ∧ t = (s.prepared i).complete r := by
  have hstep : completionStep (encode i) s = .next t :=
    (completionStep_of_decode_ok (decode_eq_ok_iff_eq_encode.mpr rfl) s).trans h
  obtain ⟨j, r, hj, hfits, hcontract, ht⟩ := completionStep_success hstep herr
  obtain rfl := encode_inj.mp hj
  exact ⟨r, hfits, hcontract, ht⟩

/-- A command that reads back, on operands that fit, a state's data input restores it. -/
theorem exec_restores {i : Instr} {s v : State} (hfits : v.operandsFit i = true) (h : v.contract i = .ok s.dataIn) :
    ∃ u, exec i v = .next u ∧ u.err = 0 ∧ u.outLen = s.inLen ∧
      ∀ k, u.out.get k = if k < s.inLen.toNat then s.inp.get k else 0 :=
  ⟨(v.prepared i).complete s.dataIn, by rw [exec_of_fits hfits, h]; rfl, s.complete_dataIn _⟩

/-! ### MD5 of the worked examples (R110, R111) -/

theorem md5_empty : (md5 []).toList =
    [0xD4, 0x1D, 0x8C, 0xD9, 0x8F, 0x00, 0xB2, 0x04, 0xE9, 0x80, 0x09, 0x98, 0xEC, 0xF8, 0x42, 0x7E] := by
  decide +kernel

theorem md5_password_salt : (md5 [0x70, 0x77, 0x00, 0x01, 0x02, 0x03, 0x04, 0x05, 0x06, 0x07]).toList =
    [0xA5, 0x5F, 0x79, 0xAA, 0x00, 0xE8, 0xDD, 0x0E, 0x7D, 0x3C, 0xE2, 0x6E, 0xD4, 0x0D, 0x7C, 0xD3] := by
  decide +kernel

theorem md5_two_blocks :
    (md5 ((List.replicate 8 [0x31, 0x32, 0x33, 0x34, 0x35, 0x36, 0x37, 0x38, 0x39, 0x30]).flatten)).toList =
      [0x57, 0xED, 0xF4, 0xA2, 0x2B, 0xE3, 0xC9, 0x55, 0xAC, 0x49, 0xDA, 0x2E, 0x21, 0x07, 0xB6, 0x7A] := by
  decide +kernel

/-! ### The statements -/

/-- Settles O54: both chainings by block index, and decryption block by block. -/
theorem cbcDecryptInvertsEncrypt : Obligations.CbcDecryptInvertsEncrypt := by
  refine fun key iv p hblocks => ⟨cbcDecryptRaw_cbcEncrypt hblocks key iv, ?_, ?_, fun j hj => ⟨?_, ?_⟩⟩
  · rw [cbcEncrypt_length]
    omega
  · rw [cbcDecryptRaw_length]
    omega
  · exact blockAt_cbcEncrypt (by omega) key iv
  · exact blockAt_cbcDecryptRaw (by omega) key iv

/-- Settles O55, from CBC's and the padding's round trips. -/
theorem decryptInvertsEncrypt : Obligations.DecryptInvertsEncrypt := decrypt_encrypt

/-- Settles O56: the ciphertext fits `IN` as it fitted `OUT`, and decrypts to the input. -/
theorem encryptThenDecryptRestoresTheInput : Obligations.EncryptThenDecryptRestoresTheInput := by
  intro s t h herr
  obtain ⟨r, hfits, hcontract, rfl⟩ := exec_success h herr
  have hlen := (State.contract_length hfits hcontract).1
  obtain ⟨hdata, hinLen⟩ := State.dataIn_outToIn_complete (s := s.prepared .encryptCmd) hlen
  have hr : r = encrypt s.dataIn s.key s.iv := (Except.ok.inj hcontract).symm
  refine exec_restores (i := .decryptCmd) (v := ((s.prepared .encryptCmd).complete r).outToIn) ?_ ?_
  · exact State.operandsFit_decryptCmd.mpr (hinLen.trans_le hlen)
  · rw [State.contract, hdata, hr]
    exact decrypt_encrypt _ s.dataIn s.key s.iv

/-- Settles O58, from the container's layout and `Decrypt` after `Encrypt`. -/
theorem openInvertsSeal : Obligations.OpenInvertsSeal := openBytes_sealBytes

/-- Settles O59: the container fits `IN` as it fitted `OUT`, and the password is the same, so it opens to the input. -/
theorem sealThenOpenRestoresTheInput : Obligations.SealThenOpenRestoresTheInput := by
  intro s t h herr
  obtain ⟨r, hfits, hcontract, rfl⟩ := exec_success h herr
  have hlen := (State.contract_length hfits hcontract).1
  obtain ⟨hdata, hinLen⟩ := State.dataIn_outToIn_complete (s := s.prepared .sealCmd) hlen
  have hr : r = sealBytes s.dataIn s.password s.nextDraw := (Except.ok.inj hcontract).symm
  refine exec_restores (i := .openCmd) (v := ((s.prepared .sealCmd).complete r).outToIn) ?_ ?_
  · exact State.operandsFit_openCmd.mpr ⟨(State.operandsFit_sealCmd.mp hfits).1, hinLen.trans_le hlen⟩
  · rw [State.contract, hdata, hr]
    exact openBytes_sealBytes _ s.dataIn s.password s.nextDraw

/-- Settles O46, each digest by evaluation. -/
theorem md5WorkedExamples : Obligations.Md5WorkedExamples := ⟨md5_empty, md5_password_salt, md5_two_blocks⟩

end Sys2Proof.Machine
